-- ==== Sys2Proof/Word.lean ====
section
/-! DEFINITION. Word.lean: the widths of the hardware: a byte is 8 bits, a host register 32 (R12, R14);
a byte sequence is a list of bytes and a bit string a list of bits, first bit first (R16, R17). -/
namespace Sys2Proof

/-- A byte, `u8` (R14). -/
abbrev Byte := BitVec 8

/-- A word, `u32`: a host register or a command word (R12, R14). -/
abbrev Word := BitVec 32

/-- A byte sequence `B[0], B[1], …` (R16). -/
abbrev Bytes := List Byte

/-- A bit string `s_0 s_1 …` (R17). -/
abbrev Bits := List Bool

end Sys2Proof
end

