-- ==== Sys2Proof/Config.lean ====
section
/-! DEFINITION. Config.lean: what an implementation fixes (R13), the constants of the host shell (R34, R41),
the value sets of the command word's sub-fields (R103), and the one free value of the spec (R402). -/
namespace Sys2Proof

/-- The four Triple-DES modes (R280). -/
inductive TdesMode where
  | eee3 | ede3 | eee2 | ede2
deriving DecidableEq, Repr

/-- The cipher kind an adapter command selects (R103 SEL, R330). -/
inductive CipherKind where
  | des | tdes
deriving DecidableEq, Repr

/-- The index base of a permutation table (R103 BASE, R170). -/
inductive IndexBase where
  | zero | one
deriving DecidableEq, Repr

/-- The bit order of a permutation table (R103 ORDER, R170). -/
inductive BitOrder where
  | be | le
deriving DecidableEq, Repr

/-- The operation of MASK (R103 OP; the value 3 is reserved and has no constructor). -/
inductive MaskOp where
  | and | or | xor
deriving DecidableEq, Repr

/-- The parameters of R13: BUF_SIZE (as its base 2 logarithm: it is a power of two), the numbers of contexts
and the platform's CORE_BASE. -/
structure Params where
  bufLog2 : Nat
  nDes : Nat
  nTdes : Nat
  nRc4 : Nat
  coreBase : Nat
deriving DecidableEq, Repr

namespace Config

/-- The bytes of host address space the core occupies from CORE_BASE (R382, R43). -/
def coreSpan : Nat := 0x020000

/-- The offset of the BUF window (R34, R72). -/
def windowBase : Nat := 0x010000

/-- The ID register (R41). -/
def idValue : Word := 0x44455331

/-- The register offsets of R34. -/
def offCmd : Nat := 0x000
def offStatus : Nat := 0x004
def offResult : Nat := 0x008
def offId : Nat := 0x00C
def offCaps : Nat := 0x010
def offSrc : Nat := 0x020
def offDst : Nat := 0x024
def offLen : Nat := 0x028
def offKey : Nat := 0x02C
def offKlen : Nat := 0x030
def offAux0 : Nat := 0x034
def offAux1 : Nat := 0x038

/-- The parameter values of the model's reset state: the recommended values of R13 and, for the platform's
CORE_BASE, 0. DESIGN CHOICE (log 1), unsafe. -/
def recommended : Params :=
  { bufLog2 := 12, nDes := 1, nTdes := 1, nRc4 := 1, coreBase := 0 }

/-- The byte that a host read of BUF returns while STATUS.BUSY = 1 (R402, U2): a free value, one for each byte
drawn, so that nothing can be proved of it. DESIGN CHOICE (log 7), safe. -/
opaque busyByte : Nat → Byte

end Config
end Sys2Proof
end

