-- ==== Sys2Proof/Syntax.lean ====
section
/-! DEFINITION. Syntax.lean: the 26 commands of R106 (spec/opcode_table.json), one constructor each, with the
fields of the command word R102 and R103 give it. Every other operand is an operand register latched at the
CMD write (R105) and so stands in the state, not in the command. -/
namespace Sys2Proof

/-- A command. `c` is the context index CTX of R102. -/
inductive Instr where
  /-- 0x00 NOP (R150) -/
  | nop
  /-- 0x01 DES_SETEK (R256) -/
  | desSetek (c : Nat)
  /-- 0x02 DES_SETDK (R257) -/
  | desSetdk (c : Nat)
  /-- 0x03 DES_ENC (R258) -/
  | desEnc (c : Nat)
  /-- 0x04 DES_DEC (R259) -/
  | desDec (c : Nat)
  /-- 0x05 DES_BSIZE (R260) -/
  | desBsize (c : Nat)
  /-- 0x11 TDES_SETEK (R286) -/
  | tdesSetek (c : Nat) (mode : TdesMode)
  /-- 0x12 TDES_SETDK (R287) -/
  | tdesSetdk (c : Nat) (mode : TdesMode)
  /-- 0x13 TDES_ENC (R288) -/
  | tdesEnc (c : Nat)
  /-- 0x14 TDES_DEC (R289) -/
  | tdesDec (c : Nat)
  /-- 0x15 TDES_BSIZE (R290) -/
  | tdesBsize (c : Nat)
  /-- 0x21 ENC_BYTES (R334) -/
  | encBytes (sel : CipherKind) (c : Nat)
  /-- 0x22 DEC_BYTES (R335) -/
  | decBytes (sel : CipherKind) (c : Nat)
  /-- 0x23 ENC_FILE (R337) -/
  | encFile (sel : CipherKind) (c : Nat)
  /-- 0x24 DEC_FILE (R338) -/
  | decFile (sel : CipherKind) (c : Nat)
  /-- 0x31 RC4_MUTATE (R315) -/
  | rc4Mutate (c : Nat)
  /-- 0x32 RC4_ENCODE (R316) -/
  | rc4Encode (c : Nat)
  /-- 0x41 PERMUTE (R190) -/
  | permute (base : IndexBase) (order : BitOrder)
  /-- 0x42 SUBST (R191) -/
  | subst
  /-- 0x43 ROTL (R192) -/
  | rotl
  /-- 0x44 ROTR (R193) -/
  | rotr
  /-- 0x45 MASK (R194) -/
  | mask (op : MaskOp)
  /-- 0x46 GETBIT (R195) -/
  | getbit
  /-- 0x47 SETBIT (R196) -/
  | setbit (val : Bool)
  /-- 0x48 GETBITS (R197) -/
  | getbits
  /-- 0x49 SWAPBITS (R198) -/
  | swapbits
deriving DecidableEq, Repr

end Sys2Proof
end

