-- ==== Sys2Proof/WellFormed.lean ====
section
/-! DEFINITION. WellFormed.lean: which command terms, parameter choices and Feistel configurations the spec
admits. The other fields of a command are well formed by their types. -/
namespace Sys2Proof

/-- A command is well formed iff its context index fits the 4-bit CTX field (R102). -/
def Instr.wf : Instr → Bool
  | .nop => true
  | .desSetek c => decide (c < 16)
  | .desSetdk c => decide (c < 16)
  | .desEnc c => decide (c < 16)
  | .desDec c => decide (c < 16)
  | .desBsize c => decide (c < 16)
  | .tdesSetek c _ => decide (c < 16)
  | .tdesSetdk c _ => decide (c < 16)
  | .tdesEnc c => decide (c < 16)
  | .tdesDec c => decide (c < 16)
  | .tdesBsize c => decide (c < 16)
  | .encBytes _ c => decide (c < 16)
  | .decBytes _ c => decide (c < 16)
  | .encFile _ c => decide (c < 16)
  | .decFile _ c => decide (c < 16)
  | .rc4Mutate c => decide (c < 16)
  | .rc4Encode c => decide (c < 16)
  | .permute _ _ => true
  | .subst => true
  | .rotl => true
  | .rotr => true
  | .mask _ => true
  | .getbit => true
  | .setbit _ => true
  | .getbits => true
  | .swapbits => true

/-- The legal values of the parameters (R13). -/
def Params.wf (p : Params) : Bool :=
  decide (8 ≤ p.bufLog2 ∧ p.bufLog2 ≤ 16) &&
  decide (1 ≤ p.nDes ∧ p.nDes ≤ 16) &&
  decide (1 ≤ p.nTdes ∧ p.nTdes ≤ 16) &&
  decide (1 ≤ p.nRc4 ∧ p.nRc4 ≤ 16) &&
  decide (p.coreBase % Config.coreSpan = 0)

/-- A Feistel round count is well formed iff it is even and not 0 (R223). -/
def roundsWf (rounds : Nat) : Bool := decide (0 < rounds ∧ rounds % 2 = 0)

end Sys2Proof
end

