-- ==== Sys2Proof/Decode.lean ====
section
/-! DEFINITION. Decode.lean: the decoder of command words (R100 to R110), total on every 32-bit word and
rejecting by name, and the encoder of the same tables. -/
namespace Sys2Proof

/-- Why a word is not legal (R108). The core reports every one of them as ILLEGAL_CMD (R144). -/
inductive DecodeError where
  /-- R108 (a): OPC is none of the 26 opcodes -/
  | unassignedOpcode
  /-- R108 (b): RSV is not 0 -/
  | reservedNonzero
  /-- R108 (c): a MOD bit the opcode does not use is not 0 -/
  | modNonzero
  /-- R108 (d): MASK with OP = 3 -/
  | maskOpReserved
  /-- R108 (e): CTX is not 0 for a command without a context -/
  | ctxNonzero
deriving DecidableEq, Repr

/-- OPC `w[7:0]` (R100). -/
def opcField (w : Word) : BitVec 8 := w.extractLsb' 0 8
/-- CTX `w[11:8]` (R100). -/
def ctxField (w : Word) : BitVec 4 := w.extractLsb' 8 4
/-- MOD `w[15:12]` (R100). -/
def modField (w : Word) : BitVec 4 := w.extractLsb' 12 4
/-- RSV `w[31:16]` (R100). -/
def rsvField (w : Word) : BitVec 16 := w.extractLsb' 16 16

/-- MODE `w[13:12]` (R103, R280). -/
def modeOf (m : BitVec 2) : TdesMode :=
  if m = 0 then .eee3 else if m = 1 then .ede3 else if m = 2 then .eee2 else .ede2
/-- The code of a mode in MODE (R280). -/
def modeCode : TdesMode → BitVec 4
  | .eee3 => 0 | .ede3 => 1 | .eee2 => 2 | .ede2 => 3
/-- SEL `w[12]` (R103). -/
def selOf (b : Bool) : CipherKind := if b then .tdes else .des
/-- The code of a cipher kind in SEL (R103). -/
def selCode : CipherKind → BitVec 4
  | .des => 0 | .tdes => 1
/-- BASE `w[12]` (R103). -/
def baseOf (b : Bool) : IndexBase := if b then .one else .zero
/-- ORDER `w[13]` (R103). -/
def orderOf (b : Bool) : BitOrder := if b then .le else .be
/-- The code of PERMUTE's BASE and ORDER in MOD (R103). -/
def permuteCode : IndexBase → BitOrder → BitVec 4
  | .zero, .be => 0 | .one, .be => 1 | .zero, .le => 2 | .one, .le => 3
/-- The code of MASK's OP in MOD (R103). -/
def maskCode : MaskOp → BitVec 4
  | .and => 0 | .or => 1 | .xor => 2

/-- A command that uses neither CTX nor MOD (R103, R108 (c), (e)). -/
def decodePlain (w : Word) (i : Instr) : Except DecodeError Instr :=
  if ctxField w ≠ 0 then .error .ctxNonzero
  else if modField w ≠ 0 then .error .modNonzero
  else .ok i

/-- A command that uses CTX alone (R102, R103). -/
def decodeCtx (w : Word) (f : Nat → Instr) : Except DecodeError Instr :=
  if modField w ≠ 0 then .error .modNonzero else .ok (f (ctxField w).toNat)

/-- A command with CTX and MODE: `w[15:14] = 0` (R103). -/
def decodeCtxMode (w : Word) (f : Nat → TdesMode → Instr) : Except DecodeError Instr :=
  if (modField w).extractLsb' 2 2 ≠ 0 then .error .modNonzero
  else .ok (f (ctxField w).toNat (modeOf ((modField w).extractLsb' 0 2)))

/-- A command with CTX and SEL: `w[15:13] = 0` (R103). -/
def decodeCtxSel (w : Word) (f : CipherKind → Nat → Instr) : Except DecodeError Instr :=
  if (modField w).extractLsb' 1 3 ≠ 0 then .error .modNonzero
  else .ok (f (selOf ((modField w).getLsbD 0)) (ctxField w).toNat)

/-- PERMUTE: BASE `w[12]`, ORDER `w[13]`, `w[15:14] = 0`, CTX = 0 (R103, R108 (e)). -/
def decodePermute (w : Word) : Except DecodeError Instr :=
  if ctxField w ≠ 0 then .error .ctxNonzero
  else if (modField w).extractLsb' 2 2 ≠ 0 then .error .modNonzero
  else .ok (.permute (baseOf ((modField w).getLsbD 0)) (orderOf ((modField w).getLsbD 1)))

/-- MASK: OP `w[13:12]`, the value 3 reserved, `w[15:14] = 0`, CTX = 0 (R103, R108 (d), (e)). -/
def decodeMask (w : Word) : Except DecodeError Instr :=
  if ctxField w ≠ 0 then .error .ctxNonzero
  else if (modField w).extractLsb' 2 2 ≠ 0 then .error .modNonzero
  else
    let op := (modField w).extractLsb' 0 2
    if op = 0 then .ok (.mask .and)
    else if op = 1 then .ok (.mask .or)
    else if op = 2 then .ok (.mask .xor)
    else .error .maskOpReserved

/-- SETBIT: VAL `w[12]`, `w[15:13] = 0`, CTX = 0 (R103, R108 (e)). -/
def decodeSetbit (w : Word) : Except DecodeError Instr :=
  if ctxField w ≠ 0 then .error .ctxNonzero
  else if (modField w).extractLsb' 1 3 ≠ 0 then .error .modNonzero
  else .ok (.setbit ((modField w).getLsbD 0))

/-- The opcode map of R106, for a word whose RSV is 0. -/
def decodeOpcode (w : Word) : Except DecodeError Instr :=
  let opc := opcField w
  if opc = 0x00 then decodePlain w .nop
  else if opc = 0x01 then decodeCtx w .desSetek
  else if opc = 0x02 then decodeCtx w .desSetdk
  else if opc = 0x03 then decodeCtx w .desEnc
  else if opc = 0x04 then decodeCtx w .desDec
  else if opc = 0x05 then decodeCtx w .desBsize
  else if opc = 0x11 then decodeCtxMode w .tdesSetek
  else if opc = 0x12 then decodeCtxMode w .tdesSetdk
  else if opc = 0x13 then decodeCtx w .tdesEnc
  else if opc = 0x14 then decodeCtx w .tdesDec
  else if opc = 0x15 then decodeCtx w .tdesBsize
  else if opc = 0x21 then decodeCtxSel w .encBytes
  else if opc = 0x22 then decodeCtxSel w .decBytes
  else if opc = 0x23 then decodeCtxSel w .encFile
  else if opc = 0x24 then decodeCtxSel w .decFile
  else if opc = 0x31 then decodeCtx w .rc4Mutate
  else if opc = 0x32 then decodeCtx w .rc4Encode
  else if opc = 0x41 then decodePermute w
  else if opc = 0x42 then decodePlain w .subst
  else if opc = 0x43 then decodePlain w .rotl
  else if opc = 0x44 then decodePlain w .rotr
  else if opc = 0x45 then decodeMask w
  else if opc = 0x46 then decodePlain w .getbit
  else if opc = 0x47 then decodeSetbit w
  else if opc = 0x48 then decodePlain w .getbits
  else if opc = 0x49 then decodePlain w .swapbits
  else .error .unassignedOpcode

/-- The decoder: every 32-bit word is exactly one command with its fields, or illegal (R108, R110). -/
def decode (w : Word) : Except DecodeError Instr :=
  if rsvField w ≠ 0 then .error .reservedNonzero else decodeOpcode w

/-- The one format of R100: RSV = 0, MOD, CTX, OPC from the most significant bit down. -/
def assembleWord (opc : BitVec 8) (c : Nat) (m : BitVec 4) : Word :=
  (0#16 ++ m ++ BitVec.ofNat 4 c ++ opc : BitVec (16 + 4 + 4 + 8))

/-- The opcode of a command (R106). -/
def opcodeOf : Instr → BitVec 8
  | .nop => 0x00
  | .desSetek _ => 0x01
  | .desSetdk _ => 0x02
  | .desEnc _ => 0x03
  | .desDec _ => 0x04
  | .desBsize _ => 0x05
  | .tdesSetek _ _ => 0x11
  | .tdesSetdk _ _ => 0x12
  | .tdesEnc _ => 0x13
  | .tdesDec _ => 0x14
  | .tdesBsize _ => 0x15
  | .encBytes _ _ => 0x21
  | .decBytes _ _ => 0x22
  | .encFile _ _ => 0x23
  | .decFile _ _ => 0x24
  | .rc4Mutate _ => 0x31
  | .rc4Encode _ => 0x32
  | .permute _ _ => 0x41
  | .subst => 0x42
  | .rotl => 0x43
  | .rotr => 0x44
  | .mask _ => 0x45
  | .getbit => 0x46
  | .setbit _ => 0x47
  | .getbits => 0x48
  | .swapbits => 0x49

/-- The encoder: the command word of a command (R100 to R106). The context index of a term that is not well
formed is taken modulo 16. -/
def encode (i : Instr) : Word :=
  match i with
  | .nop => assembleWord (opcodeOf i) 0 0
  | .desSetek c => assembleWord (opcodeOf i) c 0
  | .desSetdk c => assembleWord (opcodeOf i) c 0
  | .desEnc c => assembleWord (opcodeOf i) c 0
  | .desDec c => assembleWord (opcodeOf i) c 0
  | .desBsize c => assembleWord (opcodeOf i) c 0
  | .tdesSetek c m => assembleWord (opcodeOf i) c (modeCode m)
  | .tdesSetdk c m => assembleWord (opcodeOf i) c (modeCode m)
  | .tdesEnc c => assembleWord (opcodeOf i) c 0
  | .tdesDec c => assembleWord (opcodeOf i) c 0
  | .tdesBsize c => assembleWord (opcodeOf i) c 0
  | .encBytes k c => assembleWord (opcodeOf i) c (selCode k)
  | .decBytes k c => assembleWord (opcodeOf i) c (selCode k)
  | .encFile k c => assembleWord (opcodeOf i) c (selCode k)
  | .decFile k c => assembleWord (opcodeOf i) c (selCode k)
  | .rc4Mutate c => assembleWord (opcodeOf i) c 0
  | .rc4Encode c => assembleWord (opcodeOf i) c 0
  | .permute b o => assembleWord (opcodeOf i) 0 (permuteCode b o)
  | .subst => assembleWord (opcodeOf i) 0 0
  | .rotl => assembleWord (opcodeOf i) 0 0
  | .rotr => assembleWord (opcodeOf i) 0 0
  | .mask op => assembleWord (opcodeOf i) 0 (maskCode op)
  | .getbit => assembleWord (opcodeOf i) 0 0
  | .setbit v => assembleWord (opcodeOf i) 0 (if v then 1 else 0)
  | .getbits => assembleWord (opcodeOf i) 0 0
  | .swapbits => assembleWord (opcodeOf i) 0 0

/-- What the decoder reads from a word numbered as spec/opcode_table.json numbers it: a command is exactly one
32-bit word (R111), so the bits above `nbits` are 0 and there is no second word. -/
def decodeTableWord (nbits w : Nat) : Option Instr :=
  match decode (BitVec.ofNat 32 (w % 2 ^ nbits)) with
  | .ok i => some i
  | .error _ => none

end Sys2Proof
end

