-- ==== Sys2Proof/Machine/State.lean ====
section
/-! DEFINITION. Machine/State.lean: everything the spec gives the machine (R30), the host agent and the order of
turns as plain data (R140, R142), the reasons a step can stop, and the state after reset (R53, R390). -/
namespace Sys2Proof.Machine

/-- The error codes of a failing command (R350). NONE (0) is the absence of one. -/
inductive ErrCode where
  /-- 1: the latched word is not legal (R144) -/
  | illegalCmd
  /-- 2: CTX is not below the context count of its kind (R145) -/
  | badCtx
  /-- 3: the context direction has not been keyed since reset -/
  | keyNotSet
  /-- 4: KLEN is not the key length the command requires -/
  | keyLength
  /-- 5: LEN is not a multiple of the 8-byte block -/
  | lengthAlign
  /-- 6: a bit index or window is beyond the input's bit length -/
  | bitRange
  /-- 7: mask_bits exceeds the input's or the mask's bit length -/
  | maskRange
  /-- 8: a substitution group width exceeds 8 -/
  | sboxSize
  /-- 9: a region is not inside BUF (R75) -/
  | addrRange
  /-- 10: an internal invariant failed during the computation (R360); unreachable -/
  | fatalInvariant
deriving DecidableEq, Repr

/-- The operand registers (R32): seven 32-bit read/write registers without aliases. -/
structure OpRegs where
  src : Word
  dst : Word
  len : Word
  key : Word
  klen : Word
  aux0 : Word
  aux1 : Word
deriving DecidableEq, Repr

/-- The fields of STATUS (R36). Its reserved bits are hardwired 0 (R40) and have no storage. -/
structure Status where
  busy : Bool
  err : Bool
  errcode : Byte
deriving DecidableEq, Repr

/-- The command latch (R31). -/
structure Latch where
  valid : Bool
  word : Word
  ops : OpRegs
deriving DecidableEq, Repr

/-- A DES round key: 48 bits as 6 bytes (R44, R250). -/
abbrev RoundKey := Vector Byte 6

/-- 16 round keys (R44). -/
abbrev Schedule := Vector RoundKey 16

/-- An 8-byte key (R45). -/
abbrev Key8 := Vector Byte 8

/-- A DES context (R44). -/
structure DesCtx where
  ekValid : Bool
  ek : Schedule
  dkValid : Bool
  dk : Schedule
deriving DecidableEq, Repr

/-- One key set of a Triple-DES context, for one direction (R45). -/
structure TdesKeys where
  valid : Bool
  mode : TdesMode
  k1 : Key8
  k2 : Key8
  k3 : Key8
deriving DecidableEq, Repr

/-- A Triple-DES context: `e` is the set of TDES_ENC, `d` the set of TDES_DEC (R45). -/
structure TdesCtx where
  e : TdesKeys
  d : TdesKeys
deriving DecidableEq, Repr

/-- An RC4 context (R46). -/
structure Rc4Ctx where
  valid : Bool
  S : Vector Byte 256
  i : Byte
  j : Byte
deriving DecidableEq, Repr

/-- BUF (R70) with the written-since-reset status of its bytes (R71): the bytes written since reset, by strictly
rising address. An address that is not listed holds no value: reading it is UNINIT_READ. -/
abbrev Memory := List Host.Cell

/-- The canonical form of a memory: addresses strictly rising. -/
abbrev Memory.wf (m : Memory) : Prop := (m.map Prod.fst).Pairwise (· < ·)

/-- The width of a host access (R72, R73). -/
inductive Width where
  | w8 | w16 | w32
deriving DecidableEq, Repr

/-- A real statement of a host program (R120): a bus transaction at a host address, or the host-side branch BIT
to the statement with the given number. -/
inductive HostStmt where
  /-- W8, W32 (and a 16-bit write, which the core does not support) -/
  | write (w : Width) (addr : Nat) (v : Word)
  /-- R8, R32 (and a 16-bit read) -/
  | read (w : Width) (addr : Nat)
  /-- `BIT n, target`: branch if bit n of the last value read is 1 -/
  | bit (n : Nat) (target : Nat)
deriving DecidableEq, Repr

/-- The host agent (R24, R140): its program, the number of its next statement, and the last value it read.
The model's own fields (log 5). -/
structure HostAgent where
  prog : List HostStmt
  pc : Nat
  last : Word
deriving DecidableEq, Repr

/-- Whose turn a step is: the host's, the core's perform step, or the platform's reset input (R140, R390). -/
inductive Turn where
  | host | core | reset
deriving DecidableEq, Repr

/-- The machine (R30), the host agent that drives it and the order of turns. -/
structure State where
  /-- base 2 logarithm of BUF_SIZE (R13) -/
  bufLog2 : Nat
  /-- CORE_BASE (R13) -/
  coreBase : Nat
  /-- STATUS (R36) -/
  status : Status
  /-- RESULT (R39) -/
  result : Word
  /-- SRC, DST, LEN, KEY, KLEN, AUX0, AUX1 (R32) -/
  regs : OpRegs
  /-- LATCH (R31) -/
  latch : Latch
  /-- CTX.des[0 .. N_DES_CTX-1] (R44) -/
  des : List DesCtx
  /-- CTX.tdes[0 .. N_TDES_CTX-1] (R45) -/
  tdes : List TdesCtx
  /-- CTX.rc4[0 .. N_RC4_CTX-1] (R46) -/
  rc4 : List Rc4Ctx
  /-- BUF (R70) -/
  buf : Memory
  /-- free bytes drawn by busy reads (R402); the model's own field (log 7) -/
  freeReads : Nat
  /-- the host agent (R140); the model's own field (log 5) -/
  host : HostAgent
  /-- whose turns come next (R142, R410); the model's own field (log 6) -/
  schedule : List Turn
deriving DecidableEq, Repr

/-- The three conditions of R362, on which the model stops. They mark host behaviour the spec leaves undefined.
All three are safe: the hardware goes on in some way that the spec does not give. -/
inductive Fault where
  /-- UNINIT_READ: a command or the host reads a BUF byte not written since reset (R71). Safe. -/
  | uninitRead
  /-- HOST_ACCESS: a host access of an unsupported width or alignment (R72, R73). Safe. -/
  | hostAccess
  /-- HOST_HAZARD: a host CMD write, or a BUF write, while STATUS.BUSY = 1 (R401, R402). Safe. -/
  | hostHazard
deriving DecidableEq, Repr

/-- What the model does not give a meaning. -/
inductive Refusal where
  /-- An instruction without a meaning yet, raised by an arm of exec only. Safe. -/
  | notModelled (mnemonic : String)
  /-- A host access outside the core's 128 KiB of host addresses: the platform's (R43, U8). Raised by the host's
  turn, by no instruction. Safe. -/
  | platformAccess
deriving DecidableEq, Repr

/-- An unkeyed DES context (R53); the schedules are DESIGN CHOICE zero, never observable (log 3). -/
def DesCtx.unkeyed : DesCtx :=
  { ekValid := false, ek := Vector.replicate 16 (Vector.replicate 6 0)
    dkValid := false, dk := Vector.replicate 16 (Vector.replicate 6 0) }

/-- An unkeyed Triple-DES key set (R53); mode and keys are DESIGN CHOICE, never observable (log 3). -/
def TdesKeys.unkeyed : TdesKeys :=
  { valid := false, mode := .eee3
    k1 := Vector.replicate 8 0, k2 := Vector.replicate 8 0, k3 := Vector.replicate 8 0 }

/-- An unkeyed Triple-DES context (R53). -/
def TdesCtx.unkeyed : TdesCtx := { e := TdesKeys.unkeyed, d := TdesKeys.unkeyed }

/-- An unkeyed RC4 context (R53); S, i, j are DESIGN CHOICE zero, never observable (log 3). -/
def Rc4Ctx.unkeyed : Rc4Ctx := { valid := false, S := Vector.replicate 256 0, i := 0, j := 0 }

/-- The operand registers after reset (R53). -/
def OpRegs.zero : OpRegs :=
  { src := 0, dst := 0, len := 0, key := 0, klen := 0, aux0 := 0, aux1 := 0 }

/-- STATUS after reset (R53). -/
def Status.zero : Status := { busy := false, err := false, errcode := 0 }

/-- The empty latch (R53); its other fields are DESIGN CHOICE zero, never observable (log 2). -/
def Latch.empty : Latch := { valid := false, word := 0, ops := OpRegs.zero }

/-- A host without a program (log 5). The last value read starts at 0, so a BIT before the first read does not branch:
DESIGN CHOICE (log 5), since R120 gives no value before the first read. -/
def HostAgent.idle : HostAgent := { prog := [], pc := 0, last := 0 }

/-- The parameters of a machine (R13), read off its state. -/
def State.params (s : State) : Params :=
  { bufLog2 := s.bufLog2, nDes := s.des.length, nTdes := s.tdes.length, nRc4 := s.rc4.length
    coreBase := s.coreBase }

/-- The state after reset for a choice of the parameters (R53, R390), with an idle host. -/
def State.resetWith (p : Params) : State :=
  { bufLog2 := p.bufLog2
    coreBase := p.coreBase
    status := Status.zero
    result := 0
    regs := OpRegs.zero
    latch := Latch.empty
    des := List.replicate p.nDes DesCtx.unkeyed
    tdes := List.replicate p.nTdes TdesCtx.unkeyed
    rc4 := List.replicate p.nRc4 Rc4Ctx.unkeyed
    buf := []
    freeReads := 0
    host := HostAgent.idle
    schedule := [] }

/-- The machine right after reset, with the recommended parameters (R13, log 1). -/
def State.reset : State := State.resetWith Config.recommended

end Sys2Proof.Machine
end

