-- ==== Sys2Proof/Machine/Bits.lean ====
section
/-! DEFINITION. Machine/Bits.lean: bytes, bit strings and numbers (R15 to R19). -/
namespace Sys2Proof.Machine

/-- The number of bytes that hold n bits (R14). -/
def ceil8 (n : Nat) : Nat := (n + 7) / 8

/-- The number of bits of a byte sequence (R16). -/
def nbits (B : Bytes) : Nat := 8 * B.length

/-- `bit(B, k)`: bit index 0 is the most significant bit of byte 0 (R15, R16). A bit beyond the sequence is 0;
every use is guarded by the rule that makes it. -/
def bitAt (B : Bytes) (k : Nat) : Bool := (B.getD (k / 8) 0).getLsbD (7 - k % 8)

/-- The 8 bits of a byte, most significant first. -/
def byteBits (b : Byte) : Bits := (List.range 8).map fun t => b.getLsbD (7 - t)

/-- The bit string of a byte sequence (R17). -/
def unpack (B : Bytes) : Bits := B.flatMap byteBits

/-- `int(s)`: the number whose most significant bit is `s_0` (R18). -/
def bitsInt (s : Bits) : Nat := s.foldl (fun a b => 2 * a + b.toNat) 0

/-- `bits_m(v)`: the m bits of `v mod 2^m`, most significant first (R18). -/
def bitsOf (m v : Nat) : Bits := (List.range m).map fun t => v.testBit (m - 1 - t)

/-- One byte from at most 8 bits, most significant first, missing bits 0 (R17). -/
def packByte (s : Bits) : Byte := BitVec.ofNat 8 (bitsInt (s ++ List.replicate (8 - s.length) false))

/-- n bytes from a bit string. -/
def packBytes : Nat → Bits → Bytes
  | 0, _ => []
  | n + 1, s => packByte (s.take 8) :: packBytes n (s.drop 8)

/-- `pack(s)`: `ceil8(|s|)` bytes, storage bits beyond `|s|` 0 (R17). -/
def pack (s : Bits) : Bytes := packBytes (ceil8 s.length) s

/-- `⊕` on byte sequences of equal length (R19). -/
def xorBytes (A B : Bytes) : Bytes := List.zipWith (· ^^^ ·) A B

/-- A vector of a known length from a list: the list itself when its length is n, which every use of this
operation proves. -/
def vecOfList {α : Type} (n : Nat) (d : α) (l : List α) : Vector α n :=
  ⟨((l ++ List.replicate n d).take n).toArray, by simp⟩

end Sys2Proof.Machine
end

