-- ==== Sys2Proof/Machine/Flags.lean ====
section
/-! DEFINITION. Machine/Flags.lean: the flags STATUS.BUSY, ERR and ERRCODE (R36 to R38, R51), the only flags of
the core, and the constant words ID and CAPS. -/
namespace Sys2Proof.Machine

/-- The value a failing command writes to STATUS.ERRCODE (R350). -/
def ErrCode.code : ErrCode → Byte
  | .illegalCmd => 1
  | .badCtx => 2
  | .keyNotSet => 3
  | .keyLength => 4
  | .lengthAlign => 5
  | .bitRange => 6
  | .maskRange => 7
  | .sboxSize => 8
  | .addrRange => 9
  | .fatalInvariant => 10

/-- STATUS after the perform step of a command that succeeds (R38, R147, R142). -/
def statusOk : Status := { busy := false, err := false, errcode := 0 }

/-- STATUS after the perform step of a command that fails (R38, R146, R142). -/
def statusErr (e : ErrCode) : Status := { busy := false, err := true, errcode := e.code }

/-- STATUS as a word (R36): reserved bits read 0 (R40). -/
def Status.word (t : Status) : Word :=
  (0#16 ++ t.errcode ++ 0#6 ++ BitVec.ofBool t.err ++ BitVec.ofBool t.busy : BitVec (16 + 8 + 6 + 1 + 1))

/-- CAPS (R42): BUFLOG2, and the context counts less 1. -/
def capsWord (p : Params) : Word :=
  (0#12 ++ BitVec.ofNat 4 (p.nRc4 - 1) ++ BitVec.ofNat 4 (p.nTdes - 1) ++ BitVec.ofNat 4 (p.nDes - 1)
    ++ 0#3 ++ BitVec.ofNat 5 p.bufLog2 : BitVec (12 + 4 + 4 + 4 + 3 + 5))

end Sys2Proof.Machine
end

