-- ==== Sys2Proof/Machine/Ops.lean ====
section
/-! DEFINITION. Machine/Ops.lean: the named operations over BUF and the registers, the outcome of a command
(R149), failing (R146) and succeeding (R147), issuing a command (R141), and reset (R390). -/
namespace Sys2Proof.Machine

/-- `BUF_SIZE` (R13). -/
def State.bufSize (s : State) : Nat := 2 ^ s.bufLog2

/-- One byte of BUF: no value where nothing was written since reset (R71). -/
def Memory.read (m : Memory) (a : Nat) : Option Byte := m.lookup a

/-- `MemRead(a, n)` (R20): no value if one of the bytes has none. -/
def Memory.readBytes (m : Memory) : Nat → Nat → Option Bytes
  | _, 0 => some []
  | a, n + 1 =>
    match m.read a, Memory.readBytes m (a + 1) n with
    | some b, some B => some (b :: B)
    | _, _ => none

/-- The cells of a byte sequence at an address. -/
def cellsAt : Nat → Bytes → Memory
  | _, [] => []
  | a, b :: B => (a, b) :: cellsAt (a + 1) B

/-- `MemWrite(a, |B|, B)` (R20): the cells below the region, the region, the cells above it. -/
def Memory.writeBytes (m : Memory) (a : Nat) (B : Bytes) : Memory :=
  m.filter (fun x => decide (x.1 < a)) ++ cellsAt a B ++
    m.filter (fun x => decide (a + B.length ≤ x.1))

/-- The `MemWrite`s of a command landing together (R76, R147). -/
def Memory.writeAll (m : Memory) (ws : List (Nat × Bytes)) : Memory :=
  ws.foldl (fun m w => m.writeBytes w.1 w.2) m

/-- The new value of the named context (R147, R149). A command names at most one context (R48). -/
inductive CtxUpdate where
  /-- the command leaves every context as it is -/
  | unchanged
  | des (c : Nat) (x : DesCtx)
  | tdes (c : Nat) (x : TdesCtx)
  | rc4 (c : Nat) (x : Rc4Ctx)
deriving DecidableEq, Repr

/-- What Exec answers (R149), with the model's own stop on an unwritten byte (R71, R372). -/
inductive CmdOut where
  /-- `Err(code)` -/
  | err (e : ErrCode)
  /-- `Ok(result, writes, ctx')` -/
  | ok (result : Word) (writes : List (Nat × Bytes)) (ctx : CtxUpdate)
  /-- a byte the command reads was not written since reset: UNINIT_READ -/
  | uninit
deriving DecidableEq, Repr

/-- The perform step of a command empties the latch (R142); its other fields keep their values. -/
def Latch.emptied (l : Latch) : Latch := { l with valid := false }

/-- FAILING A COMMAND (R146), the core's one form of exception (R375): STATUS.ERR and ERRCODE are written, BUSY
and the latch cleared (R142), and nothing else changes: no BUF byte, no context, no operand register, not RESULT. -/
def State.fail (s : State) (e : ErrCode) : State :=
  { s with status := statusErr e, latch := s.latch.emptied }

/-- The context lists after a command (R147). -/
def State.putCtx (s : State) : CtxUpdate → State
  | .unchanged => s
  | .des c x => { s with des := s.des.set c x }
  | .tdes c x => { s with tdes := s.tdes.set c x }
  | .rc4 c x => { s with rc4 := s.rc4.set c x }

/-- A COMMAND SUCCEEDING (R147): its writes land in BUF, the named context takes its new value, RESULT its value,
ERR and ERRCODE become 0; BUSY and the latch are cleared (R142). -/
def State.succeed (s : State) (result : Word) (writes : List (Nat × Bytes)) (ctx : CtxUpdate) : State :=
  { s.putCtx ctx with
    buf := s.buf.writeAll writes, result := result, status := statusOk, latch := s.latch.emptied }

/-- The perform step applies what Exec answers as one atomic event (R142). -/
def finish (s : State) : CmdOut → Host.Outcome State Fault Refusal
  | .err e => .next (s.fail e)
  | .ok r ws c => .next (s.succeed r ws c)
  | .uninit => .fault .uninitRead

/-- ISSUE (R141): the latch takes the word and the current operand registers, BUSY becomes 1, nothing else
changes. The word is not checked. -/
def State.issue (s : State) (w : Word) : State :=
  { s with latch := { valid := true, word := w, ops := s.regs }, status := { s.status with busy := true } }

/-- The reset input (R390, R391): every piece of core state takes its reset value, for the same parameters. The
host agent, the order of turns and the count of free bytes are not the core's and stay (log 14). -/
def State.resetCore (s : State) : State :=
  { State.resetWith s.params with freeReads := s.freeReads, host := s.host, schedule := s.schedule }

end Sys2Proof.Machine
end

