-- ==== Sys2Proof/Machine/Bus.lean ====
section
/-! DEFINITION. Machine/Bus.lean: host accesses to the core (R34, R35, R43, R72, R73, R82, R401 to R403). -/
namespace Sys2Proof.Machine

/-- The offset of a host address in the core's 128 KiB (R382); none for an address of the platform's (R43). -/
def State.offsetOf (s : State) (addr : Nat) : Option Nat :=
  if s.coreBase ≤ addr ∧ addr < s.coreBase + Config.coreSpan then some (addr - s.coreBase) else none

/-- The number of bytes of an access. -/
def Width.bytes : Width → Nat
  | .w8 => 1
  | .w16 => 2
  | .w32 => 4

/-- A supported access to the register block: 32 bits at a 4-byte-aligned offset (R73). -/
def regAccessOk (w : Width) (off : Nat) : Bool := decide (w = .w32 ∧ off % 4 = 0)

/-- A supported access at and above the window's base: 8 bits at any offset, or 32 bits at a 4-byte-aligned one
(R72). -/
def bufAccessOk (w : Width) (off : Nat) : Bool := decide (w = .w8 ∨ (w = .w32 ∧ off % 4 = 0))

/-- The value of a register read (R34): CMD reads 0 (R35), reserved offsets read 0 (R43). A read has no effect
(R82) and is the same while busy (R403). -/
def State.readReg (s : State) (off : Nat) : Word :=
  if off = Config.offStatus then s.status.word
  else if off = Config.offResult then s.result
  else if off = Config.offId then Config.idValue
  else if off = Config.offCaps then capsWord s.params
  else if off = Config.offSrc then s.regs.src
  else if off = Config.offDst then s.regs.dst
  else if off = Config.offLen then s.regs.len
  else if off = Config.offKey then s.regs.key
  else if off = Config.offKlen then s.regs.klen
  else if off = Config.offAux0 then s.regs.aux0
  else if off = Config.offAux1 then s.regs.aux1
  else 0

/-- A register write other than to CMD: an operand register takes the value (R32, R33); read-only and reserved
offsets ignore it (R43, R82). -/
def State.writeReg (s : State) (off : Nat) (v : Word) : State :=
  if off = Config.offSrc then { s with regs := { s.regs with src := v } }
  else if off = Config.offDst then { s with regs := { s.regs with dst := v } }
  else if off = Config.offLen then { s with regs := { s.regs with len := v } }
  else if off = Config.offKey then { s with regs := { s.regs with key := v } }
  else if off = Config.offKlen then { s with regs := { s.regs with klen := v } }
  else if off = Config.offAux0 then { s with regs := { s.regs with aux0 := v } }
  else if off = Config.offAux1 then { s with regs := { s.regs with aux1 := v } }
  else s

/-- The word a host read sees: little-endian lanes (R72); an 8-bit read is zero-extended (log 17). -/
def laneWord : Bytes → Word
  | [] => 0
  | b :: B => b.setWidth 32 ||| (laneWord B <<< 8)

/-- The n bytes a host write stores: little-endian lanes (R72), the low bytes of the value (log 17). -/
def laneBytes : Nat → Word → Bytes
  | 0, _ => []
  | n + 1, v => v.setWidth 8 :: laneBytes n (v >>> 8)

/-- n free bytes, the next ones from number k on (R402). -/
def freeBytes : Nat → Nat → Bytes
  | _, 0 => []
  | k, n + 1 => Config.busyByte k :: freeBytes (k + 1) n

/-- A host read at an offset: the value and the state after it. -/
def State.busRead (s : State) (w : Width) (off : Nat) : Host.Outcome (Word × State) Fault Refusal :=
  if off < Config.windowBase then
    if regAccessOk w off then .next (s.readReg off, s) else .fault .hostAccess
  else if bufAccessOk w off = false then .fault .hostAccess
  else if s.bufSize ≤ off - Config.windowBase then .next (0, s)
  else if s.status.busy then
    -- a BUF read while busy returns any value and changes nothing (R402)
    .next (laneWord (freeBytes s.freeReads w.bytes), { s with freeReads := s.freeReads + w.bytes })
  else
    match s.buf.readBytes (off - Config.windowBase) w.bytes with
    | some B => .next (laneWord B, s)
    | none => .fault .uninitRead

/-- A host write at an offset. -/
def State.busWrite (s : State) (w : Width) (off : Nat) (v : Word) : Host.Outcome State Fault Refusal :=
  if off < Config.windowBase then
    if regAccessOk w off = false then .fault .hostAccess
    else if off = Config.offCmd then
      if s.status.busy then .fault .hostHazard else .next (s.issue v)
    else .next (s.writeReg off v)
  else if bufAccessOk w off = false then .fault .hostAccess
  else if s.bufSize ≤ off - Config.windowBase then .next s
  else if s.status.busy then .fault .hostHazard
  else .next { s with buf := s.buf.writeBytes (off - Config.windowBase) (laneBytes w.bytes v) }

/-- A host read at a host address; the host keeps the value for its next BIT (R120). -/
def State.hostRead (s : State) (w : Width) (addr : Nat) : Host.Outcome State Fault Refusal :=
  match s.offsetOf addr with
  | none => .refused .platformAccess
  | some off =>
    match s.busRead w off with
    | .next (v, t) => .next { t with host := { t.host with last := v } }
    | .fault f => .fault f
    | .refused r => .refused r

/-- A host write at a host address. -/
def State.hostWrite (s : State) (w : Width) (addr : Nat) (v : Word) : Host.Outcome State Fault Refusal :=
  match s.offsetOf addr with
  | none => .refused .platformAccess
  | some off => s.busWrite w off v

end Sys2Proof.Machine
end

