-- ==== Sys2Proof/Machine/Operands.lean ====
section
/-! DEFINITION. Machine/Operands.lean: how a command gets its operands: the latched registers as naturals
(R105), contexts by index (R102, R145), regions (R75), byte sequences from BUF (R20, R78) and permutation-table
entries (R80). Each is a check or a read followed by the rest of the command, in the order of R143. -/
namespace Sys2Proof.Machine

/-- The latched SRC as a natural (R105). -/
def State.opSrc (s : State) : Nat := s.latch.ops.src.toNat
/-- The latched DST as a natural (R105). -/
def State.opDst (s : State) : Nat := s.latch.ops.dst.toNat
/-- The latched LEN as a natural (R105). -/
def State.opLen (s : State) : Nat := s.latch.ops.len.toNat
/-- The latched KEY as a natural (R105). -/
def State.opKey (s : State) : Nat := s.latch.ops.key.toNat
/-- The latched KLEN as a natural (R105). -/
def State.opKlen (s : State) : Nat := s.latch.ops.klen.toNat
/-- The latched AUX0 as a natural (R105). -/
def State.opAux0 (s : State) : Nat := s.latch.ops.aux0.toNat
/-- The latched AUX1 as a natural (R105). -/
def State.opAux1 (s : State) : Nat := s.latch.ops.aux1.toNat

/-- A region (a, n) is valid iff `a + n ≤ BUF_SIZE`, without wrap-around (R75). -/
def State.regionValid (s : State) (r : Nat × Nat) : Bool := decide (r.1 + r.2 ≤ s.bufSize)

/-- A check: if `p` does not hold the command fails with `e`, else it goes on (R143). -/
def require (p : Prop) [Decidable p] (e : ErrCode) (k : CmdOut) : CmdOut := if p then k else .err e

/-- The context check (R145): context index not below the number of contexts of its kind is BAD_CTX. -/
def withCtx {α : Type} (l : List α) (c : Nat) (k : α → CmdOut) : CmdOut :=
  match l[c]? with
  | some x => k x
  | none => .err .badCtx

/-- The region check (R75, R143 (5)), before any byte is read. -/
def requireRegions (s : State) (rs : List (Nat × Nat)) (k : CmdOut) : CmdOut :=
  require (rs.all s.regionValid = true) .addrRange k

/-- `MemRead(a, n)` of the pre-command BUF (R20, R76), UNINIT_READ if a byte was not written (R71). -/
def withBytes (s : State) (a n : Nat) (k : Bytes → CmdOut) : CmdOut :=
  match s.buf.readBytes a n with
  | some B => k B
  | none => .uninit

/-- The computation (R143 (6)): an error it raises is the command's (R20). -/
def withValue {α : Type} (r : Except ErrCode α) (k : α → CmdOut) : CmdOut :=
  match r with
  | .ok x => k x
  | .error e => .err e

/-- The entries of a permutation table of n entries from its 2n bytes: 16-bit big-endian (R80). -/
def tableEntries : Nat → Bytes → List Nat
  | 0, _ => []
  | n + 1, B => (256 * (B.getD 0 0).toNat + (B.getD 1 0).toNat) :: tableEntries n (B.drop 2)

/-- The word of a natural result (R149: result is a u32). -/
def resultWord (n : Nat) : Word := BitVec.ofNat 32 n

end Sys2Proof.Machine
end

