-- ==== Sys2Proof/Machine/BitPrims.lean ====
section
/-! DEFINITION. Machine/BitPrims.lean: the bit primitives (41_bit_primitives.md), as functions (R170 to R176) and
as the nine commands on BUF (R190 to R198). -/
namespace Sys2Proof.Machine

/-! ## Functions -/

/-- The number subtracted from a table entry (R170). -/
def baseNum : IndexBase → Nat
  | .zero => 0
  | .one => 1

/-- The output bit for one table entry (R170): 0 where the index, after the base is subtracted, is negative or
beyond the input; BE reads index s, LE index tot - 1 - s (90_conflicts.md C1). -/
def permuteBit (B : Bytes) (order : BitOrder) (base : IndexBase) (t : Nat) : Bool :=
  if t < baseNum base then false
  else
    let s := t - baseNum base
    if nbits B ≤ s then false
    else
      match order with
      | .be => bitAt B s
      | .le => bitAt B (nbits B - 1 - s)

/-- `PermuteF(B, T, order, base)` (R170). -/
def permuteF (B : Bytes) (T : List Nat) (order : BitOrder) (base : IndexBase) : Bytes :=
  pack (T.map (permuteBit B order base))

/-- The substituted groups: g groups of n bits, m bits out of each, then the rest copied through (R171). -/
def substGroups (SB : Bytes) (n m : Nat) : Nat → Bits → Bits
  | 0, s => s
  | g + 1, s => bitsOf m (SB.getD (bitsInt (s.take n)) 0).toNat ++ substGroups SB n m g (s.drop n)

/-- `SubstF(B, SB, n, m)` (R171). -/
def substF (B SB : Bytes) (n m : Nat) : Except ErrCode Bytes :=
  if 8 < n ∨ 8 < m then .error .sboxSize
  else if n = 0 then .ok B
  else if m = 0 then .ok []
  else .ok (pack (substGroups SB n m (nbits B / n) (unpack B)))

/-- The bit length of SubstF's result (R191 `ob`). -/
def substBits (len n m : Nat) : Nat :=
  if n = 0 then 8 * len else if m = 0 then 0 else (8 * len) / n * m + (8 * len) % n

/-- Rotation of a window of bits to the left by k modulo its length: bit index k moves to index 0 (R172). -/
def rotateBitsLeft (w : Bits) (k : Nat) : Bits :=
  (List.range w.length).map fun t => w.getD ((t + k % w.length) % w.length) false

/-- Rotation of a window of bits to the right (R172). -/
def rotateBitsRight (w : Bits) (k : Nat) : Bits :=
  (List.range w.length).map fun t => w.getD ((t + w.length - k % w.length) % w.length) false

/-- `RotLF(B, n, k)` (R172). -/
def rotLF (B : Bytes) (n k : Nat) : Except ErrCode Bytes :=
  if B.length = 0 ∨ n = 0 then .ok []
  else if nbits B < n then .error .bitRange
  else .ok (pack (rotateBitsLeft ((unpack B).take n) k))

/-- `RotRF(B, n, k)` (R172). -/
def rotRF (B : Bytes) (n k : Nat) : Except ErrCode Bytes :=
  if B.length = 0 ∨ n = 0 then .ok []
  else if nbits B < n then .error .bitRange
  else .ok (pack (rotateBitsRight ((unpack B).take n) k))

/-- The bit length of a rotation's result (R192). -/
def rotBits (len n : Nat) : Nat := if len = 0 ∨ n = 0 then 0 else n

/-- The operation of MASK on one bit (R173). -/
def maskBit : MaskOp → Bool → Bool → Bool
  | .and, a, b => a && b
  | .or, a, b => a || b
  | .xor, a, b => a ^^ b

/-- `MaskF(B, M, mb, op)` (R173). -/
def maskF (B M : Bytes) (mb : Nat) (op : MaskOp) : Except ErrCode Bytes :=
  if nbits B < mb ∨ nbits M < mb then .error .maskRange
  else .ok (pack ((List.range (nbits B)).map fun k =>
    if k < mb then maskBit op (bitAt B k) (bitAt M k) else bitAt B k))

/-- `GetBitF(B, k)` (R174). -/
def getBitF (B : Bytes) (k : Nat) : Except ErrCode Bool :=
  if nbits B ≤ k then .error .bitRange else .ok (bitAt B k)

/-- `SetBitF(B, k, v)` (R174). -/
def setBitF (B : Bytes) (k : Nat) (v : Bool) : Except ErrCode Bytes :=
  if nbits B ≤ k then .error .bitRange else .ok (pack ((unpack B).set k v))

/-- `GetBitsF(B, i, j)` (R175): the i > j test is made first. -/
def getBitsF (B : Bytes) (i j : Nat) : Except ErrCode Bytes :=
  if j < i then .ok []
  else if nbits B ≤ j then .error .bitRange
  else .ok (pack (((unpack B).drop i).take (j - i + 1)))

/-- The bit length of GetBitsF's result (R197). -/
def getBitsLen (i j : Nat) : Nat := if j < i then 0 else j - i + 1

/-- `SwapBitsF(B, i, j)` (R176). -/
def swapBitsF (B : Bytes) (i j : Nat) : Except ErrCode Bytes :=
  if i = j ∨ B.length = 0 then .ok B
  else if nbits B ≤ i ∨ nbits B ≤ j then .error .bitRange
  else .ok (pack (((unpack B).set i (bitAt B j)).set j (bitAt B i)))

/-! ## Commands -/

/-- PERMUTE's arm of Exec (R190). -/
def cmdPermute (base : IndexBase) (order : BitOrder) (s : State) : CmdOut :=
  requireRegions s [(s.opSrc, s.opLen), (s.opKey, 2 * s.opKlen), (s.opDst, ceil8 s.opKlen)] <|
  withBytes s s.opSrc s.opLen fun B =>
  withBytes s s.opKey (2 * s.opKlen) fun T =>
  .ok (resultWord s.opKlen) [(s.opDst, permuteF B (tableEntries s.opKlen T) order base)] .unchanged

/-- PERMUTE (R190). -/
def execPermute (base : IndexBase) (order : BitOrder) (s : State) : Host.Outcome State Fault Refusal :=
  finish s (cmdPermute base order s)

/-- SUBST's arm of Exec (R191). -/
def cmdSubst (s : State) : CmdOut :=
  require (s.opAux0 ≤ 8 ∧ s.opAux1 ≤ 8) .sboxSize <|
  requireRegions s [(s.opSrc, s.opLen), (s.opKey, 256),
    (s.opDst, ceil8 (substBits s.opLen s.opAux0 s.opAux1))] <|
  withBytes s s.opSrc s.opLen fun B =>
  withBytes s s.opKey 256 fun SB =>
  withValue (substF B SB s.opAux0 s.opAux1) fun O =>
  .ok (resultWord (substBits s.opLen s.opAux0 s.opAux1)) [(s.opDst, O)] .unchanged

/-- SUBST (R191). -/
def execSubst (s : State) : Host.Outcome State Fault Refusal := finish s (cmdSubst s)

/-- The common shape of ROTL and ROTR (R192, R193), for the rotation `rot`. -/
def cmdRotate (rot : Bytes → Nat → Nat → Except ErrCode Bytes) (s : State) : CmdOut :=
  require (s.opLen = 0 ∨ s.opAux0 = 0 ∨ s.opAux0 ≤ 8 * s.opLen) .bitRange <|
  requireRegions s [(s.opSrc, s.opLen), (s.opDst, ceil8 (rotBits s.opLen s.opAux0))] <|
  withBytes s s.opSrc s.opLen fun B =>
  withValue (rot B s.opAux0 s.opAux1) fun O =>
  .ok (resultWord (rotBits s.opLen s.opAux0)) [(s.opDst, O)] .unchanged

/-- ROTL (R192). -/
def execRotl (s : State) : Host.Outcome State Fault Refusal := finish s (cmdRotate rotLF s)

/-- ROTR (R193). -/
def execRotr (s : State) : Host.Outcome State Fault Refusal := finish s (cmdRotate rotRF s)

/-- MASK's arm of Exec (R194). -/
def cmdMask (op : MaskOp) (s : State) : CmdOut :=
  require (s.opAux0 ≤ 8 * s.opLen ∧ s.opAux0 ≤ 8 * s.opKlen) .maskRange <|
  requireRegions s [(s.opSrc, s.opLen), (s.opKey, s.opKlen), (s.opDst, s.opLen)] <|
  withBytes s s.opSrc s.opLen fun B =>
  withBytes s s.opKey s.opKlen fun M =>
  withValue (maskF B M s.opAux0 op) fun O =>
  .ok (resultWord (8 * s.opLen)) [(s.opDst, O)] .unchanged

/-- MASK (R194). -/
def execMask (op : MaskOp) (s : State) : Host.Outcome State Fault Refusal := finish s (cmdMask op s)

/-- GETBIT's arm of Exec (R195). -/
def cmdGetbit (s : State) : CmdOut :=
  require (s.opAux0 < 8 * s.opLen) .bitRange <|
  requireRegions s [(s.opSrc, s.opLen)] <|
  withBytes s s.opSrc s.opLen fun B =>
  withValue (getBitF B s.opAux0) fun v =>
  .ok (resultWord v.toNat) [] .unchanged

/-- GETBIT (R195). -/
def execGetbit (s : State) : Host.Outcome State Fault Refusal := finish s (cmdGetbit s)

/-- SETBIT's arm of Exec (R196): in place at SRC. -/
def cmdSetbit (val : Bool) (s : State) : CmdOut :=
  require (s.opAux0 < 8 * s.opLen) .bitRange <|
  requireRegions s [(s.opSrc, s.opLen)] <|
  withBytes s s.opSrc s.opLen fun B =>
  withValue (setBitF B s.opAux0 val) fun O =>
  .ok 0 [(s.opSrc, O)] .unchanged

/-- SETBIT (R196). -/
def execSetbit (val : Bool) (s : State) : Host.Outcome State Fault Refusal := finish s (cmdSetbit val s)

/-- GETBITS' arm of Exec (R197). -/
def cmdGetbits (s : State) : CmdOut :=
  require (s.opAux1 < s.opAux0 ∨ s.opAux1 < 8 * s.opLen) .bitRange <|
  requireRegions s [(s.opSrc, s.opLen), (s.opDst, ceil8 (getBitsLen s.opAux0 s.opAux1))] <|
  withBytes s s.opSrc s.opLen fun B =>
  withValue (getBitsF B s.opAux0 s.opAux1) fun O =>
  .ok (resultWord (getBitsLen s.opAux0 s.opAux1)) [(s.opDst, O)] .unchanged

/-- GETBITS (R197). -/
def execGetbits (s : State) : Host.Outcome State Fault Refusal := finish s (cmdGetbits s)

/-- SWAPBITS' arm of Exec (R198): in place at SRC. -/
def cmdSwapbits (s : State) : CmdOut :=
  require (s.opAux0 = s.opAux1 ∨ s.opLen = 0 ∨ (s.opAux0 < 8 * s.opLen ∧ s.opAux1 < 8 * s.opLen)) .bitRange <|
  requireRegions s [(s.opSrc, s.opLen)] <|
  withBytes s s.opSrc s.opLen fun B =>
  withValue (swapBitsF B s.opAux0 s.opAux1) fun O =>
  .ok 0 [(s.opSrc, O)] .unchanged

/-- SWAPBITS (R198). -/
def execSwapbits (s : State) : Host.Outcome State Fault Refusal := finish s (cmdSwapbits s)

end Sys2Proof.Machine
end

