-- ==== Sys2Proof/Machine/Feistel.lean ====
section
/-! DEFINITION. Machine/Feistel.lean: the generic Feistel engine and its wrapper (42_feistel_engine.md). No
command reaches them directly; the DES engine is their one instance (R10). -/
namespace Sys2Proof.Machine

/-- An engine's configuration (R223): round count, block size in bytes, key expansion (R220) and round function
(R221). One with an odd or zero round count cannot be built. -/
structure FeistelEngine where
  rounds : Nat
  blockSize : Nat
  expand : Bytes → List Bytes
  roundF : Bytes → Bytes → Bytes
  wf : roundsWf rounds = true

/-- `EngineSetEnc(key)`: the forward schedule (R224). Too few round keys is the internal invariant violation
INSUFFICIENT_ROUND_KEYS (R360). -/
def engineSetEnc (e : FeistelEngine) (key : Bytes) : Except ErrCode (List Bytes) :=
  let ks := e.expand key
  if ks.length < e.rounds then .error .fatalInvariant else .ok ks

/-- `EngineSetDec(key)`: the backward schedule, the round keys in reverse (R225). -/
def engineSetDec (e : FeistelEngine) (key : Bytes) : Except ErrCode (List Bytes) :=
  let ks := e.expand key
  if ks.length < e.rounds then .error .fatalInvariant else .ok ks.reverse

/-- The rounds of R226, one for each round key of the list: `(L, R) <- (R, L ⊕ F(R, k))`, failing when the round
function's result is not a half block (ROUND_FUNCTION_WIDTH, R360). -/
def feistelRounds (F : Bytes → Bytes → Bytes) (h : Nat) : List Bytes → Bytes → Bytes → Except ErrCode (Bytes × Bytes)
  | [], L, R => .ok (L, R)
  | k :: ks, L, R =>
    if (F R k).length ≠ h then .error .fatalInvariant
    else feistelRounds F h ks R (xorBytes L (F R k))

/-- `FeistelF(rounds, F, sched, X)` (R226): the output is right then left. A schedule of fewer than `rounds` keys
cannot be installed (R224); were it used, it would be the same violation (log 16). -/
def feistelF (rounds : Nat) (F : Bytes → Bytes → Bytes) (sched : List Bytes) (X : Bytes) : Except ErrCode Bytes :=
  if X.length % 2 ≠ 0 then .error .lengthAlign
  else if sched.length < rounds then .error .fatalInvariant
  else
    let h := X.length / 2
    match feistelRounds F h (sched.take rounds) (X.take h) (X.drop h) with
    | .ok (L, R) => .ok (R ++ L)
    | .error e => .error e

/-- `WrapF(before, after, rounds, F, sched, X)` (R229): the hooks are the same in both directions (R228). -/
def wrapF (before after : Bytes → Bytes) (rounds : Nat) (F : Bytes → Bytes → Bytes) (sched : List Bytes)
    (X : Bytes) : Except ErrCode Bytes :=
  match feistelF rounds F sched (before X) with
  | .ok Y => .ok (after Y)
  | .error e => .error e

end Sys2Proof.Machine
end

