-- ==== Sys2Proof/Machine/Des.lean ====
section
/-! DEFINITION. Machine/Des.lean: the DES engine (43_des.md): key expansion (R250), round function (R252), block
transform (R253) and the five commands (R256 to R260). -/
namespace Sys2Proof.Machine

/-! ## Functions -/

/-- A DES table applied to a byte sequence: one-based and big-endian (R178). -/
def desPermute (T : List Nat) (B : Bytes) : Bytes := permuteF B T .be .one

/-- One 28-bit key half rotated left by n (R250): `unpack(RotLF(pack(C), 28, n))[0..28)`. The rotation cannot fail
on 28 bits; a failure would leave the half as it is. -/
def rotateHalf (n : Nat) (C : Bits) : Bits :=
  match rotLF (pack C) 28 n with
  | .ok O => (unpack O).take 28
  | .error _ => C

/-- The loop of R250 over the rotation amounts: the rotation is cumulative (90_conflicts.md C2). -/
def desRoundKeys : List Nat → Bits → Bits → List Bytes
  | [], _, _ => []
  | n :: ns, C, D =>
    let C' := rotateHalf n C
    let D' := rotateHalf n D
    desPermute tablePC2 (pack (C' ++ D')) :: desRoundKeys ns C' D'

/-- `DesKS(key)`: 16 round keys of 6 bytes (R250); C is the first half of PC1's output (R251). -/
def desKS (key : Bytes) : List Bytes :=
  let cd := unpack (desPermute tablePC1 key)
  desRoundKeys shifts (cd.take 28) ((cd.drop 28).take 28)

/-- The substitution of the round function: one box for each 6-bit group, 4 bits out of each (R252). -/
def desSubst : List (List (List Nat)) → Bits → Bits
  | [], _ => []
  | box :: boxes, x => bitsOf 4 (denseEntry box (bitsInt (x.take 6))) ++ desSubst boxes (x.drop 6)

/-- `DesF(R, K)`, the round function (R252). -/
def desF (R K : Bytes) : Bytes :=
  desPermute tableP (pack (desSubst sboxes (unpack (xorBytes (desPermute tableE R) K))))

/-- The hardware's one engine (R223, R253): 16 rounds, 8-byte blocks, DES key expansion and round function. -/
def desEngine : FeistelEngine :=
  { rounds := 16, blockSize := 8, expand := desKS, roundF := desF, wf := rfl }

/-- `DesCore(sched, X)` (R253): the wrapped engine with `before_rounds = IP` and `after_rounds = FP`. -/
def desCore (sched : List Bytes) (X : Bytes) : Except ErrCode Bytes :=
  wrapF (desPermute tableIP) (desPermute tableFP) desEngine.rounds desEngine.roundF sched X

/-- `DesEnc(k, X)` (R254). -/
def desEnc (k X : Bytes) : Except ErrCode Bytes := desCore (desKS k) X

/-- `DesDec(k, Y)` (R254). -/
def desDec (k Y : Bytes) : Except ErrCode Bytes := desCore (desKS k).reverse Y

/-- A schedule as a context holds it (R44), from the engine's round keys. -/
def scheduleOf (ks : List Bytes) : Schedule :=
  vecOfList 16 (Vector.replicate 6 0) (ks.map (vecOfList 6 0))

/-- The round keys of a schedule, as the engine reads them. -/
def scheduleBytes (v : Schedule) : List Bytes := v.toList.map fun k => k.toList

/-! ## Commands -/

/-- The common shape of the single-block commands (R258, R259, R288, R289): regions `(SRC, 8)` and `(DST, 8)`, one
block through `f`. LEN is ignored. -/
def blockCommand (s : State) (f : Bytes → Except ErrCode Bytes) : CmdOut :=
  requireRegions s [(s.opSrc, 8), (s.opDst, 8)] <|
  withBytes s s.opSrc 8 fun X =>
  withValue (f X) fun O =>
  .ok 0 [(s.opDst, O)] .unchanged

/-- The common shape of DES_SETEK and DES_SETDK (R256, R257): the key is expanded by `expand`, the context's new
value is `install`. -/
def desKeyCommand (s : State) (c : Nat) (expand : Bytes → Except ErrCode (List Bytes))
    (install : DesCtx → Schedule → DesCtx) : CmdOut :=
  withCtx s.des c fun x =>
  require (s.opKlen = 8) .keyLength <|
  requireRegions s [(s.opKey, 8)] <|
  withBytes s s.opKey 8 fun k =>
  withValue (expand k) fun ks =>
  .ok 0 [] (.des c (install x (scheduleOf ks)))

/-- DES_SETEK (R256): installs the forward schedule; dk and dk_valid stay. -/
def execDesSetek (c : Nat) (s : State) : Host.Outcome State Fault Refusal :=
  finish s (desKeyCommand s c (engineSetEnc desEngine) fun x v => { x with ek := v, ekValid := true })

/-- DES_SETDK (R257): installs the backward schedule; ek and ek_valid stay. -/
def execDesSetdk (c : Nat) (s : State) : Host.Outcome State Fault Refusal :=
  finish s (desKeyCommand s c (engineSetDec desEngine) fun x v => { x with dk := v, dkValid := true })

/-- DES_ENC's arm of Exec (R258). -/
def cmdDesEnc (c : Nat) (s : State) : CmdOut :=
  withCtx s.des c fun x =>
  require (x.ekValid = true) .keyNotSet <|
  blockCommand s (desCore (scheduleBytes x.ek))

/-- DES_ENC (R258). -/
def execDesEnc (c : Nat) (s : State) : Host.Outcome State Fault Refusal := finish s (cmdDesEnc c s)

/-- DES_DEC's arm of Exec (R259). -/
def cmdDesDec (c : Nat) (s : State) : CmdOut :=
  withCtx s.des c fun x =>
  require (x.dkValid = true) .keyNotSet <|
  blockCommand s (desCore (scheduleBytes x.dk))

/-- DES_DEC (R259). -/
def execDesDec (c : Nat) (s : State) : Host.Outcome State Fault Refusal := finish s (cmdDesDec c s)

/-- DES_BSIZE (R260): 8, keyed or not. -/
def execDesBsize (c : Nat) (s : State) : Host.Outcome State Fault Refusal :=
  finish s (withCtx s.des c fun _ => .ok 8 [] .unchanged)

end Sys2Proof.Machine
end

