-- ==== Sys2Proof/Machine/Tdes.lean ====
section
/-! DEFINITION. Machine/Tdes.lean: the Triple-DES composer (44_triple_des.md): its functions (R280 to R283) and its
five commands (R286 to R290). -/
namespace Sys2Proof.Machine

/-- `KL(mode)`: the key length of a mode (R280). -/
def tdesKeyLen : TdesMode → Nat
  | .eee3 => 24
  | .ede3 => 24
  | .eee2 => 16
  | .ede2 => 16

/-- `TdesSplit(mode, K)` (R281). -/
def tdesSplit (mode : TdesMode) (K : Bytes) : Bytes × Bytes × Bytes :=
  let k1 := K.take 8
  let k2 := (K.drop 8).take 8
  match mode with
  | .eee3 => (k1, k2, (K.drop 16).take 8)
  | .ede3 => (k1, k2, (K.drop 16).take 8)
  | .eee2 => (k1, k2, k1)
  | .ede2 => (k1, k2, k1)

/-- One stage after another, an error ending the chain. -/
def stage (r : Except ErrCode Bytes) (f : Bytes → Except ErrCode Bytes) : Except ErrCode Bytes :=
  match r with
  | .ok X => f X
  | .error e => .error e

/-- `TdesEncF(mode, k1, k2, k3, X)` (R282): stages in instance order 1, 2, 3 (90_conflicts.md C3). -/
def tdesEncF (mode : TdesMode) (k1 k2 k3 X : Bytes) : Except ErrCode Bytes :=
  match mode with
  | .eee3 => stage (stage (desEnc k1 X) (desEnc k2)) (desEnc k3)
  | .eee2 => stage (stage (desEnc k1 X) (desEnc k2)) (desEnc k3)
  | .ede3 => stage (stage (desEnc k1 X) (desDec k2)) (desEnc k3)
  | .ede2 => stage (stage (desEnc k1 X) (desDec k2)) (desEnc k3)

/-- `TdesDecF(mode, k1, k2, k3, Y)` (R283): the inverse stages in instance order 3, 2, 1. -/
def tdesDecF (mode : TdesMode) (k1 k2 k3 Y : Bytes) : Except ErrCode Bytes :=
  match mode with
  | .eee3 => stage (stage (desDec k3 Y) (desDec k2)) (desDec k1)
  | .eee2 => stage (stage (desDec k3 Y) (desDec k2)) (desDec k1)
  | .ede3 => stage (stage (desDec k3 Y) (desEnc k2)) (desDec k1)
  | .ede2 => stage (stage (desDec k3 Y) (desEnc k2)) (desDec k1)

/-- The block function of a key set for encryption (R288, R330). -/
def tdesEncWith (t : TdesKeys) (X : Bytes) : Except ErrCode Bytes :=
  tdesEncF t.mode t.k1.toList t.k2.toList t.k3.toList X

/-- The block function of a key set for decryption (R289, R330). -/
def tdesDecWith (t : TdesKeys) (Y : Bytes) : Except ErrCode Bytes :=
  tdesDecF t.mode t.k1.toList t.k2.toList t.k3.toList Y

/-- The key set a key installs for a mode (R286): valid, with the mode and the three keys of R281. -/
def tdesKeySet (mode : TdesMode) (K : Bytes) : TdesKeys :=
  let (k1, k2, k3) := tdesSplit mode K
  { valid := true, mode := mode, k1 := vecOfList 8 0 k1, k2 := vecOfList 8 0 k2, k3 := vecOfList 8 0 k3 }

/-- The common shape of TDES_SETEK and TDES_SETDK (R286, R287). -/
def tdesKeyCommand (s : State) (c : Nat) (mode : TdesMode) (install : TdesCtx → TdesKeys → TdesCtx) : CmdOut :=
  withCtx s.tdes c fun x =>
  require (s.opKlen = tdesKeyLen mode) .keyLength <|
  requireRegions s [(s.opKey, s.opKlen)] <|
  withBytes s s.opKey s.opKlen fun K =>
  .ok 0 [] (.tdes c (install x (tdesKeySet mode K)))

/-- TDES_SETEK (R286): the d_* fields stay. -/
def execTdesSetek (c : Nat) (mode : TdesMode) (s : State) : Host.Outcome State Fault Refusal :=
  finish s (tdesKeyCommand s c mode fun x t => { x with e := t })

/-- TDES_SETDK (R287): the e_* fields stay. -/
def execTdesSetdk (c : Nat) (mode : TdesMode) (s : State) : Host.Outcome State Fault Refusal :=
  finish s (tdesKeyCommand s c mode fun x t => { x with d := t })

/-- TDES_ENC's arm of Exec (R288). -/
def cmdTdesEnc (c : Nat) (s : State) : CmdOut :=
  withCtx s.tdes c fun x =>
  require (x.e.valid = true) .keyNotSet <|
  blockCommand s (tdesEncWith x.e)

/-- TDES_ENC (R288). -/
def execTdesEnc (c : Nat) (s : State) : Host.Outcome State Fault Refusal := finish s (cmdTdesEnc c s)

/-- TDES_DEC's arm of Exec (R289). -/
def cmdTdesDec (c : Nat) (s : State) : CmdOut :=
  withCtx s.tdes c fun x =>
  require (x.d.valid = true) .keyNotSet <|
  blockCommand s (tdesDecWith x.d)

/-- TDES_DEC (R289). -/
def execTdesDec (c : Nat) (s : State) : Host.Outcome State Fault Refusal := finish s (cmdTdesDec c s)

/-- TDES_BSIZE (R290): 8, keyed or not. -/
def execTdesBsize (c : Nat) (s : State) : Host.Outcome State Fault Refusal :=
  finish s (withCtx s.tdes c fun _ => .ok 8 [] .unchanged)

end Sys2Proof.Machine
end

