-- ==== Sys2Proof/Machine/Adapter.lean ====
section
/-! DEFINITION. Machine/Adapter.lean: the block I/O adapter (46_block_adapter.md): the selected cipher (R330), the
whole-buffer and the chunked form (R331, R332), and the four commands (R334 to R338). -/
namespace Sys2Proof.Machine

/-- What the adapter needs of a cipher (R330): block functions and key-state bits. -/
structure BlockCipher where
  encValid : Bool
  enc : Bytes → Except ErrCode Bytes
  decValid : Bool
  dec : Bytes → Except ErrCode Bytes

/-- SEL = 0: a DES context as a block cipher (R330). -/
def desCipher (x : DesCtx) : BlockCipher :=
  { encValid := x.ekValid, enc := desCore (scheduleBytes x.ek)
    decValid := x.dkValid, dec := desCore (scheduleBytes x.dk) }

/-- SEL = 1: a Triple-DES context as a block cipher (R330). -/
def tdesCipher (x : TdesCtx) : BlockCipher :=
  { encValid := x.e.valid, enc := tdesEncWith x.e, decValid := x.d.valid, dec := tdesDecWith x.d }

/-- The contexts of the selected kind, as block ciphers (R330). -/
def cipherList (s : State) : CipherKind → List BlockCipher
  | .des => s.des.map desCipher
  | .tdes => s.tdes.map tdesCipher

/-- q blocks of 8 bytes, each transformed independently (R331, R332). -/
def mapBlocks (f : Bytes → Except ErrCode Bytes) : Nat → Bytes → Except ErrCode Bytes
  | 0, _ => .ok []
  | q + 1, D =>
    match f (D.take 8), mapBlocks f q (D.drop 8) with
    | .ok o, .ok O => .ok (o ++ O)
    | .error e, _ => .error e
    | _, .error e => .error e

/-- `EcbF(f, D)` (R331). -/
def ecbF (f : Bytes → Except ErrCode Bytes) (D : Bytes) : Except ErrCode Bytes :=
  if D.length % 8 ≠ 0 then .error .lengthAlign else mapBlocks f (D.length / 8) D

/-- `ChunkF(f, D)` (R332): the trailing partial block is copied through unmodified. -/
def chunkF (f : Bytes → Except ErrCode Bytes) (D : Bytes) : Except ErrCode Bytes :=
  match mapBlocks f (D.length / 8) D with
  | .ok O => .ok (O ++ D.drop (8 * (D.length / 8)))
  | .error e => .error e

/-- The regions, the read and the write of an adapter command (R334, R337), for the buffer function `g`. -/
def bufferCommand (s : State) (g : Bytes → Except ErrCode Bytes) : CmdOut :=
  requireRegions s [(s.opSrc, s.opLen), (s.opDst, s.opLen)] <|
  withBytes s s.opSrc s.opLen fun D =>
  withValue (g D) fun O =>
  .ok 0 [(s.opDst, O)] .unchanged

/-- ENC_BYTES' arm of Exec (R334). -/
def cmdEncBytes (sel : CipherKind) (c : Nat) (s : State) : CmdOut :=
  withCtx (cipherList s sel) c fun x =>
  require (x.encValid = true) .keyNotSet <|
  require (s.opLen % 8 = 0) .lengthAlign <|
  bufferCommand s (ecbF x.enc)

/-- ENC_BYTES (R334). -/
def execEncBytes (sel : CipherKind) (c : Nat) (s : State) : Host.Outcome State Fault Refusal :=
  finish s (cmdEncBytes sel c s)

/-- DEC_BYTES' arm of Exec (R335). -/
def cmdDecBytes (sel : CipherKind) (c : Nat) (s : State) : CmdOut :=
  withCtx (cipherList s sel) c fun x =>
  require (x.decValid = true) .keyNotSet <|
  require (s.opLen % 8 = 0) .lengthAlign <|
  bufferCommand s (ecbF x.dec)

/-- DEC_BYTES (R335). -/
def execDecBytes (sel : CipherKind) (c : Nat) (s : State) : Host.Outcome State Fault Refusal :=
  finish s (cmdDecBytes sel c s)

/-- ENC_FILE's arm of Exec (R337): no length check. -/
def cmdEncFile (sel : CipherKind) (c : Nat) (s : State) : CmdOut :=
  withCtx (cipherList s sel) c fun x =>
  require (x.encValid = true) .keyNotSet <|
  bufferCommand s (chunkF x.enc)

/-- ENC_FILE (R337). -/
def execEncFile (sel : CipherKind) (c : Nat) (s : State) : Host.Outcome State Fault Refusal :=
  finish s (cmdEncFile sel c s)

/-- DEC_FILE's arm of Exec (R338). -/
def cmdDecFile (sel : CipherKind) (c : Nat) (s : State) : CmdOut :=
  withCtx (cipherList s sel) c fun x =>
  require (x.decValid = true) .keyNotSet <|
  bufferCommand s (chunkF x.dec)

/-- DEC_FILE (R338). -/
def execDecFile (sel : CipherKind) (c : Nat) (s : State) : Host.Outcome State Fault Refusal :=
  finish s (cmdDecFile sel c s)

end Sys2Proof.Machine
end

