-- ==== Sys2Proof/Machine/Common.lean ====
section
/-! DEFINITION. Machine/Common.lean: NOP (40_command_common.md). -/
namespace Sys2Proof.Machine

/-- NOP's arm of Exec (R150): no check beyond legality, no effect but RESULT and STATUS. -/
def cmdNop : CmdOut := .ok 0 [] .unchanged

/-- NOP (R150). -/
def execNop (s : State) : Host.Outcome State Fault Refusal := finish s cmdNop

end Sys2Proof.Machine
end

