-- ==== Sys2Proof/Machine/Rc4.lean ====
section
/-! DEFINITION. Machine/Rc4.lean: the RC4 state machine and keystream generator (45_rc4.md): its functions (R310 to
R312) and its two commands (R315, R316). -/
namespace Sys2Proof.Machine

/-- A permutation state and its cursors (S, i, j) (R310). -/
structure Rc4St where
  S : Vector Byte 256
  i : Byte
  j : Byte
deriving DecidableEq, Repr

/-- `S[p]`. -/
def sAt (S : Vector Byte 256) (p : Byte) : Byte := S.get ⟨p.toNat, p.isLt⟩

/-- `swap S[p], S[q]`. -/
def sSwap (S : Vector Byte 256) (p q : Byte) : Vector Byte 256 := S.swap p.toNat q.toNat p.isLt q.isLt

/-- The identity permutation of 0..255 (R310). -/
def sIdentity : Vector Byte 256 := ⟨((List.range 256).map (BitVec.ofNat 8)).toArray, by simp⟩

/-- The positions of key scheduling in order: `a <- a + S[p] + key[p mod L]`, then `swap S[p], S[a]` (R310). -/
def ksaLoop (key : Bytes) : List Nat → Vector Byte 256 → Byte → Vector Byte 256
  | [], S, _ => S
  | p :: ps, S, a =>
    let a' := a + sAt S (BitVec.ofNat 8 p) + key.getD (p % key.length) 0
    ksaLoop key ps (sSwap S (BitVec.ofNat 8 p) a') a'

/-- The permutation after key scheduling (R310): positions 0 to 255 from the identity, the running index from 0. -/
def ksaPerm (key : Bytes) : Vector Byte 256 := ksaLoop key (List.range 256) sIdentity 0

/-- `Rc4KSA(key)` (R310): both cursors start at 0. -/
def rc4KSA (key : Bytes) : Rc4St := { S := ksaPerm key, i := 0, j := 0 }

/-- `Rc4Step(S, i, j)`: one PRGA step and its keystream byte (R311). -/
def rc4Step (t : Rc4St) : Rc4St × Byte :=
  let i := t.i + 1
  let j := t.j + sAt t.S i
  let S := sSwap t.S i j
  ({ S := S, i := i, j := j }, sAt S (sAt S i + sAt S j))

/-- `Rc4Xor(st, D)`: one PRGA step per byte, in sequence (R312). -/
def rc4Xor : Rc4St → Bytes → Rc4St × Bytes
  | t, [] => (t, [])
  | t, d :: D =>
    let r := rc4Step t
    let q := rc4Xor r.1 D
    (q.1, (d ^^^ r.2) :: q.2)

/-- The state of a context (R46). -/
def rc4StOf (x : Rc4Ctx) : Rc4St := { S := x.S, i := x.i, j := x.j }

/-- A keyed context with a state (R46). -/
def rc4Keyed (t : Rc4St) : Rc4Ctx := { valid := true, S := t.S, i := t.i, j := t.j }

/-- RC4_MUTATE's arm of Exec (R315): the previous state is discarded entirely. -/
def cmdRc4Mutate (c : Nat) (s : State) : CmdOut :=
  withCtx s.rc4 c fun _ =>
  require (s.opKlen ≠ 0) .keyLength <|
  requireRegions s [(s.opKey, s.opKlen)] <|
  withBytes s s.opKey s.opKlen fun k =>
  .ok 0 [] (.rc4 c (rc4Keyed (rc4KSA k)))

/-- RC4_MUTATE (R315). -/
def execRc4Mutate (c : Nat) (s : State) : Host.Outcome State Fault Refusal := finish s (cmdRc4Mutate c s)

/-- RC4_ENCODE's arm of Exec (R316): the keystream goes on where the last command left it. -/
def cmdRc4Encode (c : Nat) (s : State) : CmdOut :=
  withCtx s.rc4 c fun x =>
  require (x.valid = true) .keyNotSet <|
  requireRegions s [(s.opSrc, s.opLen), (s.opDst, s.opLen)] <|
  withBytes s s.opSrc s.opLen fun D =>
  .ok 0 [(s.opDst, (rc4Xor (rc4StOf x) D).2)] (.rc4 c (rc4Keyed (rc4Xor (rc4StOf x) D).1))

/-- RC4_ENCODE (R316). -/
def execRc4Encode (c : Nat) (s : State) : Host.Outcome State Fault Refusal := finish s (cmdRc4Encode c s)

end Sys2Proof.Machine
end

