-- ==== Sys2Proof/Machine/Dispatch.lean ====
section
/-! DEFINITION. Machine/Dispatch.lean: one arm per command of R106, each one call of its meaning. -/
namespace Sys2Proof.Machine

def exec (i : Instr) (s : State) : Host.Outcome State Fault Refusal :=
  match i with
  | .nop => Sys2Proof.Machine.execNop s
  | .desSetek c => Sys2Proof.Machine.execDesSetek c s
  | .desSetdk c => Sys2Proof.Machine.execDesSetdk c s
  | .desEnc c => Sys2Proof.Machine.execDesEnc c s
  | .desDec c => Sys2Proof.Machine.execDesDec c s
  | .desBsize c => Sys2Proof.Machine.execDesBsize c s
  | .tdesSetek c mode => Sys2Proof.Machine.execTdesSetek c mode s
  | .tdesSetdk c mode => Sys2Proof.Machine.execTdesSetdk c mode s
  | .tdesEnc c => Sys2Proof.Machine.execTdesEnc c s
  | .tdesDec c => Sys2Proof.Machine.execTdesDec c s
  | .tdesBsize c => Sys2Proof.Machine.execTdesBsize c s
  | .encBytes sel c => Sys2Proof.Machine.execEncBytes sel c s
  | .decBytes sel c => Sys2Proof.Machine.execDecBytes sel c s
  | .encFile sel c => Sys2Proof.Machine.execEncFile sel c s
  | .decFile sel c => Sys2Proof.Machine.execDecFile sel c s
  | .rc4Mutate c => Sys2Proof.Machine.execRc4Mutate c s
  | .rc4Encode c => Sys2Proof.Machine.execRc4Encode c s
  | .permute base order => Sys2Proof.Machine.execPermute base order s
  | .subst => Sys2Proof.Machine.execSubst s
  | .rotl => Sys2Proof.Machine.execRotl s
  | .rotr => Sys2Proof.Machine.execRotr s
  | .mask op => Sys2Proof.Machine.execMask op s
  | .getbit => Sys2Proof.Machine.execGetbit s
  | .setbit val => Sys2Proof.Machine.execSetbit val s
  | .getbits => Sys2Proof.Machine.execGetbits s
  | .swapbits => Sys2Proof.Machine.execSwapbits s

end Sys2Proof.Machine
end

