-- ==== Sys2Proof/Machine/Agents.lean ====
section
/-! DEFINITION. Machine/Agents.lean: the turns of the agents (R140): the core's perform step (R142), the host's
next statement (R120), the reset input (R390), and whose turn it is when the schedule is used up (log 6). -/
namespace Sys2Proof.Machine

/-- PERFORM (R142): the latched word is decoded; a word that is not legal fails with ILLEGAL_CMD (R144), a command
is executed. -/
def performLatched (s : State) : Host.Outcome State Fault Refusal :=
  match decode s.latch.word with
  | .ok i => exec i s
  | .error _ => .next (s.fail .illegalCmd)

/-- The core's turn: its step is enabled exactly when LATCH.valid = 1 (R142). -/
def coreTurn (s : State) : Host.Outcome State Fault Refusal :=
  if s.latch.valid then performLatched s else .next s

/-- The host agent after a statement that does not branch. -/
def State.advanceHost (s : State) : State := { s with host := { s.host with pc := s.host.pc + 1 } }

/-- The host executes one statement (R120): a bus transaction, or BIT, which touches nothing of the core. -/
def hostStatement (s : State) : HostStmt → Host.Outcome State Fault Refusal
  | .write w addr v => s.advanceHost.hostWrite w addr v
  | .read w addr => s.advanceHost.hostRead w addr
  | .bit n target =>
    if s.host.last.getLsbD n then .next { s with host := { s.host with pc := target } }
    else .next s.advanceHost

/-- The host's turn: its next statement; a host at the end of its program does nothing. -/
def hostTurn (s : State) : Host.Outcome State Fault Refusal :=
  match s.host.prog[s.host.pc]? with
  | some st => hostStatement s st
  | none => .next s

/-- One turn of an agent. -/
def takeTurn (s : State) : Turn → Host.Outcome State Fault Refusal
  | .core => coreTurn s
  | .host => hostTurn s
  | .reset => .next s.resetCore

/-- The turn when the schedule is used up: a latched command is performed, else the host goes on (log 6). This is
weak fairness of the core agent (R142, R411). -/
def State.defaultTurn (s : State) : Turn := if s.latch.valid then .core else .host

end Sys2Proof.Machine
end

