-- ==== Sys2Proof/Machine/Step.lean ====
section
/-! DEFINITION. Machine/Step.lean: one step: the agent whose turn it is moves (R140, R142). -/
namespace Sys2Proof.Machine

/-- One step of the machine: the next turn of the schedule, or the default turn when it is used up (log 6). -/
def step (s : State) : Host.Outcome State Fault Refusal :=
  match s.schedule with
  | t :: rest => takeTurn { s with schedule := rest } t
  | [] => takeTurn s s.defaultTurn

/-- The state whose very next step performs the command word `w`: the latch as a CMD write of `w` fills it (R141),
and no other agent's turn before the core's (log 5). Nothing else changes. -/
def State.withFetchWord (s : State) (nbits w : Nat) : State :=
  { s.issue (BitVec.ofNat 32 (w % 2 ^ nbits)) with schedule := [] }

end Sys2Proof.Machine
end

