-- ==== Sys2Proof/Machine/HostAsm.lean ====
section
/-! DEFINITION. Machine/HostAsm.lean: the host assembler (R120 to R123): real statements, command statements,
pseudo-instructions and their expansions, and the host program they give. -/
namespace Sys2Proof.Machine

/-- The register names of R34 as the assembler spells them (R120). -/
inductive RegName where
  | cmd | status | result | id | caps | src | dst | len | key | klen | aux0 | aux1
deriving DecidableEq, Repr

/-- The offset of a register (R34). -/
def RegName.offset : RegName → Nat
  | .cmd => Config.offCmd
  | .status => Config.offStatus
  | .result => Config.offResult
  | .id => Config.offId
  | .caps => Config.offCaps
  | .src => Config.offSrc
  | .dst => Config.offDst
  | .len => Config.offLen
  | .key => Config.offKey
  | .klen => Config.offKlen
  | .aux0 => Config.offAux0
  | .aux1 => Config.offAux1

/-- `<off>`: a register name or `BUF+<a>` (R120). -/
inductive AsmOff where
  | reg (r : RegName)
  | buf (a : Nat)
deriving DecidableEq, Repr

/-- The offset of `<off>` from CORE_BASE (R34, R72). -/
def AsmOff.offset : AsmOff → Nat
  | .reg r => r.offset
  | .buf a => Config.windowBase + a

/-- The statements left when the pseudo-instructions of R122 but `poll` are expanded. A label is a number
(log 20). -/
inductive BasicStmt where
  | write (w : Width) (off : AsmOff) (v : Word)
  | read (w : Width) (off : AsmOff)
  | bit (n : Nat) (label : Nat)
  | label (l : Nat)
  | poll
deriving DecidableEq, Repr

/-- A statement of the host assembler (R120 to R122). -/
inductive AsmStmt where
  | w32 (off : AsmOff) (v : Word)
  | r32 (off : AsmOff)
  | w8 (off : AsmOff) (v : Byte)
  | r8 (off : AsmOff)
  | bit (n : Nat) (label : Nat)
  | label (l : Nat)
  /-- a command statement (R121) -/
  | command (i : Instr)
  | set (r : RegName) (v : Word)
  | poll
  | wrbuf (a : Nat) (B : Bytes)
  | rdbuf (a n : Nat)
  | run (i : Instr)
  | desKey (c : Nat) (k : Word)
  | desEnc (c : Nat) (d s : Word)
  | desDec (c : Nat) (d s : Word)
  | tdesKey (c : Nat) (m : TdesMode) (k : Word)
  | ecbEnc (sel : CipherKind) (c : Nat) (d s n : Word)
  | ecbDec (sel : CipherKind) (c : Nat) (d s n : Word)
  | rc4Key (c : Nat) (k n : Word)
  | rc4Enc (c : Nat) (d s n : Word)
deriving DecidableEq, Repr

/-- `set R, v` (R122). -/
def asmSet (r : RegName) (v : Word) : BasicStmt := .write .w32 (.reg r) v

/-- A command statement: a 32-bit write of its word to CMD (R121). -/
def asmCommand (i : Instr) : BasicStmt := .write .w32 (.reg .cmd) (encode i)

/-- `run X` (R122). -/
def asmRun (i : Instr) : List BasicStmt := [asmCommand i, .poll]

/-- `wrbuf a, b0 b1 …` (R122). -/
def asmWrbuf : Nat → Bytes → List BasicStmt
  | _, [] => []
  | a, b :: B => .write .w8 (.buf a) (b.setWidth 32) :: asmWrbuf (a + 1) B

/-- The expansions of R122. -/
def AsmStmt.expand : AsmStmt → List BasicStmt
  | .w32 off v => [.write .w32 off v]
  | .r32 off => [.read .w32 off]
  | .w8 off v => [.write .w8 off (v.setWidth 32)]
  | .r8 off => [.read .w8 off]
  | .bit n l => [.bit n l]
  | .label l => [.label l]
  | .command i => [asmCommand i]
  | .set r v => [asmSet r v]
  | .poll => [.poll]
  | .wrbuf a B => asmWrbuf a B
  | .rdbuf a n => (List.range n).map fun t => .read .w8 (.buf (a + t))
  | .run i => asmRun i
  | .desKey c k => [asmSet .key k, asmSet .klen 8] ++ asmRun (.desSetek c) ++ asmRun (.desSetdk c)
  | .desEnc c d s => [asmSet .src s, asmSet .dst d] ++ asmRun (.desEnc c)
  | .desDec c d s => [asmSet .src s, asmSet .dst d] ++ asmRun (.desDec c)
  | .tdesKey c m k =>
    [asmSet .key k, asmSet .klen (BitVec.ofNat 32 (tdesKeyLen m))] ++
      asmRun (.tdesSetek c m) ++ asmRun (.tdesSetdk c m)
  | .ecbEnc sel c d s n =>
    [asmSet .src s, asmSet .dst d, asmSet .len n] ++ asmRun (.encBytes sel c)
  | .ecbDec sel c d s n =>
    [asmSet .src s, asmSet .dst d, asmSet .len n] ++ asmRun (.decBytes sel c)
  | .rc4Key c k n => [asmSet .key k, asmSet .klen n] ++ asmRun (.rc4Mutate c)
  | .rc4Enc c d s n =>
    [asmSet .src s, asmSet .dst d, asmSet .len n] ++ asmRun (.rc4Encode c)

/-- How many real statements a basic statement gives: `poll` is a STATUS read and a BIT (R122). -/
def BasicStmt.size : BasicStmt → Nat
  | .label _ => 0
  | .poll => 2
  | _ => 1

/-- The statement number of a label, for statements from number `p` on (R120). Where a label stands more than once a BIT
branches to the first: DESIGN CHOICE (log 20), since R120 says nothing of it. -/
def labelAt (l : Nat) : Nat → List BasicStmt → Option Nat
  | _, [] => none
  | p, .label k :: r => if k = l then some p else labelAt l p r
  | p, b :: r => labelAt l (p + b.size) r

/-- The real statements of a program, for statements from number `p` on; none if a BIT names no label. The fresh
label of `poll` is the number of its own STATUS read (R122). -/
def layout (base : Nat) (lookup : Nat → Option Nat) : Nat → List BasicStmt → Option (List HostStmt)
  | _, [] => some []
  | p, .write w off v :: r =>
    (layout base lookup (p + 1) r).map (HostStmt.write w (base + off.offset) v :: ·)
  | p, .read w off :: r => (layout base lookup (p + 1) r).map (HostStmt.read w (base + off.offset) :: ·)
  | p, .bit n l :: r =>
    match lookup l with
    | some t => (layout base lookup (p + 1) r).map (HostStmt.bit n t :: ·)
    | none => none
  | p, .label _ :: r => layout base lookup p r
  | p, .poll :: r =>
    (layout base lookup (p + 2) r).map fun q =>
      HostStmt.read .w32 (base + Config.offStatus) :: HostStmt.bit 0 p :: q

/-- A statement the assembler takes: a context number of a command or pseudo-instruction is 0..15 (R121). -/
def AsmStmt.wf : AsmStmt → Bool
  | .command i => i.wf
  | .run i => i.wf
  | .desKey c _ => decide (c < 16)
  | .desEnc c _ _ => decide (c < 16)
  | .desDec c _ _ => decide (c < 16)
  | .tdesKey c _ _ => decide (c < 16)
  | .ecbEnc _ c _ _ _ => decide (c < 16)
  | .ecbDec _ c _ _ _ => decide (c < 16)
  | .rc4Key c _ _ => decide (c < 16)
  | .rc4Enc c _ _ _ => decide (c < 16)
  | .w32 _ _ => true
  | .r32 _ => true
  | .w8 _ _ => true
  | .r8 _ => true
  | .bit _ _ => true
  | .label _ => true
  | .set _ _ => true
  | .poll => true
  | .wrbuf _ _ => true
  | .rdbuf _ _ => true

/-- The host program of a source text (R120 to R123), for the core at host address `base`; none where a context number
is above 15 (R121) or a BIT names no label. -/
def assemble (base : Nat) (prog : List AsmStmt) : Option (List HostStmt) :=
  if prog.all AsmStmt.wf then
    let b := prog.flatMap AsmStmt.expand
    layout base (fun l => labelAt l 0 b) 0 b
  else none

end Sys2Proof.Machine
end

