-- ==== Sys2Proof/Safety.lean ====
section
/-! DEFINITION. Safety.lean: what a safe run is, and the invariant of the machine, in the terms statements use. -/
namespace Sys2Proof.Machine

/-- A step that answers a next state. -/
def stepsOn (s : State) : Bool :=
  match step s with
  | .next _ => true
  | _ => false

/-- k steps without a fault or a refusal: a program that never triggers a model fault (R362). -/
def safeFor : Nat → State → Bool
  | 0, _ => true
  | k + 1, s =>
    match step s with
    | .next t => safeFor k t
    | _ => false

/-- The canonical form of BUF, all of it inside BUF_SIZE (R70). -/
def State.bufWf (s : State) : Prop := Memory.wf s.buf ∧ ∀ x ∈ s.buf, x.1 < s.bufSize

/-- LATCH.valid = 1 exactly while STATUS.BUSY = 1 (R31). -/
def State.latchWf (s : State) : Prop := s.latch.valid = s.status.busy

/-- ERRCODE is 0 when ERR = 0 (R36), and one of the codes 1 to 10 when ERR = 1 (R350). -/
def State.statusWf (s : State) : Prop :=
  if s.status.err then 1 ≤ s.status.errcode.toNat ∧ s.status.errcode.toNat ≤ 10 else s.status.errcode = 0

/-- S is a permutation of 0..255 whenever an RC4 context is valid (R46). -/
def State.rc4Wf (s : State) : Prop := ∀ x ∈ s.rc4, x.valid = true → x.S.toList.Perm sIdentity.toList

/-- In a valid key set of a two-key mode the third key is the first (R281). -/
def TdesKeys.wf (t : TdesKeys) : Prop :=
  t.valid = true → (t.mode = .eee2 ∨ t.mode = .ede2) → t.k3 = t.k1

/-- Every Triple-DES key set obeys R281. -/
def State.tdesWf (s : State) : Prop := ∀ x ∈ s.tdes, x.e.wf ∧ x.d.wf

/-- Every valid DES schedule is the expansion of an 8-byte key, forward in ek and backward in dk (R44, R250). -/
def DesCtx.wf (x : DesCtx) : Prop :=
  (x.ekValid = true → ∃ k : Bytes, k.length = 8 ∧ scheduleBytes x.ek = desKS k) ∧
  (x.dkValid = true → ∃ k : Bytes, k.length = 8 ∧ scheduleBytes x.dk = (desKS k).reverse)

/-- Every DES context obeys `DesCtx.wf`. -/
def State.desWf (s : State) : Prop := ∀ x ∈ s.des, x.wf

/-- The invariant of the machine. -/
structure State.Inv (s : State) : Prop where
  params : s.params.wf = true
  buf : s.bufWf
  latch : s.latchWf
  status : s.statusWf
  des : s.desWf
  tdes : s.tdesWf
  rc4 : s.rc4Wf

/-! ## The terms of statements: legal words, outcomes, checks, regions, contexts, stores -/

/-- k steps in a row, as far as they answer a next state. -/
def runSteps : Nat → State → Host.Outcome State Fault Refusal
  | 0, s => .next s
  | k + 1, s =>
    match step s with
    | .next t => runSteps k t
    | .fault f => .fault f
    | .refused r => .refused r

/-- The 26 opcodes of R106. -/
def opcodeNumbers : List Nat :=
  [0x00, 0x01, 0x02, 0x03, 0x04, 0x05, 0x11, 0x12, 0x13, 0x14, 0x15, 0x21, 0x22, 0x23, 0x24, 0x31, 0x32,
   0x41, 0x42, 0x43, 0x44, 0x45, 0x46, 0x47, 0x48, 0x49]

/-- How many values MOD may take for an opcode, counted from 0, when the sub-field bits that R103 does not list
are 0. -/
def modValues (opc : Nat) : Nat :=
  if opc = 0x11 ∨ opc = 0x12 ∨ opc = 0x41 ∨ opc = 0x45 then 4
  else if opc = 0x21 ∨ opc = 0x22 ∨ opc = 0x23 ∨ opc = 0x24 ∨ opc = 0x47 then 2
  else 1

/-- The legal words of R108, in arithmetic on the word's value: (a) to (e) in order. -/
def LegalWord (w : Word) : Prop :=
  let opc := w.toNat % 256
  let ctx := w.toNat / 256 % 16
  let md := w.toNat / 4096 % 16
  opc ∈ opcodeNumbers ∧ w.toNat / 65536 = 0 ∧ md < modValues opc ∧ (opc = 0x45 → md % 4 ≠ 3) ∧
    (opc = 0x00 ∨ 0x41 ≤ opc → ctx = 0)

/-- A command has succeeded with result r and no other effect (R147, R142). -/
def State.completed (s : State) (r : Word) : State :=
  { s with
    result := r, status := { busy := false, err := false, errcode := 0 }, latch := { s.latch with valid := false } }

/-- A command has failed with an error code (R146, R142). -/
def State.failed (s : State) (code : Byte) : State :=
  { s with
    status := { busy := false, err := true, errcode := code }, latch := { s.latch with valid := false } }

/-- The code of the first check that fails, in the order of the list (R143). -/
def firstFailed : List (Bool × Byte) → Option Byte
  | [] => none
  | (true, _) :: r => firstFailed r
  | (false, e) :: _ => some e

/-- The key state the selected cipher needs for encryption (R330). -/
def encKeyed (s : State) : CipherKind → Nat → Bool
  | .des, c => match s.des[c]? with | some x => x.ekValid | none => false
  | .tdes, c => match s.tdes[c]? with | some x => x.e.valid | none => false

/-- The key state the selected cipher needs for decryption (R330). -/
def decKeyed (s : State) : CipherKind → Nat → Bool
  | .des, c => match s.des[c]? with | some x => x.dkValid | none => false
  | .tdes, c => match s.tdes[c]? with | some x => x.d.valid | none => false

/-- The key state of an RC4 context (R316). -/
def rc4Keyed? (s : State) (c : Nat) : Bool :=
  match s.rc4[c]? with | some x => x.valid | none => false

/-- The context count of a cipher kind (R330). -/
def ctxCount (s : State) : CipherKind → Nat
  | .des => s.des.length
  | .tdes => s.tdes.length

/-- A region check with its code (R75, ADDR_RANGE = 9). -/
def inBuf (s : State) (a n : Nat) : Bool × Byte := (decide (a + n ≤ s.bufSize), 9)

/-- The checks (2) to (5) of R143 for each command, each with its code of R350, in the order its rule lists them.
They are written from the rules of the commands (R150, R190 to R198, R256 to R260, R286 to R290, R315, R316, R334
to R338), not from the meanings. -/
def commandChecks (i : Instr) (s : State) : List (Bool × Byte) :=
  match i with
  | .nop => []
  | .desSetek c => [(decide (c < s.des.length), 2), (decide (s.opKlen = 8), 4), inBuf s s.opKey 8]
  | .desSetdk c => [(decide (c < s.des.length), 2), (decide (s.opKlen = 8), 4), inBuf s s.opKey 8]
  | .desEnc c => [(decide (c < s.des.length), 2), (encKeyed s .des c, 3), inBuf s s.opSrc 8, inBuf s s.opDst 8]
  | .desDec c => [(decide (c < s.des.length), 2), (decKeyed s .des c, 3), inBuf s s.opSrc 8, inBuf s s.opDst 8]
  | .desBsize c => [(decide (c < s.des.length), 2)]
  | .tdesSetek c m =>
    [(decide (c < s.tdes.length), 2), (decide (s.opKlen = tdesKeyLen m), 4), inBuf s s.opKey s.opKlen]
  | .tdesSetdk c m =>
    [(decide (c < s.tdes.length), 2), (decide (s.opKlen = tdesKeyLen m), 4), inBuf s s.opKey s.opKlen]
  | .tdesEnc c => [(decide (c < s.tdes.length), 2), (encKeyed s .tdes c, 3), inBuf s s.opSrc 8, inBuf s s.opDst 8]
  | .tdesDec c => [(decide (c < s.tdes.length), 2), (decKeyed s .tdes c, 3), inBuf s s.opSrc 8, inBuf s s.opDst 8]
  | .tdesBsize c => [(decide (c < s.tdes.length), 2)]
  | .encBytes k c =>
    [(decide (c < ctxCount s k), 2), (encKeyed s k c, 3), (decide (s.opLen % 8 = 0), 5),
      inBuf s s.opSrc s.opLen, inBuf s s.opDst s.opLen]
  | .decBytes k c =>
    [(decide (c < ctxCount s k), 2), (decKeyed s k c, 3), (decide (s.opLen % 8 = 0), 5),
      inBuf s s.opSrc s.opLen, inBuf s s.opDst s.opLen]
  | .encFile k c =>
    [(decide (c < ctxCount s k), 2), (encKeyed s k c, 3), inBuf s s.opSrc s.opLen, inBuf s s.opDst s.opLen]
  | .decFile k c =>
    [(decide (c < ctxCount s k), 2), (decKeyed s k c, 3), inBuf s s.opSrc s.opLen, inBuf s s.opDst s.opLen]
  | .rc4Mutate c => [(decide (c < s.rc4.length), 2), (decide (s.opKlen ≠ 0), 4), inBuf s s.opKey s.opKlen]
  | .rc4Encode c =>
    [(decide (c < s.rc4.length), 2), (rc4Keyed? s c, 3), inBuf s s.opSrc s.opLen, inBuf s s.opDst s.opLen]
  | .permute _ _ =>
    [inBuf s s.opSrc s.opLen, inBuf s s.opKey (2 * s.opKlen), inBuf s s.opDst (ceil8 s.opKlen)]
  | .subst =>
    [(decide (s.opAux0 ≤ 8), 8), (decide (s.opAux1 ≤ 8), 8), inBuf s s.opSrc s.opLen, inBuf s s.opKey 256,
      inBuf s s.opDst (ceil8 (substBits s.opLen s.opAux0 s.opAux1))]
  | .rotl =>
    [(decide (¬(s.opLen ≠ 0 ∧ s.opAux0 ≠ 0 ∧ 8 * s.opLen < s.opAux0)), 6), inBuf s s.opSrc s.opLen,
      inBuf s s.opDst (ceil8 (rotBits s.opLen s.opAux0))]
  | .rotr =>
    [(decide (¬(s.opLen ≠ 0 ∧ s.opAux0 ≠ 0 ∧ 8 * s.opLen < s.opAux0)), 6), inBuf s s.opSrc s.opLen,
      inBuf s s.opDst (ceil8 (rotBits s.opLen s.opAux0))]
  | .mask _ =>
    [(decide (s.opAux0 ≤ 8 * s.opLen), 7), (decide (s.opAux0 ≤ 8 * s.opKlen), 7), inBuf s s.opSrc s.opLen,
      inBuf s s.opKey s.opKlen, inBuf s s.opDst s.opLen]
  | .getbit => [(decide (s.opAux0 < 8 * s.opLen), 6), inBuf s s.opSrc s.opLen]
  | .setbit _ => [(decide (s.opAux0 < 8 * s.opLen), 6), inBuf s s.opSrc s.opLen]
  | .getbits =>
    [(decide (¬(s.opAux0 ≤ s.opAux1 ∧ 8 * s.opLen ≤ s.opAux1)), 6), inBuf s s.opSrc s.opLen,
      inBuf s s.opDst (ceil8 (getBitsLen s.opAux0 s.opAux1))]
  | .swapbits =>
    [(decide (¬(s.opAux0 ≠ s.opAux1 ∧ s.opLen ≠ 0 ∧ (8 * s.opLen ≤ s.opAux0 ∨ 8 * s.opLen ≤ s.opAux1))), 6),
      inBuf s s.opSrc s.opLen]

/-- The regions of BUF each command reads (the MemReads of its rule). -/
def readRegions (i : Instr) (s : State) : List (Nat × Nat) :=
  match i with
  | .nop => []
  | .desSetek _ => [(s.opKey, 8)]
  | .desSetdk _ => [(s.opKey, 8)]
  | .desEnc _ => [(s.opSrc, 8)]
  | .desDec _ => [(s.opSrc, 8)]
  | .desBsize _ => []
  | .tdesSetek _ _ => [(s.opKey, s.opKlen)]
  | .tdesSetdk _ _ => [(s.opKey, s.opKlen)]
  | .tdesEnc _ => [(s.opSrc, 8)]
  | .tdesDec _ => [(s.opSrc, 8)]
  | .tdesBsize _ => []
  | .encBytes _ _ => [(s.opSrc, s.opLen)]
  | .decBytes _ _ => [(s.opSrc, s.opLen)]
  | .encFile _ _ => [(s.opSrc, s.opLen)]
  | .decFile _ _ => [(s.opSrc, s.opLen)]
  | .rc4Mutate _ => [(s.opKey, s.opKlen)]
  | .rc4Encode _ => [(s.opSrc, s.opLen)]
  | .permute _ _ => [(s.opSrc, s.opLen), (s.opKey, 2 * s.opKlen)]
  | .subst => [(s.opSrc, s.opLen), (s.opKey, 256)]
  | .rotl => [(s.opSrc, s.opLen)]
  | .rotr => [(s.opSrc, s.opLen)]
  | .mask _ => [(s.opSrc, s.opLen), (s.opKey, s.opKlen)]
  | .getbit => [(s.opSrc, s.opLen)]
  | .setbit _ => [(s.opSrc, s.opLen)]
  | .getbits => [(s.opSrc, s.opLen)]
  | .swapbits => [(s.opSrc, s.opLen)]

/-- Every byte the command reads was written since reset (R71). -/
def InputsWritten (i : Instr) (s : State) : Prop :=
  ∀ r ∈ readRegions i s, ∀ a, r.1 ≤ a → a < r.1 + r.2 → (s.buf.read a).isSome = true

/-- The addresses a command may store to when it succeeds: "State written" of its rule. -/
def storesTo (i : Instr) (s : State) (a : Nat) : Prop :=
  match i with
  | .nop => False
  | .desSetek _ => False
  | .desSetdk _ => False
  | .desEnc _ => s.opDst ≤ a ∧ a < s.opDst + 8
  | .desDec _ => s.opDst ≤ a ∧ a < s.opDst + 8
  | .desBsize _ => False
  | .tdesSetek _ _ => False
  | .tdesSetdk _ _ => False
  | .tdesEnc _ => s.opDst ≤ a ∧ a < s.opDst + 8
  | .tdesDec _ => s.opDst ≤ a ∧ a < s.opDst + 8
  | .tdesBsize _ => False
  | .encBytes _ _ => s.opDst ≤ a ∧ a < s.opDst + s.opLen
  | .decBytes _ _ => s.opDst ≤ a ∧ a < s.opDst + s.opLen
  | .encFile _ _ => s.opDst ≤ a ∧ a < s.opDst + s.opLen
  | .decFile _ _ => s.opDst ≤ a ∧ a < s.opDst + s.opLen
  | .rc4Mutate _ => False
  | .rc4Encode _ => s.opDst ≤ a ∧ a < s.opDst + s.opLen
  | .permute _ _ => s.opDst ≤ a ∧ a < s.opDst + ceil8 s.opKlen
  | .subst => s.opDst ≤ a ∧ a < s.opDst + ceil8 (substBits s.opLen s.opAux0 s.opAux1)
  | .rotl => s.opDst ≤ a ∧ a < s.opDst + ceil8 (rotBits s.opLen s.opAux0)
  | .rotr => s.opDst ≤ a ∧ a < s.opDst + ceil8 (rotBits s.opLen s.opAux0)
  | .mask _ => s.opDst ≤ a ∧ a < s.opDst + s.opLen
  | .getbit => False
  | .setbit _ => a = s.opSrc + s.opAux0 / 8
  | .getbits => s.opDst ≤ a ∧ a < s.opDst + ceil8 (getBitsLen s.opAux0 s.opAux1)
  | .swapbits => a = s.opSrc + s.opAux0 / 8 ∨ a = s.opSrc + s.opAux1 / 8

/-- The DES context a command names (R48, R102). -/
def namesDes (i : Instr) (c : Nat) : Prop :=
  i = .desSetek c ∨ i = .desSetdk c ∨ i = .desEnc c ∨ i = .desDec c ∨ i = .desBsize c ∨
  i = .encBytes .des c ∨ i = .decBytes .des c ∨ i = .encFile .des c ∨ i = .decFile .des c

/-- The Triple-DES context a command names (R48, R102). -/
def namesTdes (i : Instr) (c : Nat) : Prop :=
  (∃ m, i = .tdesSetek c m ∨ i = .tdesSetdk c m) ∨ i = .tdesEnc c ∨ i = .tdesDec c ∨ i = .tdesBsize c ∨
  i = .encBytes .tdes c ∨ i = .decBytes .tdes c ∨ i = .encFile .tdes c ∨ i = .decFile .tdes c

/-- The RC4 context a command names (R48, R102). -/
def namesRc4 (i : Instr) (c : Nat) : Prop := i = .rc4Mutate c ∨ i = .rc4Encode c

/-- The same machine but for contexts that the command does not name. -/
def SameButOtherContexts (i : Instr) (s t : State) : Prop :=
  t = { s with des := t.des, tdes := t.tdes, rc4 := t.rc4 } ∧
  t.des.length = s.des.length ∧ t.tdes.length = s.tdes.length ∧ t.rc4.length = s.rc4.length ∧
  (∀ c, namesDes i c → t.des[c]? = s.des[c]?) ∧ (∀ c, namesTdes i c → t.tdes[c]? = s.tdes[c]?) ∧
  (∀ c, namesRc4 i c → t.rc4[c]? = s.rc4[c]?)

/-- Every context that the command does not name is as before. -/
def OtherContextsKept (i : Instr) (s t : State) : Prop :=
  (∀ c, ¬ namesDes i c → t.des[c]? = s.des[c]?) ∧ (∀ c, ¬ namesTdes i c → t.tdes[c]? = s.tdes[c]?) ∧
  (∀ c, ¬ namesRc4 i c → t.rc4[c]? = s.rc4[c]?)

/-- What a command does when a check fails, or when a byte it reads was not written (R143, R146, R71). -/
def FailsAsChecked (i : Instr) (s : State) : Prop :=
  (∀ e, firstFailed (commandChecks i s) = some e → exec i s = .next (s.failed e)) ∧
  (firstFailed (commandChecks i s) = none → ¬ InputsWritten i s → exec i s = .fault .uninitRead)

end Sys2Proof.Machine
end

