-- ==== Sys2Proof/Certificates/Slice0/Obligations.lean ====
section
/-! DEFINITION. Certificates/Slice0/Obligations.lean: the statements for the provers. Each docstring names the rules
of spec/ that the statement formalises. `State.completed`, `State.failed`, `commandChecks`, `readRegions`,
`storesTo` and the other terms of statements are in Safety.lean. -/

open Sys2Proof Sys2Proof.Machine

/-! ## Words -/

/-- The words that R107 lists decode to the commands it names. -/
def Obligations.ListedWordsDecode : Prop :=
  decode 0x00000003 = .ok (.desEnc 0) ∧ decode 0x00000201 = .ok (.desSetek 2) ∧
  decode 0x00001011 = .ok (.tdesSetek 0 .ede3) ∧ decode 0x00003112 = .ok (.tdesSetdk 1 .ede2) ∧
  decode 0x00001021 = .ok (.encBytes .tdes 0) ∧ decode 0x00000023 = .ok (.encFile .des 0) ∧
  decode 0x00000032 = .ok (.rc4Encode 0) ∧ decode 0x00001041 = .ok (.permute .one .be) ∧
  decode 0x00002041 = .ok (.permute .zero .le) ∧ decode 0x00002045 = .ok (.mask .xor) ∧
  decode 0x00001047 = .ok (.setbit true) ∧ decode 0x00000000 = .ok .nop

/-- R110: a word decodes to a command exactly when the command is well formed and the word is its encoding; so the
decoder drops no bit, and every well-formed command has exactly one word. -/
def Obligations.DecodeInvertsEncode : Prop :=
  ∀ (w : Word) (i : Instr), decode w = .ok i ↔ i.wf = true ∧ encode i = w

/-- R108: the words that decode are the legal ones, and each denotes exactly one command. -/
def Obligations.LegalWordsDecodeToOneCommand : Prop :=
  (∀ w : Word, LegalWord w ↔ ∃ i, decode w = .ok i) ∧
  (∀ w : Word, LegalWord w → ∃! i : Instr, i.wf = true ∧ encode i = w)

/-! ## Steps -/

/-- R142: on its turn the core performs exactly its latch: the decoded command by `exec`, a word that decodes to none by
`performLatched`; it does nothing when the latch is empty. The turn comes from the schedule, or by default when the
schedule is used up (the model's choice, log 6). -/
def Obligations.CoreTurnRunsLatchedCommand : Prop :=
  ∀ s : State,
    (s.latch.valid = true →
      (s.schedule = [] → step s = performLatched s) ∧
      (∀ rest, s.schedule = .core :: rest → step s = performLatched { s with schedule := rest })) ∧
    (∀ i, s.latch.valid = true → decode s.latch.word = .ok i →
      (s.schedule = [] → step s = exec i s) ∧
      (∀ rest, s.schedule = .core :: rest → step s = exec i { s with schedule := rest })) ∧
    (∀ rest, s.latch.valid = false → s.schedule = .core :: rest → step s = .next { s with schedule := rest })

/-- R144: a latched word that is not legal fails with ILLEGAL_CMD (1), and nothing else changes (R109, R146). -/
def Obligations.IllegalWordFailsAlone : Prop :=
  ∀ s : State, ¬ LegalWord s.latch.word → performLatched s = .next (s.failed 1)

/-- R411: a host that polls STATUS leaves the poll loop with BUSY = 0, for every number of polls made before the core
performs the command (the schedule holds that many host turns); the model's schedule is log 6. The hypothesis on
`performLatched` is that the command's inputs were written (R71). -/
def Obligations.PollLoopEnds : Prop :=
  ∀ (s u : State) (n p : Nat), s.schedule = List.replicate n .host → s.latch.valid = true → s.status.busy = true →
    s.host.pc = p → s.host.prog[p]? = some (.read .w32 (s.coreBase + 4)) →
    s.host.prog[p + 1]? = some (.bit 0 p) → performLatched s = .next u →
    ∃ k t, k ≤ n + 4 ∧ runSteps k s = .next t ∧ t.host.pc = p + 2 ∧ t.status = u.status ∧ t.status.busy = false ∧
      t.result = u.result ∧ t.buf = u.buf ∧ t.des = u.des ∧ t.tdes = u.tdes ∧ t.rc4 = u.rc4

/-! ## Reset and the invariant -/

/-- R53: the value of every piece of state after reset, for every choice of the parameters. -/
def Obligations.ResetValues : Prop :=
  (∃ p, State.reset = State.resetWith p) ∧
  ∀ p : Params, ∀ s : State, s = State.resetWith p →
    s.status.word = 0 ∧ s.result = 0 ∧
    s.regs = { src := 0, dst := 0, len := 0, key := 0, klen := 0, aux0 := 0, aux1 := 0 } ∧
    s.latch.valid = false ∧ s.readReg 0x00C = 0x44455331 ∧ s.readReg 0x010 = capsWord p ∧
    (∀ x ∈ s.des, x.ekValid = false ∧ x.dkValid = false) ∧
    (∀ x ∈ s.tdes, x.e.valid = false ∧ x.d.valid = false) ∧ (∀ x ∈ s.rc4, x.valid = false) ∧
    (∀ a, s.buf.read a = none)

/-- R390: the reset event gives every piece of core state its value of R53 in one step, for the same parameters, also
while a command is latched (R391). The host and the order of turns are not the core's (log 14). -/
def Obligations.ResetTurnResetsCore : Prop :=
  ∀ (s : State) (rest : List Turn), s.schedule = .reset :: rest →
    step s = .next { State.resetWith s.params with freeReads := s.freeReads, host := s.host, schedule := rest }

/-- The invariant holds after reset, for every legal choice of the parameters. -/
def Obligations.ResetMeetsInvariant : Prop :=
  State.reset.Inv ∧ ∀ p : Params, p.wf = true → (State.resetWith p).Inv

/-- Every step keeps the invariant: legal parameters (R13), BUF in canonical form inside BUF_SIZE (R70), the latch valid
exactly while busy (R31), ERRCODE 0 or a code of R350 (R36), schedules that come from a key (R44, R250), two-key modes
(R281), and RC4 permutations (R46). -/
def Obligations.StepKeepsInvariant : Prop :=
  ∀ s t : State, s.Inv → step s = .next t → t.Inv

/-! ## Host accesses -/

/-- R141: a CMD write of an idle core latches the word and the operand registers and sets BUSY; nothing else changes,
and the word is not checked. -/
def Obligations.CmdWriteIssues : Prop :=
  ∀ (s : State) (w : Word), s.status.busy = false →
    s.hostWrite .w32 s.coreBase w = .next { s with
      latch := { valid := true, word := w, ops := s.regs }
      status := { s.status with busy := true } }

/-- R32, R34: SRC, DST, LEN, KEY, KLEN, AUX0 and AUX1 stand at the offsets of R34: a write at each sets that register alone
to all 32 bits of the value, idle or busy, and a read there gives it; so each reads back as written, without aliases. -/
def Obligations.OperandRegistersReadBack : Prop :=
  ∀ (s : State) (v : Word),
    (s.busWrite .w32 0x020 v = .next { s with regs := { s.regs with src := v } } ∧
      s.busRead .w32 0x020 = .next (s.regs.src, s)) ∧
    (s.busWrite .w32 0x024 v = .next { s with regs := { s.regs with dst := v } } ∧
      s.busRead .w32 0x024 = .next (s.regs.dst, s)) ∧
    (s.busWrite .w32 0x028 v = .next { s with regs := { s.regs with len := v } } ∧
      s.busRead .w32 0x028 = .next (s.regs.len, s)) ∧
    (s.busWrite .w32 0x02C v = .next { s with regs := { s.regs with key := v } } ∧
      s.busRead .w32 0x02C = .next (s.regs.key, s)) ∧
    (s.busWrite .w32 0x030 v = .next { s with regs := { s.regs with klen := v } } ∧
      s.busRead .w32 0x030 = .next (s.regs.klen, s)) ∧
    (s.busWrite .w32 0x034 v = .next { s with regs := { s.regs with aux0 := v } } ∧
      s.busRead .w32 0x034 = .next (s.regs.aux0, s)) ∧
    (s.busWrite .w32 0x038 v = .next { s with regs := { s.regs with aux1 := v } } ∧
      s.busRead .w32 0x038 = .next (s.regs.aux1, s)) ∧
    ∀ off, off ∈ [0x020, 0x024, 0x028, 0x02C, 0x030, 0x034, 0x038] →
      ∃ t : State, s.busWrite .w32 off v = .next t ∧ t = { s with regs := t.regs } ∧
        t.busRead .w32 off = .next (v, t) ∧
        ∀ o, o < 0x10000 → o ≠ off → t.readReg o = s.readReg o

/-- R73, R43: the register block takes 32-bit accesses at 4-byte-aligned offsets, every other one is HOST_ACCESS; every
offset below 0x020000 that is no register and no BUF byte reads 0 and ignores writes; an address beyond is not the
core's. An unsupported write at the offset of CMD is HOST_ACCESS while busy too: the order of that check and of R401's
HOST_HAZARD is the model's choice (log 10). -/
def Obligations.RegisterSpaceAccesses : Prop :=
  ∀ (s : State),
    (∀ w off v, off < 0x10000 →
      (w = .w32 ∧ off % 4 = 0 → s.busRead w off = .next (s.readReg off, s) ∧
        s.busWrite w off v ≠ .fault .hostAccess) ∧
      (¬ (w = .w32 ∧ off % 4 = 0) →
        s.busRead w off = .fault .hostAccess ∧ s.busWrite w off v = .fault .hostAccess)) ∧
    (∀ (off : Nat) (v : Word), off % 4 = 0 → off < 0x20000 →
      off ∉ [0x000, 0x004, 0x008, 0x00C, 0x010, 0x020, 0x024, 0x028, 0x02C, 0x030, 0x034, 0x038] →
      ¬ (0x10000 ≤ off ∧ off < 0x10000 + s.bufSize) →
      s.busRead .w32 off = .next (0, s) ∧ s.busWrite .w32 off v = .next s) ∧
    (∀ addr, s.coreBase + 0x20000 ≤ addr → s.offsetOf addr = none)

/-- R35, R36, R39: a read of CMD gives 0, of STATUS its fields in their places, of RESULT its value, in every state, and
changes nothing. R40, R41, R42: ID is a constant, CAPS reports BUF_SIZE and the context counts in its fields, and no
write changes either, nor the reserved bits of STATUS, which read 0. R36, R39, R82: a 32-bit write to one of the four
read-only registers changes nothing, idle or busy. -/
def Obligations.IdCapsAndHardwiredBits : Prop :=
  (∀ s : State, s.busRead .w32 0x000 = .next (0, s) ∧ s.busRead .w32 0x008 = .next (s.result, s) ∧
    ∃ v : Word, s.busRead .w32 0x004 = .next (v, s) ∧
      v.getLsbD 0 = s.status.busy ∧ v.getLsbD 1 = s.status.err ∧ v.extractLsb' 2 6 = 0 ∧
      v.extractLsb' 8 8 = s.status.errcode ∧ v.extractLsb' 16 16 = 0) ∧
  (∀ s : State, s.params.wf = true →
    s.busRead .w32 0x00C = .next (0x44455331, s) ∧
    ∃ v : Word, s.busRead .w32 0x010 = .next (v, s) ∧
      2 ^ (v.extractLsb' 0 5).toNat = s.bufSize ∧ v.extractLsb' 5 3 = 0 ∧
      (v.extractLsb' 8 4).toNat = s.des.length - 1 ∧ (v.extractLsb' 12 4).toNat = s.tdes.length - 1 ∧
      (v.extractLsb' 16 4).toNat = s.rc4.length - 1 ∧ v.extractLsb' 20 12 = 0) ∧
  (∀ (s : State) (off : Nat) (v : Word), off ∈ [0x004, 0x008, 0x00C, 0x010] →
    s.busWrite .w32 off v = .next s) ∧
  (∀ (s t : State) (w : Width) (off : Nat) (v : Word), s.busWrite w off v = .next t →
    (t.readReg 0x004).extractLsb' 2 6 = 0 ∧ (t.readReg 0x004).extractLsb' 16 16 = 0 ∧
    t.readReg 0x00C = s.readReg 0x00C ∧ t.readReg 0x010 = s.readReg 0x010)

/-- R72: the BUF window of an idle core: byte accesses, little-endian lanes of 32-bit accesses, and the unsupported
ones. -/
def Obligations.BufWindowAccesses : Prop :=
  ∀ (s : State), s.status.busy = false →
    (∀ a b, a < s.bufSize → s.buf.read a = some b →
      ∃ v : Word, s.busRead .w8 (0x10000 + a) = .next (v, s) ∧ v.setWidth 8 = b) ∧
    (∀ a (b : Byte), a < s.bufSize →
      ∃ t : State, s.busWrite .w8 (0x10000 + a) (b.setWidth 32) = .next t ∧ t = { s with buf := t.buf } ∧
        t.buf.read a = some b ∧ ∀ p, p ≠ a → t.buf.read p = s.buf.read p) ∧
    (∀ a b0 b1 b2 b3, a % 4 = 0 → a < s.bufSize → s.buf.read a = some b0 → s.buf.read (a + 1) = some b1 →
      s.buf.read (a + 2) = some b2 → s.buf.read (a + 3) = some b3 →
      s.busRead .w32 (0x10000 + a) = .next ((b3 ++ b2 ++ b1 ++ b0 : BitVec (8 + 8 + 8 + 8)), s)) ∧
    (∀ a (v : Word), a % 4 = 0 → a < s.bufSize →
      ∃ t : State, s.busWrite .w32 (0x10000 + a) v = .next t ∧ t = { s with buf := t.buf } ∧
        t.buf.read a = some (v.extractLsb' 0 8) ∧ t.buf.read (a + 1) = some (v.extractLsb' 8 8) ∧
        t.buf.read (a + 2) = some (v.extractLsb' 16 8) ∧ t.buf.read (a + 3) = some (v.extractLsb' 24 8) ∧
        ∀ p, p < a ∨ a + 4 ≤ p → t.buf.read p = s.buf.read p) ∧
    (∀ a w (v : Word), a < s.bufSize → (w = .w16 ∨ (w = .w32 ∧ a % 4 ≠ 0)) →
      s.busRead w (0x10000 + a) = .fault .hostAccess ∧ s.busWrite w (0x10000 + a) v = .fault .hostAccess)

/-- R401, R402: while busy, a CMD write and a BUF write are HOST_HAZARD; a BUF read returns some value and changes
nothing of the core (the counter of free values is the model's own, log 7). -/
def Obligations.BusyHazards : Prop :=
  ∀ (s : State), s.status.busy = true →
    (∀ v, s.busWrite .w32 0x000 v = .fault .hostHazard) ∧
    (∀ w a v, a < s.bufSize → (w = .w8 ∨ (w = .w32 ∧ a % 4 = 0)) →
      s.busWrite w (0x10000 + a) v = .fault .hostHazard ∧
      ∃ x n, s.busRead w (0x10000 + a) = .next (x, { s with freeReads := n }))

/-- R403: register accesses behave the same while busy, do not reach the command in progress, and RESULT, ERR and
ERRCODE keep the previous command's values. -/
def Obligations.RegisterAccessWhileBusy : Prop :=
  ∀ (s idle : State), s.status.busy = true → idle = { s with status := { s.status with busy := false } } →
    (∀ off v, 0 < off → off < 0x10000 → off % 4 = 0 →
      ∃ g : OpRegs, s.busWrite .w32 off v = .next { s with regs := g } ∧
        idle.busWrite .w32 off v = .next { idle with regs := g }) ∧
    (∀ off, off < 0x10000 → off % 4 = 0 →
      s.busRead .w32 off = .next (s.readReg off, s) ∧ (off ≠ 0x004 → s.readReg off = idle.readReg off)) ∧
    (∀ w off v t, s.busWrite w off v = .next t →
      t.latch = s.latch ∧ t.result = s.result ∧ t.status = s.status)

/-- R71: a command or an idle host that reads a byte not written since reset stops with UNINIT_READ; nothing is
written at reset, and a host write makes its bytes written. -/
def Obligations.UnwrittenByteReadFaults : Prop :=
  (∀ (p : Params) (a : Nat), (State.resetWith p).buf.read a = none) ∧
  ∀ s : State,
    (∀ i, firstFailed (commandChecks i s) = none → ¬ InputsWritten i s → exec i s = .fault .uninitRead) ∧
    (∀ w a, s.status.busy = false → a < s.bufSize → (w = .w8 ∨ (w = .w32 ∧ a % 4 = 0)) →
      (∃ k, k < w.bytes ∧ s.buf.read (a + k) = none) → s.busRead w (0x10000 + a) = .fault .uninitRead) ∧
    (∀ w a v t k, a < s.bufSize → s.busWrite w (0x10000 + a) v = .next t → k < w.bytes →
      (t.buf.read (a + k)).isSome = true)

/-! ## Isolation -/

/-- R47: no host access reads or writes a context, and only the commands of the rule's files change one (the reset event
apart, R390). -/
def Obligations.ContextsHiddenFromHost : Prop :=
  (∀ (s u : State) (w : Width) (off : Nat), u = { s with des := u.des, tdes := u.tdes, rc4 := u.rc4 } →
    u.des.length = s.des.length → u.tdes.length = s.tdes.length → u.rc4.length = s.rc4.length →
    (∀ v t, s.busRead w off = .next (v, t) →
      t.des = s.des ∧ t.tdes = s.tdes ∧ t.rc4 = s.rc4 ∧
      u.busRead w off = .next (v, { t with des := u.des, tdes := u.tdes, rc4 := u.rc4 })) ∧
    (∀ f, s.busRead w off = .fault f → u.busRead w off = .fault f)) ∧
  (∀ (s t : State) (w : Width) (off : Nat) (v : Word), s.busWrite w off v = .next t →
    t.des = s.des ∧ t.tdes = s.tdes ∧ t.rc4 = s.rc4) ∧
  (∀ s t : State, step s = .next t → (∀ rest, s.schedule ≠ .reset :: rest) →
    (t.des ≠ s.des → ∃ c, decode s.latch.word = .ok (.desSetek c) ∨ decode s.latch.word = .ok (.desSetdk c)) ∧
    (t.tdes ≠ s.tdes → ∃ c m,
      decode s.latch.word = .ok (.tdesSetek c m) ∨ decode s.latch.word = .ok (.tdesSetdk c m)) ∧
    (t.rc4 ≠ s.rc4 → ∃ c, decode s.latch.word = .ok (.rc4Mutate c) ∨ decode s.latch.word = .ok (.rc4Encode c)))

/-- R48: a command names at most one context, and neither writes nor reads another: two machines that agree but for the
other contexts do the same. -/
def Obligations.OtherContextsUntouchedAndUnread : Prop :=
  (∀ i c d, (namesDes i c → namesDes i d → c = d) ∧ (namesTdes i c → namesTdes i d → c = d) ∧
    (namesRc4 i c → namesRc4 i d → c = d) ∧ (namesDes i c → ¬ namesTdes i d ∧ ¬ namesRc4 i d) ∧
    (namesTdes i c → ¬ namesRc4 i d)) ∧
  ∀ (i : Instr) (s u : State), SameButOtherContexts i s u →
    (∀ t, exec i s = .next t → OtherContextsKept i s t ∧
      ∃ v, exec i u = .next v ∧ OtherContextsKept i u v ∧ SameButOtherContexts i t v) ∧
    (∀ f, exec i s = .fault f → exec i u = .fault f)

/-- R33: no command writes an operand register; only a host write does (the reset event apart, R390); a host write of
one, at any time, leaves the result of the latched command as it was. -/
def Obligations.OperandRegistersOnlyHostWritten : Prop :=
  (∀ i (s t : State), exec i s = .next t → t.regs = s.regs) ∧
  (∀ s t : State, step s = .next t → t.regs ≠ s.regs → (∃ rest, s.schedule = .reset :: rest) ∨
    ∃ addr v, s.host.prog[s.host.pc]? = some (.write .w32 addr v)) ∧
  (∀ (s : State) (off : Nat) (v : Word), 0 < off → off < 0x10000 → off % 4 = 0 →
    ∃ g : OpRegs, s.busWrite .w32 off v = .next { s with regs := g } ∧
      ∀ i, (∀ t, exec i s = .next t → exec i { s with regs := g } = .next { t with regs := g }) ∧
        (∀ f, exec i s = .fault f → exec i { s with regs := g } = .fault f))

/-! ## What every command does and leaves alone -/

/-- The frame of all 26 commands (R33, R47, R48, R142, R147 and the rule of each): when exec gives a next state, no
operand register, parameter, host or schedule field changes, the latch is emptied, and BUSY is 0; every byte of BUF
outside the addresses the command's rule stores to reads as before; context lists the command's rule does not write
are as before; and a key setter leaves the other direction of its context as it was. That the emptied latch keeps its
contents is the model's choice (log 2). -/
def Obligations.CommandFrame : Prop :=
  ∀ (i : Instr) (s t : State), exec i s = .next t →
    t.regs = s.regs ∧ t.bufLog2 = s.bufLog2 ∧ t.coreBase = s.coreBase ∧ t.host = s.host ∧
    t.schedule = s.schedule ∧ t.freeReads = s.freeReads ∧ t.latch = { s.latch with valid := false } ∧
    t.status.busy = false ∧ t.des.length = s.des.length ∧ t.tdes.length = s.tdes.length ∧
    t.rc4.length = s.rc4.length ∧
    (∀ a, ¬ storesTo i s a → t.buf.read a = s.buf.read a) ∧
    ((∀ c, i ≠ .desSetek c ∧ i ≠ .desSetdk c) → t.des = s.des) ∧
    ((∀ c m, i ≠ .tdesSetek c m ∧ i ≠ .tdesSetdk c m) → t.tdes = s.tdes) ∧
    ((∀ c, i ≠ .rc4Mutate c ∧ i ≠ .rc4Encode c) → t.rc4 = s.rc4) ∧
    (∀ c x y, s.des[c]? = some x → t.des[c]? = some y →
      (i = .desSetek c → y.dk = x.dk ∧ y.dkValid = x.dkValid) ∧
      (i = .desSetdk c → y.ek = x.ek ∧ y.ekValid = x.ekValid)) ∧
    (∀ c m x y, s.tdes[c]? = some x → t.tdes[c]? = some y →
      (i = .tdesSetek c m → y.d = x.d) ∧ (i = .tdesSetdk c m → y.e = x.e))

/-- R146: a command that fails changes STATUS.ERR and ERRCODE and nothing else (BUSY and the latch are cleared by R142);
its code is one of those its rule lists. -/
def Obligations.FailedCommandChangesOnlyStatus : Prop :=
  ∀ (i : Instr) (s t : State), exec i s = .next t → t.status.err = true →
    t = s.failed t.status.errcode ∧ t.status.errcode ∈ (commandChecks i s).map Prod.snd

/-- R143: the checks are made in order, legality first, and the first that fails decides; failing reads no BUF byte (its
outcome is the same for every content of BUF); when all pass, the command succeeds, provided its inputs were
written (R71). -/
def Obligations.FirstFailedCheckDecides : Prop :=
  ∀ s : State,
    (¬ LegalWord s.latch.word →
      ∀ m, performLatched { s with buf := m } = .next (State.failed { s with buf := m } 1)) ∧
    (∀ i, decode s.latch.word = .ok i →
      (∀ e, firstFailed (commandChecks i s) = some e →
        ∀ m, performLatched { s with buf := m } = .next (State.failed { s with buf := m } e)) ∧
      (firstFailed (commandChecks i s) = none → InputsWritten i s →
        ∃ t, performLatched s = .next t ∧ t.status = { busy := false, err := false, errcode := 0 }) ∧
      (firstFailed (commandChecks i s) = none → ¬ InputsWritten i s → performLatched s = .fault .uninitRead))

/-! ## Commands -/

/-- R150: NOP is the word 0 alone, succeeds always, and clears a previous error indication. -/
def Obligations.NopClearsErrors : Prop :=
  (∀ w : Word, decode w = .ok .nop ↔ w = 0) ∧
  (∀ w : Word, w.toNat % 256 = 0 → w ≠ 0 → ¬ LegalWord w) ∧
  ∀ s : State, exec .nop s = .next (s.completed 0)

/-- R256, R257: DES_SETEK installs the forward schedule, DES_SETDK the backward one; the other direction stays. -/
def Obligations.DesKeySettersInstallSchedules : Prop :=
  ∀ (s : State) (c : Nat),
    (c < 16 → encode (.desSetek c) = 0x00000001 ||| (BitVec.ofNat 32 c <<< 8) ∧
      encode (.desSetdk c) = 0x00000002 ||| (BitVec.ofNat 32 c <<< 8)) ∧
    FailsAsChecked (.desSetek c) s ∧ FailsAsChecked (.desSetdk c) s ∧
    (∀ x k, s.des[c]? = some x → s.opKlen = 8 → s.opKey + 8 ≤ s.bufSize →
      s.buf.readBytes s.opKey 8 = some k →
      (∃ v : Schedule, scheduleBytes v = desKS k ∧
        exec (.desSetek c) s =
          .next { s.completed 0 with des := s.des.set c { x with ek := v, ekValid := true } }) ∧
      (∃ v : Schedule, scheduleBytes v = (desKS k).reverse ∧
        exec (.desSetdk c) s =
          .next { s.completed 0 with des := s.des.set c { x with dk := v, dkValid := true } }))

/-- R258, R259: DES_ENC and DES_DEC transform the 8 bytes at SRC by the context's schedule into the 8 bytes at DST. -/
def Obligations.DesBlockCommandsTransform : Prop :=
  ∀ (s : State) (c : Nat),
    (c < 16 → encode (.desEnc c) = 0x00000003 ||| (BitVec.ofNat 32 c <<< 8) ∧
      encode (.desDec c) = 0x00000004 ||| (BitVec.ofNat 32 c <<< 8)) ∧
    FailsAsChecked (.desEnc c) s ∧ FailsAsChecked (.desDec c) s ∧
    (∀ x X, s.des[c]? = some x → s.opSrc + 8 ≤ s.bufSize → s.opDst + 8 ≤ s.bufSize →
      s.buf.readBytes s.opSrc 8 = some X →
      (x.ekValid = true → ∃ O, desCore (scheduleBytes x.ek) X = .ok O ∧ O.length = 8 ∧
        exec (.desEnc c) s = .next { s.completed 0 with buf := s.buf.writeBytes s.opDst O }) ∧
      (x.dkValid = true → ∃ O, desCore (scheduleBytes x.dk) X = .ok O ∧ O.length = 8 ∧
        exec (.desDec c) s = .next { s.completed 0 with buf := s.buf.writeBytes s.opDst O }))

/-- R260, R290: DES_BSIZE and TDES_BSIZE give 8, keyed or not. -/
def Obligations.BlockSizeCommandsGiveEight : Prop :=
  ∀ (s : State) (c : Nat),
    (c < 16 → encode (.desBsize c) = 0x00000005 ||| (BitVec.ofNat 32 c <<< 8) ∧
      encode (.tdesBsize c) = 0x00000015 ||| (BitVec.ofNat 32 c <<< 8)) ∧
    FailsAsChecked (.desBsize c) s ∧ FailsAsChecked (.tdesBsize c) s ∧
    (c < s.des.length → exec (.desBsize c) s = .next (s.completed 8)) ∧
    (c < s.tdes.length → exec (.tdesBsize c) s = .next (s.completed 8))

/-- R286, R287 with R281: TDES_SETEK and TDES_SETDK install the mode and the three keys of one direction; the other
direction stays. -/
def Obligations.TdesKeySettersInstallKeys : Prop :=
  ∀ (s : State) (c : Nat) (m : TdesMode) (code len : Nat),
    (m, code, len) ∈ [(TdesMode.eee3, 0, 24), (.ede3, 1, 24), (.eee2, 2, 16), (.ede2, 3, 16)] →
    (c < 16 →
      encode (.tdesSetek c m) = 0x00000011 ||| (BitVec.ofNat 32 c <<< 8) ||| (BitVec.ofNat 32 code <<< 12) ∧
      encode (.tdesSetdk c m) = 0x00000012 ||| (BitVec.ofNat 32 c <<< 8) ||| (BitVec.ofNat 32 code <<< 12)) ∧
    FailsAsChecked (.tdesSetek c m) s ∧ FailsAsChecked (.tdesSetdk c m) s ∧
    (∀ x K, s.tdes[c]? = some x → s.opKlen = len → s.opKey + s.opKlen ≤ s.bufSize →
      s.buf.readBytes s.opKey s.opKlen = some K →
      ∃ k1 k2 k3 : Key8, k1.toList = K.take 8 ∧ k2.toList = (K.drop 8).take 8 ∧
        k3.toList = (if len = 24 then (K.drop 16).take 8 else K.take 8) ∧
        exec (.tdesSetek c m) s = .next { s.completed 0 with
          tdes := s.tdes.set c { x with e := { valid := true, mode := m, k1 := k1, k2 := k2, k3 := k3 } } } ∧
        exec (.tdesSetdk c m) s = .next { s.completed 0 with
          tdes := s.tdes.set c { x with d := { valid := true, mode := m, k1 := k1, k2 := k2, k3 := k3 } } })

/-- R288, R289: TDES_ENC and TDES_DEC transform the 8 bytes at SRC by the context's key set of the direction. -/
def Obligations.TdesBlockCommandsTransform : Prop :=
  ∀ (s : State) (c : Nat),
    (c < 16 → encode (.tdesEnc c) = 0x00000013 ||| (BitVec.ofNat 32 c <<< 8) ∧
      encode (.tdesDec c) = 0x00000014 ||| (BitVec.ofNat 32 c <<< 8)) ∧
    FailsAsChecked (.tdesEnc c) s ∧ FailsAsChecked (.tdesDec c) s ∧
    (∀ x X, s.tdes[c]? = some x → s.opSrc + 8 ≤ s.bufSize → s.opDst + 8 ≤ s.bufSize →
      s.buf.readBytes s.opSrc 8 = some X →
      (x.e.valid = true →
        ∃ O, tdesEncF x.e.mode x.e.k1.toList x.e.k2.toList x.e.k3.toList X = .ok O ∧ O.length = 8 ∧
          exec (.tdesEnc c) s = .next { s.completed 0 with buf := s.buf.writeBytes s.opDst O }) ∧
      (x.d.valid = true →
        ∃ O, tdesDecF x.d.mode x.d.k1.toList x.d.k2.toList x.d.k3.toList X = .ok O ∧ O.length = 8 ∧
          exec (.tdesDec c) s = .next { s.completed 0 with buf := s.buf.writeBytes s.opDst O }))

/-- R334, R335 with R330: ENC_BYTES and DEC_BYTES apply the selected block function to every block of a region whose
length is a multiple of 8. -/
def Obligations.BufferCommandsTransformBlocks : Prop :=
  ∀ (s : State) (c : Nat),
    (∀ (k : CipherKind) (sel : Nat), (k, sel) ∈ [(CipherKind.des, 0), (.tdes, 1)] →
      (c < 16 →
        encode (.encBytes k c) = 0x00000021 ||| (BitVec.ofNat 32 c <<< 8) ||| (BitVec.ofNat 32 sel <<< 12) ∧
        encode (.decBytes k c) = 0x00000022 ||| (BitVec.ofNat 32 c <<< 8) ||| (BitVec.ofNat 32 sel <<< 12)) ∧
      FailsAsChecked (.encBytes k c) s ∧ FailsAsChecked (.decBytes k c) s) ∧
    (∀ D, s.opLen % 8 = 0 → s.opSrc + s.opLen ≤ s.bufSize → s.opDst + s.opLen ≤ s.bufSize →
      s.buf.readBytes s.opSrc s.opLen = some D →
      (∀ x, s.des[c]? = some x → x.ekValid = true →
        ∃ O, ecbF (desCore (scheduleBytes x.ek)) D = .ok O ∧ O.length = s.opLen ∧
          exec (.encBytes .des c) s = .next { s.completed 0 with buf := s.buf.writeBytes s.opDst O }) ∧
      (∀ x, s.des[c]? = some x → x.dkValid = true →
        ∃ O, ecbF (desCore (scheduleBytes x.dk)) D = .ok O ∧ O.length = s.opLen ∧
          exec (.decBytes .des c) s = .next { s.completed 0 with buf := s.buf.writeBytes s.opDst O }) ∧
      (∀ x, s.tdes[c]? = some x → x.e.valid = true →
        ∃ O, ecbF (tdesEncF x.e.mode x.e.k1.toList x.e.k2.toList x.e.k3.toList) D = .ok O ∧
          O.length = s.opLen ∧
          exec (.encBytes .tdes c) s = .next { s.completed 0 with buf := s.buf.writeBytes s.opDst O }) ∧
      (∀ x, s.tdes[c]? = some x → x.d.valid = true →
        ∃ O, ecbF (tdesDecF x.d.mode x.d.k1.toList x.d.k2.toList x.d.k3.toList) D = .ok O ∧
          O.length = s.opLen ∧
          exec (.decBytes .tdes c) s = .next { s.completed 0 with buf := s.buf.writeBytes s.opDst O }))

/-- R337, R338 with R330: ENC_FILE and DEC_FILE do so for every length, the trailing partial block copied through. -/
def Obligations.FileCommandsTransformChunks : Prop :=
  ∀ (s : State) (c : Nat),
    (∀ (k : CipherKind) (sel : Nat), (k, sel) ∈ [(CipherKind.des, 0), (.tdes, 1)] →
      (c < 16 →
        encode (.encFile k c) = 0x00000023 ||| (BitVec.ofNat 32 c <<< 8) ||| (BitVec.ofNat 32 sel <<< 12) ∧
        encode (.decFile k c) = 0x00000024 ||| (BitVec.ofNat 32 c <<< 8) ||| (BitVec.ofNat 32 sel <<< 12)) ∧
      FailsAsChecked (.encFile k c) s ∧ FailsAsChecked (.decFile k c) s) ∧
    (∀ D, s.opSrc + s.opLen ≤ s.bufSize → s.opDst + s.opLen ≤ s.bufSize →
      s.buf.readBytes s.opSrc s.opLen = some D →
      (∀ x, s.des[c]? = some x → x.ekValid = true →
        ∃ O, chunkF (desCore (scheduleBytes x.ek)) D = .ok O ∧ O.length = s.opLen ∧
          exec (.encFile .des c) s = .next { s.completed 0 with buf := s.buf.writeBytes s.opDst O }) ∧
      (∀ x, s.des[c]? = some x → x.dkValid = true →
        ∃ O, chunkF (desCore (scheduleBytes x.dk)) D = .ok O ∧ O.length = s.opLen ∧
          exec (.decFile .des c) s = .next { s.completed 0 with buf := s.buf.writeBytes s.opDst O }) ∧
      (∀ x, s.tdes[c]? = some x → x.e.valid = true →
        ∃ O, chunkF (tdesEncF x.e.mode x.e.k1.toList x.e.k2.toList x.e.k3.toList) D = .ok O ∧
          O.length = s.opLen ∧
          exec (.encFile .tdes c) s = .next { s.completed 0 with buf := s.buf.writeBytes s.opDst O }) ∧
      (∀ x, s.tdes[c]? = some x → x.d.valid = true →
        ∃ O, chunkF (tdesDecF x.d.mode x.d.k1.toList x.d.k2.toList x.d.k3.toList) D = .ok O ∧
          O.length = s.opLen ∧
          exec (.decFile .tdes c) s = .next { s.completed 0 with buf := s.buf.writeBytes s.opDst O }))

/-- R315, R316: RC4_MUTATE discards the context and builds a keyed one from the key; RC4_ENCODE adds the next keystream
bytes to the LEN bytes at SRC, into DST, and advances the context. -/
def Obligations.Rc4CommandsKeyAndEncode : Prop :=
  ∀ (s : State) (c : Nat),
    (c < 16 → encode (.rc4Mutate c) = 0x00000031 ||| (BitVec.ofNat 32 c <<< 8) ∧
      encode (.rc4Encode c) = 0x00000032 ||| (BitVec.ofNat 32 c <<< 8)) ∧
    FailsAsChecked (.rc4Mutate c) s ∧ FailsAsChecked (.rc4Encode c) s ∧
    (∀ k, c < s.rc4.length → s.opKlen ≠ 0 → s.opKey + s.opKlen ≤ s.bufSize →
      s.buf.readBytes s.opKey s.opKlen = some k →
      exec (.rc4Mutate c) s = .next { s.completed 0 with
        rc4 := s.rc4.set c { valid := true, S := (rc4KSA k).S, i := (rc4KSA k).i, j := (rc4KSA k).j } }) ∧
    (∀ x D t O, s.rc4[c]? = some x → x.valid = true → s.opSrc + s.opLen ≤ s.bufSize →
      s.opDst + s.opLen ≤ s.bufSize → s.buf.readBytes s.opSrc s.opLen = some D →
      rc4Xor { S := x.S, i := x.i, j := x.j } D = (t, O) →
      O.length = s.opLen ∧
      exec (.rc4Encode c) s = .next { s.completed 0 with
        buf := s.buf.writeBytes s.opDst O
        rc4 := s.rc4.set c { valid := true, S := t.S, i := t.i, j := t.j } })

/-- R190 with R80: PERMUTE, with the table read as 16-bit big-endian entries. -/
def Obligations.PermuteCommandPermutes : Prop :=
  ∀ (s : State) (b : IndexBase) (o : BitOrder) (base order : Nat),
    (b, base) ∈ [(IndexBase.zero, 0), (.one, 1)] → (o, order) ∈ [(BitOrder.be, 0), (.le, 1)] →
    encode (.permute b o) = 0x00000041 ||| (BitVec.ofNat 32 base <<< 12) ||| (BitVec.ofNat 32 order <<< 13) ∧
    FailsAsChecked (.permute b o) s ∧
    (∀ B T, s.opSrc + s.opLen ≤ s.bufSize → s.opKey + 2 * s.opKlen ≤ s.bufSize →
      s.opDst + ceil8 s.opKlen ≤ s.bufSize → s.buf.readBytes s.opSrc s.opLen = some B →
      s.buf.readBytes s.opKey (2 * s.opKlen) = some T →
      exec (.permute b o) s = .next { s.completed (BitVec.ofNat 32 s.opKlen) with
        buf := s.buf.writeBytes s.opDst (permuteF B
          ((List.range s.opKlen).map fun e => 256 * (T.getD (2 * e) 0).toNat + (T.getD (2 * e + 1) 0).toNat)
          o b) })

/-- R191: SUBST, with RESULT the output's bit length. -/
def Obligations.SubstCommandSubstitutes : Prop :=
  ∀ (s : State) (n m ob : Nat), n = s.opAux0 → m = s.opAux1 →
    ob = (if n = 0 then 8 * s.opLen else if m = 0 then 0 else 8 * s.opLen / n * m + 8 * s.opLen % n) →
    encode .subst = 0x00000042 ∧ FailsAsChecked .subst s ∧
    (∀ B SB, n ≤ 8 → m ≤ 8 → s.opSrc + s.opLen ≤ s.bufSize → s.opKey + 256 ≤ s.bufSize →
      s.opDst + (ob + 7) / 8 ≤ s.bufSize → s.buf.readBytes s.opSrc s.opLen = some B →
      s.buf.readBytes s.opKey 256 = some SB →
      ∃ O, substF B SB n m = .ok O ∧ O.length = (ob + 7) / 8 ∧
        exec .subst s = .next { s.completed (BitVec.ofNat 32 ob) with buf := s.buf.writeBytes s.opDst O })

/-- R192, R193: ROTL and ROTR, with RESULT the window's bit length. -/
def Obligations.RotateCommandsRotateWindow : Prop :=
  ∀ (s : State) (n ob : Nat), n = s.opAux0 → ob = (if s.opLen = 0 ∨ n = 0 then 0 else n) →
    encode .rotl = 0x00000043 ∧ encode .rotr = 0x00000044 ∧ FailsAsChecked .rotl s ∧ FailsAsChecked .rotr s ∧
    (∀ B, (s.opLen = 0 ∨ n = 0 ∨ n ≤ 8 * s.opLen) → s.opSrc + s.opLen ≤ s.bufSize →
      s.opDst + (ob + 7) / 8 ≤ s.bufSize → s.buf.readBytes s.opSrc s.opLen = some B →
      (∃ O, rotLF B n s.opAux1 = .ok O ∧ O.length = (ob + 7) / 8 ∧
        exec .rotl s = .next { s.completed (BitVec.ofNat 32 ob) with buf := s.buf.writeBytes s.opDst O }) ∧
      (∃ O, rotRF B n s.opAux1 = .ok O ∧ O.length = (ob + 7) / 8 ∧
        exec .rotr s = .next { s.completed (BitVec.ofNat 32 ob) with buf := s.buf.writeBytes s.opDst O }))

/-- R194: MASK, with RESULT the input's bit length. -/
def Obligations.MaskCommandCombines : Prop :=
  ∀ (s : State) (op : MaskOp) (code : Nat), (op, code) ∈ [(MaskOp.and, 0), (.or, 1), (.xor, 2)] →
    encode (.mask op) = 0x00000045 ||| (BitVec.ofNat 32 code <<< 12) ∧
    (∀ w : Word, w.toNat % 256 = 0x45 → w.toNat / 4096 % 4 = 3 → ¬ LegalWord w) ∧
    FailsAsChecked (.mask op) s ∧
    (∀ B M, s.opAux0 ≤ 8 * s.opLen → s.opAux0 ≤ 8 * s.opKlen → s.opSrc + s.opLen ≤ s.bufSize →
      s.opKey + s.opKlen ≤ s.bufSize → s.opDst + s.opLen ≤ s.bufSize →
      s.buf.readBytes s.opSrc s.opLen = some B → s.buf.readBytes s.opKey s.opKlen = some M →
      ∃ O, maskF B M s.opAux0 op = .ok O ∧ O.length = s.opLen ∧
        exec (.mask op) s = .next { s.completed (BitVec.ofNat 32 (8 * s.opLen)) with
          buf := s.buf.writeBytes s.opDst O })

/-- R195, R196: GETBIT gives one bit in RESULT and writes no byte; SETBIT writes one bit in place. -/
def Obligations.SingleBitCommands : Prop :=
  ∀ (s : State) (v : Bool),
    encode .getbit = 0x00000046 ∧ encode (.setbit v) = (if v then 0x00001047 else 0x00000047) ∧
    FailsAsChecked .getbit s ∧ FailsAsChecked (.setbit v) s ∧
    (∀ B, s.opAux0 < 8 * s.opLen → s.opSrc + s.opLen ≤ s.bufSize → s.buf.readBytes s.opSrc s.opLen = some B →
      exec .getbit s = .next (s.completed (if bitAt B s.opAux0 then 1 else 0)) ∧
      ∃ O, setBitF B s.opAux0 v = .ok O ∧ O.length = s.opLen ∧
        exec (.setbit v) s = .next { s.completed 0 with buf := s.buf.writeBytes s.opSrc O })

/-- R197, R198: GETBITS extracts an inclusive range into DST; SWAPBITS exchanges two bits in place. -/
def Obligations.BitRangeAndSwapCommands : Prop :=
  ∀ (s : State) (i j ob : Nat), i = s.opAux0 → j = s.opAux1 → ob = (if j < i then 0 else j - i + 1) →
    encode .getbits = 0x00000048 ∧ encode .swapbits = 0x00000049 ∧
    FailsAsChecked .getbits s ∧ FailsAsChecked .swapbits s ∧
    (∀ B, s.opSrc + s.opLen ≤ s.bufSize → s.buf.readBytes s.opSrc s.opLen = some B →
      ((j < i ∨ j < 8 * s.opLen) → s.opDst + (ob + 7) / 8 ≤ s.bufSize →
        ∃ O, getBitsF B i j = .ok O ∧ O.length = (ob + 7) / 8 ∧
          exec .getbits s = .next { s.completed (BitVec.ofNat 32 ob) with buf := s.buf.writeBytes s.opDst O }) ∧
      ((i = j ∨ s.opLen = 0 ∨ (i < 8 * s.opLen ∧ j < 8 * s.opLen)) →
        ∃ O, swapBitsF B i j = .ok O ∧ O.length = s.opLen ∧
          exec .swapbits s = .next { s.completed 0 with buf := s.buf.writeBytes s.opSrc O }))

/-! ## Bit primitives -/

/-- R170: every output bit of PermuteF, for both orders and bases, storage bits and the empty table included. -/
def Obligations.PermuteOutputBits : Prop :=
  ∀ (B : Bytes) (T : List Nat) (o : BitOrder) (b : IndexBase),
    (permuteF B T o b).length = (T.length + 7) / 8 ∧
    (∀ i, T.length ≤ i → bitAt (permuteF B T o b) i = false) ∧
    ∀ (i t : Nat), T[i]? = some t →
      ∀ src : Int, src = (t : Int) - (match b with | .zero => 0 | .one => 1) →
        (src < 0 ∨ (8 * B.length : Int) ≤ src → bitAt (permuteF B T o b) i = false) ∧
        (0 ≤ src → src < (8 * B.length : Int) → bitAt (permuteF B T o b) i =
          match o with
          | .be => bitAt B src.toNat
          | .le => bitAt B (8 * B.length - 1 - src.toNat))

/-- R171: SubstF: the error, the special cases in order, every bit of every group, and the trailing bits. -/
def Obligations.SubstOutputBits : Prop :=
  ∀ (B SB : Bytes) (n m : Nat), SB.length = 256 →
    (8 < n ∨ 8 < m → substF B SB n m = .error .sboxSize) ∧
    (n = 0 → m ≤ 8 → substF B SB n m = .ok B) ∧
    (n ≠ 0 → n ≤ 8 → m = 0 → substF B SB n m = .ok []) ∧
    (n ≠ 0 → n ≤ 8 → m ≠ 0 → m ≤ 8 → ∀ g r, g = 8 * B.length / n → r = 8 * B.length % n →
      ∃ O, substF B SB n m = .ok O ∧ O.length = (g * m + r + 7) / 8 ∧
        (∀ q t, q < g → t < m → bitAt O (q * m + t) =
          ((SB.getD (bitsInt (((unpack B).drop (q * n)).take n)) 0).toNat).testBit (m - 1 - t)) ∧
        (∀ t, t < r → bitAt O (g * m + t) = bitAt B (g * n + t)) ∧
        (∀ k, g * m + r ≤ k → bitAt O k = false))

/-- R172: RotLF and RotRF: the empty cases, the error, and every bit of the rotated window. -/
def Obligations.RotateOutputBits : Prop :=
  ∀ (B : Bytes) (n k : Nat),
    (B = [] ∨ n = 0 → rotLF B n k = .ok [] ∧ rotRF B n k = .ok []) ∧
    (B ≠ [] → n ≠ 0 → 8 * B.length < n → rotLF B n k = .error .bitRange ∧ rotRF B n k = .error .bitRange) ∧
    (B ≠ [] → n ≠ 0 → n ≤ 8 * B.length →
      ∃ L R, rotLF B n k = .ok L ∧ rotRF B n k = .ok R ∧ L.length = (n + 7) / 8 ∧ R.length = (n + 7) / 8 ∧
        (∀ t, t < n → bitAt L t = bitAt B ((t + k % n) % n) ∧ bitAt R t = bitAt B ((t + n - k % n) % n)) ∧
        (∀ t, n ≤ t → bitAt L t = false ∧ bitAt R t = false))

/-- R173: MaskF: the error, the combined bits, and the bits left as they are. -/
def Obligations.MaskOutputBits : Prop :=
  ∀ (B M : Bytes) (mb : Nat) (op : MaskOp),
    (8 * B.length < mb ∨ 8 * M.length < mb → maskF B M mb op = .error .maskRange) ∧
    (mb ≤ 8 * B.length → mb ≤ 8 * M.length →
      ∃ O, maskF B M mb op = .ok O ∧ O.length = B.length ∧
        (∀ k, k < mb → bitAt O k = match op with
          | .and => bitAt B k && bitAt M k
          | .or => bitAt B k || bitAt M k
          | .xor => (bitAt B k).xor (bitAt M k)) ∧
        (∀ k, mb ≤ k → bitAt O k = bitAt B k))

/-- R174, R175, R176: GetBitF, SetBitF, GetBitsF and SwapBitsF, bit by bit, with their errors. -/
def Obligations.BitAccessFunctions : Prop :=
  ∀ (B : Bytes),
    (∀ k v, (8 * B.length ≤ k → getBitF B k = .error .bitRange ∧ setBitF B k v = .error .bitRange) ∧
      (k < 8 * B.length → getBitF B k = .ok (bitAt B k) ∧
        ∃ O, setBitF B k v = .ok O ∧ O.length = B.length ∧ bitAt O k = v ∧
          ∀ p, p ≠ k → bitAt O p = bitAt B p)) ∧
    (∀ i j, (j < i → getBitsF B i j = .ok []) ∧
      (i ≤ j → 8 * B.length ≤ j → getBitsF B i j = .error .bitRange) ∧
      (i ≤ j → j < 8 * B.length → ∃ O, getBitsF B i j = .ok O ∧ O.length = (j - i + 1 + 7) / 8 ∧
        (∀ t, t ≤ j - i → bitAt O t = bitAt B (i + t)) ∧ (∀ t, j - i < t → bitAt O t = false))) ∧
    (∀ i j, (i = j ∨ B = [] → swapBitsF B i j = .ok B) ∧
      (i ≠ j → B ≠ [] → 8 * B.length ≤ i ∨ 8 * B.length ≤ j → swapBitsF B i j = .error .bitRange) ∧
      (i ≠ j → B ≠ [] → i < 8 * B.length → j < 8 * B.length →
        ∃ O, swapBitsF B i j = .ok O ∧ O.length = B.length ∧ bitAt O i = bitAt B j ∧ bitAt O j = bitAt B i ∧
          ∀ p, p ≠ i → p ≠ j → bitAt O p = bitAt B p))

/-- R177: the laws of the functions, (a) to (e). -/
def Obligations.BitPrimitiveLaws : Prop :=
  (∀ B, permuteF B (List.range (8 * B.length)) .be .zero = B) ∧
  (∀ B k, k < 8 * B.length →
    bitAt (permuteF B (List.range (8 * B.length)).reverse .be .zero) k = bitAt B (8 * B.length - 1 - k) ∧
    bitAt (permuteF B (List.range (8 * B.length)) .le .zero) k = bitAt B (8 * B.length - 1 - k)) ∧
  (∀ B n k, k < n → n ≤ 8 * B.length →
    ∃ R, rotRF B n k = .ok R ∧ rotLF R n k = .ok (pack ((unpack B).take n)) ∧
      (n = 8 * B.length → rotLF R n k = .ok B)) ∧
  (∀ B n, n ≤ 8 → substF B ((List.range 256).map (BitVec.ofNat 8)) n n = .ok B)

/-! ## The Feistel engine and DES -/

/-- R226: the rounds of the engine: the odd length, the wrong-sized half block, and the output, right then left, of the
recurrence of the halves. -/
def Obligations.FeistelRoundsFollowRule : Prop :=
  ∀ (rounds : Nat) (F : Bytes → Bytes → Bytes) (sched : List Bytes) (X : Bytes) (L R : Nat → Bytes),
    rounds ≤ sched.length → L 0 = X.take (X.length / 2) → R 0 = X.drop (X.length / 2) →
    (∀ r, r < rounds → L (r + 1) = R r ∧ R (r + 1) = xorBytes (L r) (F (R r) (sched.getD r []))) →
    (X.length % 2 = 1 → feistelF rounds F sched X = .error .lengthAlign) ∧
    (X.length % 2 = 0 → (∀ r, r < rounds → (F (R r) (sched.getD r [])).length = X.length / 2) →
      feistelF rounds F sched X = .ok (R rounds ++ L rounds)) ∧
    (X.length % 2 = 0 → (∃ r, r < rounds ∧ (F (R r) (sched.getD r [])).length ≠ X.length / 2) →
      feistelF rounds F sched X = .error .fatalInvariant)

/-- R227: the same loop inverts itself under the reversed schedule, for every round function that keeps lengths (R221). -/
def Obligations.FeistelInvertsWithReversedSchedule : Prop :=
  ∀ (rounds : Nat) (F : Bytes → Bytes → Bytes) (sched : List Bytes) (X : Bytes),
    (∀ half k, (F half k).length = half.length) → sched.length = rounds → X.length % 2 = 0 →
    ∃ Y, feistelF rounds F sched X = .ok Y ∧ Y.length = X.length ∧ feistelF rounds F sched.reverse Y = .ok X

/-- R241 (its inverse law): FP inverts IP and IP inverts FP on every 8-byte block. -/
def Obligations.FinalPermutationInvertsInitial : Prop :=
  (∀ i, i < 64 → tableIP.getD (tableFP.getD i 0 - 1) 0 = i + 1) ∧
  (∀ X : Bytes, X.length = 8 →
    permuteF (permuteF X tableIP .be .one) tableFP .be .one = X ∧
    permuteF (permuteF X tableFP .be .one) tableIP .be .one = X)

/-- R250 with R251: round key r comes from the halves rotated by the cumulative amount of rounds 0 to r. -/
def Obligations.RoundKeysRotateCumulatively : Prop :=
  ∀ (key : Bytes) (cd : Bits) (rot : Bits → Nat → Bits), key.length = 8 →
    cd = unpack (permuteF key tablePC1 .be .one) → (∀ w n, rot w n = w.drop (n % 28) ++ w.take (n % 28)) →
    desKS key = (List.range 16).map (fun r =>
      permuteF (pack (rot (cd.take 28) ((shifts.take (r + 1)).sum) ++
        rot (cd.drop 28) ((shifts.take (r + 1)).sum))) tablePC2 .be .one) ∧
    ∀ k ∈ desKS key, k.length = 6

/-- R252: the round function: expansion, exclusive or, one box for each 6-bit group, the permutation P; R240 to R245 and
R248: the tables of the block transform, the round function and the key expansion, as the spec writes them out; R247:
the dense form of every S-box, as the spec writes it out. -/
def Obligations.RoundFunctionFollowsRule : Prop :=
  (∀ (R K : Bytes) (x : Bits), R.length = 4 → K.length = 6 →
    x = unpack (xorBytes (permuteF R tableE .be .one) K) →
    desF R K = permuteF (pack ((List.range 8).flatMap fun g =>
      bitsOf 4 (denseEntry (sboxes.getD g []) (bitsInt ((x.drop (6 * g)).take 6))))) tableP .be .one ∧
    (desF R K).length = 4) ∧
  tableIP =
    [58, 50, 42, 34, 26, 18, 10, 2,
     60, 52, 44, 36, 28, 20, 12, 4,
     62, 54, 46, 38, 30, 22, 14, 6,
     64, 56, 48, 40, 32, 24, 16, 8,
     57, 49, 41, 33, 25, 17, 9, 1,
     59, 51, 43, 35, 27, 19, 11, 3,
     61, 53, 45, 37, 29, 21, 13, 5,
     63, 55, 47, 39, 31, 23, 15, 7] ∧
  tableFP =
    [40, 8, 48, 16, 56, 24, 64, 32,
     39, 7, 47, 15, 55, 23, 63, 31,
     38, 6, 46, 14, 54, 22, 62, 30,
     37, 5, 45, 13, 53, 21, 61, 29,
     36, 4, 44, 12, 52, 20, 60, 28,
     35, 3, 43, 11, 51, 19, 59, 27,
     34, 2, 42, 10, 50, 18, 58, 26,
     33, 1, 41, 9, 49, 17, 57, 25] ∧
  tableE =
    [32, 1, 2, 3, 4, 5,
     4, 5, 6, 7, 8, 9,
     8, 9, 10, 11, 12, 13,
     12, 13, 14, 15, 16, 17,
     16, 17, 18, 19, 20, 21,
     20, 21, 22, 23, 24, 25,
     24, 25, 26, 27, 28, 29,
     28, 29, 30, 31, 32, 1] ∧
  tableP =
    [16, 7, 20, 21, 29, 12, 28, 17,
     1, 15, 23, 26, 5, 18, 31, 10,
     2, 8, 24, 14, 32, 27, 3, 9,
     19, 13, 30, 6, 22, 11, 4, 25] ∧
  tablePC1 =
    [57, 49, 41, 33, 25, 17, 9,
     1, 58, 50, 42, 34, 26, 18,
     10, 2, 59, 51, 43, 35, 27,
     19, 11, 3, 60, 52, 44, 36,
     63, 55, 47, 39, 31, 23, 15,
     7, 62, 54, 46, 38, 30, 22,
     14, 6, 61, 53, 45, 37, 29,
     21, 13, 5, 28, 20, 12, 4] ∧
  tablePC2 =
    [14, 17, 11, 24, 1, 5,
     3, 28, 15, 6, 21, 10,
     23, 19, 12, 4, 26, 8,
     16, 7, 27, 20, 13, 2,
     41, 52, 31, 37, 47, 55,
     30, 40, 51, 45, 33, 48,
     44, 49, 39, 56, 34, 53,
     46, 42, 50, 36, 29, 32] ∧
  shifts = [1, 1, 2, 2, 2, 2, 2, 2, 1, 2, 2, 2, 2, 2, 2, 1] ∧
  sboxes.map (fun box => (List.range 64).map (denseEntry box)) =
    [
      [14, 0, 4, 15, 13, 7, 1, 4, 2, 14, 15, 2, 11, 13, 8, 1, 3, 10, 10, 6, 6, 12,
       12, 11, 5, 9, 9, 5, 0, 3, 7, 8, 4, 15, 1, 12, 14, 8, 8, 2, 13, 4, 6, 9,
       2, 1, 11, 7, 15, 5, 12, 11, 9, 3, 7, 14, 3, 10, 10, 0, 5, 6, 0, 13],
      [15, 3, 1, 13, 8, 4, 14, 7, 6, 15, 11, 2, 3, 8, 4, 14, 9, 12, 7, 0, 2, 1,
       13, 10, 12, 6, 0, 9, 5, 11, 10, 5, 0, 13, 14, 8, 7, 10, 11, 1, 10, 3, 4, 15,
       13, 4, 1, 2, 5, 11, 8, 6, 12, 7, 6, 12, 9, 0, 3, 5, 2, 14, 15, 9],
      [10, 13, 0, 7, 9, 0, 14, 9, 6, 3, 3, 4, 15, 6, 5, 10, 1, 2, 13, 8, 12, 5,
       7, 14, 11, 12, 4, 11, 2, 15, 8, 1, 13, 1, 6, 10, 4, 13, 9, 0, 8, 6, 15, 9,
       3, 8, 0, 7, 11, 4, 1, 15, 2, 14, 12, 3, 5, 11, 10, 5, 14, 2, 7, 12],
      [7, 13, 13, 8, 14, 11, 3, 5, 0, 6, 6, 15, 9, 0, 10, 3, 1, 4, 2, 7, 8, 2,
       5, 12, 11, 1, 12, 10, 4, 14, 15, 9, 10, 3, 6, 15, 9, 0, 0, 6, 12, 10, 11, 1,
       7, 13, 13, 8, 15, 9, 1, 4, 3, 5, 14, 11, 5, 12, 2, 7, 8, 2, 4, 14],
      [2, 14, 12, 11, 4, 2, 1, 12, 7, 4, 10, 7, 11, 13, 6, 1, 8, 5, 5, 0, 3, 15,
       15, 10, 13, 3, 0, 9, 14, 8, 9, 6, 4, 11, 2, 8, 1, 12, 11, 7, 10, 1, 13, 14,
       7, 2, 8, 13, 15, 6, 9, 15, 12, 0, 5, 9, 6, 10, 3, 4, 0, 5, 14, 3],
      [12, 10, 1, 15, 10, 4, 15, 2, 9, 7, 2, 12, 6, 9, 8, 5, 0, 6, 13, 1, 3, 13,
       4, 14, 14, 0, 7, 11, 5, 3, 11, 8, 9, 4, 14, 3, 15, 2, 5, 12, 2, 9, 8, 5,
       12, 15, 3, 10, 7, 11, 0, 14, 4, 1, 10, 7, 1, 6, 13, 0, 11, 8, 6, 13],
      [4, 13, 11, 0, 2, 11, 14, 7, 15, 4, 0, 9, 8, 1, 13, 10, 3, 14, 12, 3, 9, 5,
       7, 12, 5, 2, 10, 15, 6, 8, 1, 6, 1, 6, 4, 11, 11, 13, 13, 8, 12, 1, 3, 4,
       7, 10, 14, 7, 10, 9, 15, 5, 6, 0, 8, 15, 0, 14, 5, 2, 9, 3, 2, 12],
      [13, 1, 2, 15, 8, 13, 4, 8, 6, 10, 15, 3, 11, 7, 1, 4, 10, 12, 9, 5, 3, 6,
       14, 11, 5, 0, 0, 14, 12, 9, 7, 2, 7, 2, 11, 1, 4, 14, 1, 7, 9, 4, 12, 10,
       14, 8, 2, 13, 0, 15, 6, 12, 10, 9, 13, 0, 15, 3, 3, 5, 5, 6, 8, 11]]

/-- R253: the block transform of a 16-entry schedule: IP, the 16 rounds of the recurrence of the halves under the round
function, the halves swapped, FP. -/
def Obligations.DesCoreFollowsRule : Prop :=
  ∀ (sched : List Bytes) (X : Bytes) (L R : Nat → Bytes), sched.length = 16 → X.length = 8 →
    L 0 = (permuteF X tableIP .be .one).take 4 → R 0 = (permuteF X tableIP .be .one).drop 4 →
    (∀ r, r < 16 → L (r + 1) = R r ∧ R (r + 1) = xorBytes (L r) (desF (R r) (sched.getD r []))) →
    desCore sched X = .ok (permuteF (R 16 ++ L 16) tableFP .be .one)

/-- R255: every 8-byte key is accepted by both setters of the engine, and the eight parity bits do not matter. -/
def Obligations.ParityBitsIgnored : Prop :=
  ∀ k l : Bytes, k.length = 8 → l.length = 8 →
    engineSetEnc desEngine k = .ok (desKS k) ∧ engineSetDec desEngine k = .ok (desKS k).reverse ∧
    ((∀ p, p < 64 → p % 8 ≠ 7 → bitAt k p = bitAt l p) → desKS k = desKS l)

/-- R254: DES decryption inverts encryption, for every key and block. -/
def Obligations.DesDecryptInvertsEncrypt : Prop :=
  ∀ k X : Bytes, X.length = 8 → ∃ Y, desEnc k X = .ok Y ∧ Y.length = 8 ∧ desDec k Y = .ok X

/-! ## Triple-DES, RC4, adapter -/

/-- R282, R283: the three stages of each direction, in order, for every mode. -/
def Obligations.TdesStagesInOrder : Prop :=
  ∀ (m : TdesMode) (k1 k2 k3 X : Bytes),
    (∃ a b c, desEnc k1 X = .ok a ∧
      (match m with | .eee3 => desEnc k2 a | .eee2 => desEnc k2 a | .ede3 => desDec k2 a | .ede2 => desDec k2 a)
        = .ok b ∧
      desEnc k3 b = .ok c ∧ tdesEncF m k1 k2 k3 X = .ok c) ∧
    (∃ a b c, desDec k3 X = .ok a ∧
      (match m with | .eee3 => desDec k2 a | .eee2 => desDec k2 a | .ede3 => desEnc k2 a | .ede2 => desEnc k2 a)
        = .ok b ∧
      desDec k1 b = .ok c ∧ tdesDecF m k1 k2 k3 X = .ok c)

/-- R284, R285: Triple-DES decryption inverts encryption in every mode, and the EDE family with three equal keys is
single DES. -/
def Obligations.TdesDecryptInvertsEncrypt : Prop :=
  (∀ (m : TdesMode) (k1 k2 k3 X : Bytes), X.length = 8 →
    ∃ Y, tdesEncF m k1 k2 k3 X = .ok Y ∧ Y.length = 8 ∧ tdesDecF m k1 k2 k3 Y = .ok X) ∧
  (∀ (m : TdesMode) (k X : Bytes), m = .ede3 ∨ m = .ede2 → X.length = 8 →
    tdesEncF m k k k X = desEnc k X ∧ tdesDecF m k k k X = desDec k X)

/-- R310: key scheduling follows the rule position by position, leaves both cursors 0 and S a permutation of 0..255. -/
def Obligations.Rc4KeySchedulingFollowsRule : Prop :=
  ∀ (key : Bytes) (S : Nat → Vector Byte 256) (a : Nat → Byte), key ≠ [] →
    (∀ p : Byte, sAt (S 0) p = p) → a 0 = 0 →
    (∀ p, p < 256 → a (p + 1) = a p + sAt (S p) (BitVec.ofNat 8 p) + key.getD (p % key.length) 0) →
    (∀ p, p < 256 → ∀ q : Byte, sAt (S (p + 1)) q =
      if q = BitVec.ofNat 8 p then sAt (S p) (a (p + 1))
      else if q = a (p + 1) then sAt (S p) (BitVec.ofNat 8 p) else sAt (S p) q) →
    (rc4KSA key).S = S 256 ∧ (rc4KSA key).i = 0 ∧ (rc4KSA key).j = 0 ∧
    (rc4KSA key).S.toList.Perm ((List.range 256).map (BitVec.ofNat 8))

/-- R311, R312: one PRGA step, and the output of n steps: byte t is XORed with the keystream byte of step t. -/
def Obligations.Rc4KeystreamFollowsRule : Prop :=
  (∀ (t u : Rc4St) (z : Byte), rc4Step t = (u, z) →
    u.i = t.i + 1 ∧ u.j = t.j + sAt t.S u.i ∧
    (∀ q : Byte, sAt u.S q = if q = u.i then sAt t.S u.j else if q = u.j then sAt t.S u.i else sAt t.S q) ∧
    z = sAt u.S (sAt u.S u.i + sAt u.S u.j)) ∧
  (∀ (t : Rc4St) (D : Bytes),
    (rc4Xor t D).1 = (fun x => (rc4Step x).1)^[D.length] t ∧ (rc4Xor t D).2.length = D.length ∧
    ∀ n, n < D.length → (rc4Xor t D).2.getD n 0 =
      D.getD n 0 ^^^ (rc4Step ((fun x => (rc4Step x).1)^[n] t)).2)

/-- R313 (a), (b), (d): continuation, involution from a fresh state, and the first cursor. -/
def Obligations.Rc4KeystreamLaws : Prop :=
  (∀ (t : Rc4St) (C D : Bytes),
    rc4Xor t (C ++ D) = ((rc4Xor (rc4Xor t C).1 D).1, (rc4Xor t C).2 ++ (rc4Xor (rc4Xor t C).1 D).2)) ∧
  (∀ k D : Bytes, (rc4Xor (rc4KSA k) (rc4Xor (rc4KSA k) D).2).2 = D) ∧
  (∀ k D : Bytes, (rc4Xor (rc4KSA k) D).1.i.toNat = D.length % 256)

/-- R331, R332: the whole-buffer and the chunked form, block by block, with the length error of the first. -/
def Obligations.AdapterWorksBlockByBlock : Prop :=
  ∀ (f : Bytes → Except ErrCode Bytes) (g : Bytes → Bytes) (D : Bytes), (∀ X, f X = .ok (g X)) →
    (D.length % 8 ≠ 0 → ecbF f D = .error .lengthAlign) ∧
    (D.length % 8 = 0 →
      ecbF f D = .ok ((List.range (D.length / 8)).flatMap fun t => g ((D.drop (8 * t)).take 8))) ∧
    chunkF f D = .ok (((List.range (D.length / 8)).flatMap fun t => g ((D.drop (8 * t)).take 8)) ++
      D.drop (8 * (D.length / 8)))

/-- R333 (a), (c), (d) with R284: both forms of the adapter restore the input under a Triple-DES key set of any mode, and
a buffer may be split after a whole number of blocks. -/
def Obligations.AdapterRoundTripAndSplitting : Prop :=
  (∀ (t : TdesKeys) (D : Bytes),
    (∃ O, chunkF (tdesEncWith t) D = .ok O ∧ O.length = D.length ∧ chunkF (tdesDecWith t) O = .ok D) ∧
    (D.length % 8 = 0 →
      ∃ O, ecbF (tdesEncWith t) D = .ok O ∧ O.length = D.length ∧ ecbF (tdesDecWith t) O = .ok D)) ∧
  (∀ (k D : Bytes),
    ∃ O, chunkF (desEnc k) D = .ok O ∧ O.length = D.length ∧ chunkF (desDec k) O = .ok D) ∧
  (∀ (f : Bytes → Except ErrCode Bytes) (C D O P : Bytes), C.length % 8 = 0 → ecbF f C = .ok O →
    chunkF f D = .ok P → chunkF f (C ++ D) = .ok (O ++ P))
end

