-- ==== Sys2Proof/Laws/Bits.lean ====
section
/-! SUPPORT. Laws/Bits.lean: bit strings and byte sequences: what each bit of `pack`, `unpack` and `bitsOf` is, and
that `pack` and `unpack` undo each other (R16 to R18). -/
namespace Sys2Proof.Machine

/-! ## Numbers of bit strings -/

@[simp] theorem bitsInt_nil : bitsInt [] = 0 := rfl

theorem bitsInt_concat (s : Bits) (b : Bool) : bitsInt (s ++ [b]) = 2 * bitsInt s + b.toNat := by
  simp [bitsInt]

theorem bitsInt_testBit (s : Bits) (i : Nat) :
    (bitsInt s).testBit i = if i < s.length then s.getD (s.length - 1 - i) false else false := by
  induction s using List.reverseRecOn generalizing i with
  | nil => simp
  | append_singleton s b ih =>
    rw [bitsInt_concat]
    cases i with
    | zero =>
      cases b <;> simp [Nat.testBit_zero, Nat.add_mod]
    | succ i =>
      rw [Nat.testBit_succ, show (2 * bitsInt s + b.toNat) / 2 = bitsInt s by have := b.toNat_lt; omega, ih]
      by_cases h : i < s.length
      · have h1 : s.length + 1 - 1 - (i + 1) < s.length := by omega
        simp only [h, List.length_append, List.length_singleton, if_true,
          show i + 1 < s.length + 1 by omega]
        rw [List.getD_append _ _ _ _ h1]
        congr 1
        omega
      · simp [h]

theorem bitsInt_lt (s : Bits) : bitsInt s < 2 ^ s.length := by
  induction s using List.reverseRecOn with
  | nil => simp
  | append_singleton s b ih =>
    rw [bitsInt_concat, List.length_append, List.length_singleton, pow_succ]
    cases b <;> simp <;> omega

@[simp] theorem bitsOf_length (m v : Nat) : (bitsOf m v).length = m := by simp [bitsOf]

theorem bitsOf_getD (m v t : Nat) (h : t < m) : (bitsOf m v).getD t false = v.testBit (m - 1 - t) := by
  simp [bitsOf, h]

/-- `int(bits_m(v)) = v mod 2^m` (R18). -/
theorem bitsInt_bitsOf (m v : Nat) : bitsInt (bitsOf m v) = v % 2 ^ m := by
  apply Nat.eq_of_testBit_eq
  intro i
  rw [bitsInt_testBit, Nat.testBit_mod_two_pow, bitsOf_length]
  by_cases h : i < m
  · rw [if_pos h, bitsOf_getD _ _ _ (by omega), show m - 1 - (m - 1 - i) = i by omega]
    simp [h]
  · simp [h]

/-- `bits_m(int(s)) = s` for a bit string of m bits (R18). -/
theorem bitsOf_bitsInt (s : Bits) : bitsOf s.length (bitsInt s) = s := by
  apply List.ext_getElem (by simp)
  intro t h1 h2
  have h : t < s.length := h2
  have := bitsOf_getD s.length (bitsInt s) t h
  rw [bitsInt_testBit, if_pos (by omega), show s.length - 1 - (s.length - 1 - t) = t by omega] at this
  simpa [List.getD_eq_getElem?_getD, h1, h2] using this

/-! ## Bytes -/

/-- The bits of a packed byte. -/
theorem packByte_getLsbD (s : Bits) (hs : s.length ≤ 8) (t : Nat) (ht : t < 8) :
    (packByte s).getLsbD (7 - t) = s.getD t false := by
  unfold packByte
  rw [BitVec.getLsbD_ofNat, bitsInt_testBit]
  have hl : (s ++ List.replicate (8 - s.length) false).length = 8 := by simp; omega
  rw [hl]
  simp only [show 7 - t < 8 by omega, decide_true, Bool.true_and, if_true,
    show 8 - 1 - (7 - t) = t by omega]
  by_cases h : t < s.length
  · rw [List.getD_append _ _ _ _ h]
  · rw [List.getD_append_right _ _ _ _ (by omega)]
    simp [List.getD_eq_getElem?_getD, List.getElem?_replicate, h]
    split <;> rfl

@[simp] theorem byteBits_length (b : Byte) : (byteBits b).length = 8 := by simp [byteBits]

theorem byteBits_getD (b : Byte) (t : Nat) (h : t < 8) : (byteBits b).getD t false = b.getLsbD (7 - t) := by
  simp [byteBits, h]

@[simp] theorem unpack_nil : unpack [] = [] := rfl
@[simp] theorem unpack_cons (b : Byte) (B : Bytes) : unpack (b :: B) = byteBits b ++ unpack B := by
  simp [unpack]

@[simp] theorem unpack_length (B : Bytes) : (unpack B).length = nbits B := by
  induction B with
  | nil => rfl
  | cons b B ih => simp [ih, nbits]; omega

theorem unpack_append (A B : Bytes) : unpack (A ++ B) = unpack A ++ unpack B := by
  simp [unpack]

/-- Bit k of a byte sequence is bit k of its bit string (R17). -/
theorem unpack_getD (B : Bytes) (k : Nat) : (unpack B).getD k false = bitAt B k := by
  induction B generalizing k with
  | nil => simp [bitAt]
  | cons b B ih =>
    rw [unpack_cons]
    by_cases h : k < 8
    · rw [List.getD_append _ _ _ _ (by simpa using h), byteBits_getD _ _ h]
      simp [bitAt, Nat.div_eq_of_lt h, Nat.mod_eq_of_lt h]
    · rw [List.getD_append_right _ _ _ _ (by simp; omega), byteBits_length, ih]
      have h1 : k / 8 = (k - 8) / 8 + 1 := by omega
      have h2 : k % 8 = (k - 8) % 8 := by omega
      simp [bitAt, h1, h2]

/-- A bit beyond the sequence is 0. -/
theorem bitAt_of_le (B : Bytes) (k : Nat) (h : nbits B ≤ k) : bitAt B k = false := by
  rw [← unpack_getD, List.getD_eq_getElem?_getD, List.getElem?_eq_none (by simpa using h)]
  rfl

@[simp] theorem packBytes_length (n : Nat) (s : Bits) : (packBytes n s).length = n := by
  induction n generalizing s with
  | zero => rfl
  | succ n ih => simp [packBytes, ih]

@[simp] theorem pack_length (s : Bits) : (pack s).length = ceil8 s.length := by simp [pack]

theorem bitAt_packBytes (n : Nat) (s : Bits) (k : Nat) (h : s.length ≤ 8 * n) :
    bitAt (packBytes n s) k = s.getD k false := by
  induction n generalizing s k with
  | zero =>
    obtain rfl : s = [] := List.length_eq_zero_iff.1 (by omega)
    simp [packBytes, bitAt]
  | succ n ih =>
    by_cases hk : k < 8
    · have := packByte_getLsbD (s.take 8) (by simp) k hk
      simp only [packBytes, bitAt, Nat.div_eq_of_lt hk, Nat.mod_eq_of_lt hk, List.getD_cons_zero, this]
      simp [List.getD_eq_getElem?_getD, hk]
    · have h1 : k / 8 = (k - 8) / 8 + 1 := by omega
      have h2 : k % 8 = (k - 8) % 8 := by omega
      have := ih (s.drop 8) (k - 8) (by simp; omega)
      simp only [bitAt] at this
      simp only [packBytes, bitAt, h1, h2, List.getD_cons_succ, this]
      simp [List.getD_eq_getElem?_getD, show 8 + (k - 8) = k by omega]

/-- Every bit of a packed bit string: `s_k`, and 0 in the storage bits (R17). -/
theorem bitAt_pack (s : Bits) (k : Nat) : bitAt (pack s) k = s.getD k false :=
  bitAt_packBytes _ _ _ (by unfold ceil8; omega)

/-- Two byte sequences of the same length with the same bits are equal. -/
theorem bytes_ext {A B : Bytes} (hl : A.length = B.length) (hb : ∀ k < nbits A, bitAt A k = bitAt B k) :
    A = B := by
  apply List.ext_getElem hl
  intro n h1 h2
  apply BitVec.eq_of_getLsbD_eq
  intro i hi
  have := hb (8 * n + (7 - i)) (by unfold nbits; omega)
  simp only [bitAt] at this
  rw [show (8 * n + (7 - i)) / 8 = n by omega, show 7 - (8 * n + (7 - i)) % 8 = i by omega] at this
  simpa [List.getD_eq_getElem?_getD, h1, h2] using this

/-- `pack` undoes `unpack`. -/
@[simp] theorem pack_unpack (B : Bytes) : pack (unpack B) = B := by
  apply bytes_ext
  · simp [ceil8, nbits]; omega
  · intro k _
    rw [bitAt_pack, unpack_getD]

/-- `unpack` undoes `pack` on the meaningful bits. -/
theorem unpack_pack_take (s : Bits) : (unpack (pack s)).take s.length = s := by
  apply List.ext_getElem
  · simp [nbits, ceil8]; omega
  · intro n h1 h2
    have h3 : n < (unpack (pack s)).length := by simp at h1 ⊢; omega
    have := (unpack_getD (pack s) n).trans (bitAt_pack s n)
    rw [List.getD_eq_getElem?_getD, List.getD_eq_getElem?_getD, List.getElem?_eq_getElem h3,
      List.getElem?_eq_getElem h2] at this
    simpa using this

/-- `unpack` undoes `pack` on a whole number of bytes. -/
theorem unpack_pack (s : Bits) (h : s.length % 8 = 0) : unpack (pack s) = s := by
  conv_rhs => rw [← unpack_pack_take s]
  rw [List.take_of_length_le]
  simp [nbits, ceil8]; omega

/-! ## Exclusive or and vectors -/

@[simp] theorem xorBytes_length (A B : Bytes) : (xorBytes A B).length = min A.length B.length := by
  simp [xorBytes]

/-- Exclusive or with the same sequence twice gives the first back. -/
theorem xorBytes_cancel (A B : Bytes) (h : A.length ≤ B.length) : xorBytes (xorBytes A B) B = A := by
  induction A generalizing B with
  | nil => simp [xorBytes]
  | cons a A ih =>
    cases B with
    | nil => simp at h
    | cons b B =>
      have := ih B (by simpa using h)
      simp only [xorBytes, List.zipWith_cons_cons] at this ⊢
      rw [this, BitVec.xor_assoc, BitVec.xor_self, BitVec.xor_zero]

/-- A list of the right length is kept as it is. -/
theorem vecOfList_toList {α : Type} {n : Nat} (d : α) (l : List α) (h : l.length = n) :
    (vecOfList n d l).toList = l := by
  subst h
  simp [vecOfList]

end Sys2Proof.Machine
end

