-- ==== Sys2Proof/Laws/State.lean ====
section
/-! SUPPORT. Laws/State.lean: what each state update leaves in each field. -/
namespace Sys2Proof.Machine

section ParamsWf
variable {p : Params}
/-- The legal ranges of the parameters (R13). -/
theorem Params.wf_iff : p.wf = true ↔ 8 ≤ p.bufLog2 ∧ p.bufLog2 ≤ 16 ∧ 1 ≤ p.nDes ∧ p.nDes ≤ 16 ∧
    1 ≤ p.nTdes ∧ p.nTdes ≤ 16 ∧ 1 ≤ p.nRc4 ∧ p.nRc4 ≤ 16 ∧ p.coreBase % Config.coreSpan = 0 := by
  unfold Params.wf
  constructor
  · intro h
    have h1 := h
    simp only [Bool.and_eq_true] at h1
    have a := of_decide_eq_true h1.1.1.1.1
    have b := of_decide_eq_true h1.1.1.1.2
    have c := of_decide_eq_true h1.1.1.2
    have d := of_decide_eq_true h1.1.2
    have e := of_decide_eq_true h1.2
    exact ⟨a.1, a.2, b.1, b.2, c.1, c.2, d.1, d.2, e⟩
  · rintro ⟨a, b, c, d, e, f, g, h, i⟩
    simp [a, b, c, d, e, f, g, h, i]
end ParamsWf

section Emptied
variable (l : Latch)
@[simp] theorem Latch.emptied_valid : l.emptied.valid = false := rfl
@[simp] theorem Latch.emptied_word : l.emptied.word = l.word := rfl
@[simp] theorem Latch.emptied_ops : l.emptied.ops = l.ops := rfl
end Emptied

section Fail
variable (s : State) (e : ErrCode)
@[simp] theorem State.fail_bufLog2 : (s.fail e).bufLog2 = s.bufLog2 := rfl
@[simp] theorem State.fail_coreBase : (s.fail e).coreBase = s.coreBase := rfl
@[simp] theorem State.fail_status : (s.fail e).status = statusErr e := rfl
@[simp] theorem State.fail_result : (s.fail e).result = s.result := rfl
@[simp] theorem State.fail_regs : (s.fail e).regs = s.regs := rfl
@[simp] theorem State.fail_latch : (s.fail e).latch = s.latch.emptied := rfl
@[simp] theorem State.fail_des : (s.fail e).des = s.des := rfl
@[simp] theorem State.fail_tdes : (s.fail e).tdes = s.tdes := rfl
@[simp] theorem State.fail_rc4 : (s.fail e).rc4 = s.rc4 := rfl
@[simp] theorem State.fail_buf : (s.fail e).buf = s.buf := rfl
@[simp] theorem State.fail_freeReads : (s.fail e).freeReads = s.freeReads := rfl
@[simp] theorem State.fail_host : (s.fail e).host = s.host := rfl
@[simp] theorem State.fail_schedule : (s.fail e).schedule = s.schedule := rfl
end Fail

section PutCtx
variable (s : State) (u : CtxUpdate)
@[simp] theorem State.putCtx_unchanged : s.putCtx .unchanged = s := rfl
@[simp] theorem State.putCtx_bufLog2 : (s.putCtx u).bufLog2 = s.bufLog2 := by cases u <;> rfl
@[simp] theorem State.putCtx_coreBase : (s.putCtx u).coreBase = s.coreBase := by cases u <;> rfl
@[simp] theorem State.putCtx_status : (s.putCtx u).status = s.status := by cases u <;> rfl
@[simp] theorem State.putCtx_result : (s.putCtx u).result = s.result := by cases u <;> rfl
@[simp] theorem State.putCtx_regs : (s.putCtx u).regs = s.regs := by cases u <;> rfl
@[simp] theorem State.putCtx_latch : (s.putCtx u).latch = s.latch := by cases u <;> rfl
@[simp] theorem State.putCtx_buf : (s.putCtx u).buf = s.buf := by cases u <;> rfl
@[simp] theorem State.putCtx_freeReads : (s.putCtx u).freeReads = s.freeReads := by cases u <;> rfl
@[simp] theorem State.putCtx_host : (s.putCtx u).host = s.host := by cases u <;> rfl
@[simp] theorem State.putCtx_schedule : (s.putCtx u).schedule = s.schedule := by cases u <;> rfl
@[simp] theorem State.putCtx_des_length : (s.putCtx u).des.length = s.des.length := by
  cases u <;> simp [State.putCtx]
@[simp] theorem State.putCtx_tdes_length : (s.putCtx u).tdes.length = s.tdes.length := by
  cases u <;> simp [State.putCtx]
@[simp] theorem State.putCtx_rc4_length : (s.putCtx u).rc4.length = s.rc4.length := by
  cases u <;> simp [State.putCtx]
end PutCtx

section Succeed
variable (s : State) (r : Word) (ws : List (Nat × Bytes)) (u : CtxUpdate)
@[simp] theorem State.succeed_bufLog2 : (s.succeed r ws u).bufLog2 = s.bufLog2 := s.putCtx_bufLog2 u
@[simp] theorem State.succeed_coreBase : (s.succeed r ws u).coreBase = s.coreBase := s.putCtx_coreBase u
@[simp] theorem State.succeed_status : (s.succeed r ws u).status = statusOk := rfl
@[simp] theorem State.succeed_result : (s.succeed r ws u).result = r := rfl
@[simp] theorem State.succeed_regs : (s.succeed r ws u).regs = s.regs := s.putCtx_regs u
@[simp] theorem State.succeed_latch : (s.succeed r ws u).latch = s.latch.emptied := rfl
@[simp] theorem State.succeed_des : (s.succeed r ws u).des = (s.putCtx u).des := rfl
@[simp] theorem State.succeed_tdes : (s.succeed r ws u).tdes = (s.putCtx u).tdes := rfl
@[simp] theorem State.succeed_rc4 : (s.succeed r ws u).rc4 = (s.putCtx u).rc4 := rfl
@[simp] theorem State.succeed_buf : (s.succeed r ws u).buf = s.buf.writeAll ws := rfl
@[simp] theorem State.succeed_freeReads : (s.succeed r ws u).freeReads = s.freeReads := s.putCtx_freeReads u
@[simp] theorem State.succeed_host : (s.succeed r ws u).host = s.host := s.putCtx_host u
@[simp] theorem State.succeed_schedule : (s.succeed r ws u).schedule = s.schedule := s.putCtx_schedule u
end Succeed

section Issue
variable (s : State) (w : Word)
@[simp] theorem State.issue_bufLog2 : (s.issue w).bufLog2 = s.bufLog2 := rfl
@[simp] theorem State.issue_coreBase : (s.issue w).coreBase = s.coreBase := rfl
@[simp] theorem State.issue_status : (s.issue w).status = { s.status with busy := true } := rfl
@[simp] theorem State.issue_result : (s.issue w).result = s.result := rfl
@[simp] theorem State.issue_regs : (s.issue w).regs = s.regs := rfl
@[simp] theorem State.issue_latch : (s.issue w).latch = { valid := true, word := w, ops := s.regs } := rfl
@[simp] theorem State.issue_des : (s.issue w).des = s.des := rfl
@[simp] theorem State.issue_tdes : (s.issue w).tdes = s.tdes := rfl
@[simp] theorem State.issue_rc4 : (s.issue w).rc4 = s.rc4 := rfl
@[simp] theorem State.issue_buf : (s.issue w).buf = s.buf := rfl
@[simp] theorem State.issue_freeReads : (s.issue w).freeReads = s.freeReads := rfl
@[simp] theorem State.issue_host : (s.issue w).host = s.host := rfl
@[simp] theorem State.issue_schedule : (s.issue w).schedule = s.schedule := rfl
end Issue

section WriteReg
variable (s : State) (off : Nat) (v : Word)
/-- A register write changes the operand registers and nothing else. -/
theorem State.writeReg_eq : s.writeReg off v = { s with regs := (s.writeReg off v).regs } := by
  unfold State.writeReg
  repeat' split
  all_goals rfl
@[simp] theorem State.writeReg_bufLog2 : (s.writeReg off v).bufLog2 = s.bufLog2 := by rw [State.writeReg_eq]
@[simp] theorem State.writeReg_coreBase : (s.writeReg off v).coreBase = s.coreBase := by rw [State.writeReg_eq]
@[simp] theorem State.writeReg_status : (s.writeReg off v).status = s.status := by rw [State.writeReg_eq]
@[simp] theorem State.writeReg_result : (s.writeReg off v).result = s.result := by rw [State.writeReg_eq]
@[simp] theorem State.writeReg_latch : (s.writeReg off v).latch = s.latch := by rw [State.writeReg_eq]
@[simp] theorem State.writeReg_des : (s.writeReg off v).des = s.des := by rw [State.writeReg_eq]
@[simp] theorem State.writeReg_tdes : (s.writeReg off v).tdes = s.tdes := by rw [State.writeReg_eq]
@[simp] theorem State.writeReg_rc4 : (s.writeReg off v).rc4 = s.rc4 := by rw [State.writeReg_eq]
@[simp] theorem State.writeReg_buf : (s.writeReg off v).buf = s.buf := by rw [State.writeReg_eq]
@[simp] theorem State.writeReg_freeReads : (s.writeReg off v).freeReads = s.freeReads := by rw [State.writeReg_eq]
@[simp] theorem State.writeReg_host : (s.writeReg off v).host = s.host := by rw [State.writeReg_eq]
@[simp] theorem State.writeReg_schedule : (s.writeReg off v).schedule = s.schedule := by rw [State.writeReg_eq]
end WriteReg

section AdvanceHost
variable (s : State)
@[simp] theorem State.advanceHost_bufLog2 : s.advanceHost.bufLog2 = s.bufLog2 := rfl
@[simp] theorem State.advanceHost_coreBase : s.advanceHost.coreBase = s.coreBase := rfl
@[simp] theorem State.advanceHost_status : s.advanceHost.status = s.status := rfl
@[simp] theorem State.advanceHost_result : s.advanceHost.result = s.result := rfl
@[simp] theorem State.advanceHost_regs : s.advanceHost.regs = s.regs := rfl
@[simp] theorem State.advanceHost_latch : s.advanceHost.latch = s.latch := rfl
@[simp] theorem State.advanceHost_des : s.advanceHost.des = s.des := rfl
@[simp] theorem State.advanceHost_tdes : s.advanceHost.tdes = s.tdes := rfl
@[simp] theorem State.advanceHost_rc4 : s.advanceHost.rc4 = s.rc4 := rfl
@[simp] theorem State.advanceHost_buf : s.advanceHost.buf = s.buf := rfl
@[simp] theorem State.advanceHost_freeReads : s.advanceHost.freeReads = s.freeReads := rfl
@[simp] theorem State.advanceHost_schedule : s.advanceHost.schedule = s.schedule := rfl
@[simp] theorem State.advanceHost_host :
    s.advanceHost.host = { s.host with pc := s.host.pc + 1 } := rfl
end AdvanceHost

section Reset
variable (s : State) (p : Params)
@[simp] theorem State.resetWith_params : (State.resetWith p).params = p := by
  cases p; simp [State.resetWith, State.params]
@[simp] theorem State.resetCore_params : s.resetCore.params = s.params := by
  simp [State.resetCore, State.params, State.resetWith]
@[simp] theorem State.resetCore_status : s.resetCore.status = Status.zero := rfl
@[simp] theorem State.resetCore_result : s.resetCore.result = 0 := rfl
@[simp] theorem State.resetCore_regs : s.resetCore.regs = OpRegs.zero := rfl
@[simp] theorem State.resetCore_latch : s.resetCore.latch = Latch.empty := rfl
@[simp] theorem State.resetCore_buf : s.resetCore.buf = [] := rfl
@[simp] theorem State.resetCore_des : s.resetCore.des = List.replicate s.des.length DesCtx.unkeyed := rfl
@[simp] theorem State.resetCore_tdes : s.resetCore.tdes = List.replicate s.tdes.length TdesCtx.unkeyed := rfl
@[simp] theorem State.resetCore_rc4 : s.resetCore.rc4 = List.replicate s.rc4.length Rc4Ctx.unkeyed := rfl
@[simp] theorem State.resetCore_freeReads : s.resetCore.freeReads = s.freeReads := rfl
@[simp] theorem State.resetCore_host : s.resetCore.host = s.host := rfl
@[simp] theorem State.resetCore_schedule : s.resetCore.schedule = s.schedule := rfl
end Reset

section WithFetchWord
variable (s : State) (n w : Nat)
@[simp] theorem State.withFetchWord_schedule : (s.withFetchWord n w).schedule = [] := rfl
@[simp] theorem State.withFetchWord_latch : (s.withFetchWord n w).latch =
    { valid := true, word := BitVec.ofNat 32 (w % 2 ^ n), ops := s.regs } := rfl
@[simp] theorem State.withFetchWord_status :
    (s.withFetchWord n w).status = { s.status with busy := true } := rfl
@[simp] theorem State.withFetchWord_buf : (s.withFetchWord n w).buf = s.buf := rfl
end WithFetchWord

end Sys2Proof.Machine
end

