-- ==== Sys2Proof/Laws/Ops.lean ====
section
/-! SUPPORT. Laws/Ops.lean: BUF reads and writes (a read after a write, the canonical form), and everything the
perform step can do with what Exec answers. -/
namespace Sys2Proof.Machine

/-! ## Cells -/

@[simp] theorem cellsAt_length (a : Nat) (B : Bytes) : (cellsAt a B).length = B.length := by
  induction B generalizing a with
  | nil => rfl
  | cons b B ih => simp [cellsAt, ih]

theorem mem_cellsAt_bounds {x : Host.Cell} {a : Nat} {B : Bytes} (h : x ∈ cellsAt a B) :
    a ≤ x.1 ∧ x.1 < a + B.length := by
  induction B generalizing a with
  | nil => simp [cellsAt] at h
  | cons b B ih =>
    rcases List.mem_cons.1 h with rfl | h
    · simp
    · have := ih h
      simp only [List.length_cons]
      omega

theorem cellsAt_pairwise (a : Nat) (B : Bytes) : ((cellsAt a B).map Prod.fst).Pairwise (· < ·) := by
  induction B generalizing a with
  | nil => simp [cellsAt]
  | cons b B ih =>
    simp only [cellsAt, List.map_cons, List.pairwise_cons]
    refine ⟨?_, ih (a + 1)⟩
    intro y hy
    obtain ⟨x, hx, rfl⟩ := List.mem_map.1 hy
    have := mem_cellsAt_bounds hx
    omega

theorem cellsAt_lookup_out (a p : Nat) (B : Bytes) (h : p < a ∨ a + B.length ≤ p) :
    (cellsAt a B).lookup p = none := by
  induction B generalizing a with
  | nil => rfl
  | cons b B ih =>
    simp only [List.length_cons] at h
    have hne : (p == a) = false := by simp; omega
    simp only [cellsAt, List.lookup_cons, hne]
    exact ih (a + 1) (by omega)

theorem cellsAt_lookup_in (a t : Nat) (B : Bytes) (h : t < B.length) :
    (cellsAt a B).lookup (a + t) = some (B[t]) := by
  induction B generalizing a t with
  | nil => simp at h
  | cons b B ih =>
    cases t with
    | zero => simp [cellsAt]
    | succ t =>
      have hne : (a + (t + 1) == a) = false := by simp
      simp only [cellsAt, List.lookup_cons, hne]
      have := ih (a + 1) t (by simpa using h)
      rw [show a + (t + 1) = a + 1 + t by omega]
      simpa using this

theorem lookup_append_of_none {α : Type} (l r : List (Nat × α)) (p : Nat) (h : l.lookup p = none) :
    (l ++ r).lookup p = r.lookup p := by
  rw [List.lookup_append, h]; rfl

theorem lookup_filter_of_true {α : Type} (l : List (Nat × α)) (q : Nat → Bool) (p : Nat) (h : q p = true) :
    (l.filter fun x => q x.1).lookup p = l.lookup p := by
  induction l with
  | nil => rfl
  | cons x l ih =>
    obtain ⟨k, v⟩ := x
    by_cases hk : p = k
    · subst hk; simp [h]
    · have hne : (p == k) = false := by simpa using hk
      by_cases hq : q k = true
      · simp [hq, List.lookup_cons, hne, ih]
      · simp [hq, List.lookup_cons, hne, ih]

theorem lookup_filter_of_false {α : Type} (l : List (Nat × α)) (q : Nat → Bool) (p : Nat) (h : q p = false) :
    (l.filter fun x => q x.1).lookup p = none := by
  induction l with
  | nil => rfl
  | cons x l ih =>
    obtain ⟨k, v⟩ := x
    by_cases hk : p = k
    · subst hk; simp [h, ih]
    · have hne : (p == k) = false := by simpa using hk
      by_cases hq : q k = true
      · simp [hq, List.lookup_cons, hne, ih]
      · simp [hq, ih]

/-! ## Reading and writing BUF -/

/-- A write leaves every byte outside its region alone. -/
theorem Memory.read_writeBytes_out (m : Memory) (a p : Nat) (B : Bytes) (h : p < a ∨ a + B.length ≤ p) :
    (m.writeBytes a B).read p = m.read p := by
  unfold Memory.writeBytes Memory.read
  rcases h with h | h
  · rw [List.append_assoc, List.lookup_append,
      lookup_filter_of_true m (fun k => decide (k < a)) p (by simpa using h)]
    rw [lookup_append_of_none _ _ _ (cellsAt_lookup_out a p B (Or.inl h)),
      lookup_filter_of_false m (fun k => decide (a + B.length ≤ k)) p (by simp; omega)]
    cases List.lookup p m <;> rfl
  · rw [List.append_assoc, lookup_append_of_none _ _ _
        (lookup_filter_of_false m (fun k => decide (k < a)) p (by simp; omega)),
      lookup_append_of_none _ _ _ (cellsAt_lookup_out a p B (Or.inr h)),
      lookup_filter_of_true m (fun k => decide (a + B.length ≤ k)) p (by simpa using h)]

/-- A read after a write gives the byte written. -/
theorem Memory.read_writeBytes_in (m : Memory) (a t : Nat) (B : Bytes) (h : t < B.length) :
    (m.writeBytes a B).read (a + t) = some (B[t]) := by
  unfold Memory.writeBytes Memory.read
  rw [List.append_assoc, lookup_append_of_none _ _ _
      (lookup_filter_of_false m (fun k => decide (k < a)) (a + t) (by simp)),
    List.lookup_append, cellsAt_lookup_in a t B h]
  rfl

@[simp] theorem Memory.readBytes_zero (m : Memory) (a : Nat) : m.readBytes a 0 = some [] := by
  simp [Memory.readBytes]

theorem Memory.readBytes_succ (m : Memory) (a n : Nat) :
    m.readBytes a (n + 1) =
      match m.read a, m.readBytes (a + 1) n with
      | some b, some B => some (b :: B)
      | _, _ => none := rfl

/-- Everything a successful region read says: the length, and each byte. -/
theorem Memory.readBytes_eq_some {m : Memory} {a n : Nat} {B : Bytes} :
    m.readBytes a n = some B ↔ B.length = n ∧ ∀ t, (h : t < B.length) → m.read (a + t) = some (B[t]) := by
  induction n generalizing a B with
  | zero =>
    constructor
    · intro h
      obtain rfl : [] = B := by simpa using h
      simp
    · rintro ⟨h, -⟩
      obtain rfl := List.length_eq_zero_iff.1 h
      simp
  | succ n ih =>
    rw [Memory.readBytes_succ]
    constructor
    · intro h
      split at h
      · rename_i b C hb hC
        obtain rfl : b :: C = B := by simpa using h
        obtain ⟨hl, hr⟩ := ih.1 hC
        refine ⟨by simp [hl], ?_⟩
        intro t ht
        cases t with
        | zero => simpa using hb
        | succ t =>
          have := hr t (by simpa using ht)
          rw [show a + (t + 1) = a + 1 + t by omega]
          simpa using this
      · simp at h
    · rintro ⟨hl, hr⟩
      cases B with
      | nil => simp at hl
      | cons b C =>
        have h0 : m.read a = some b := hr 0 (Nat.succ_pos _)
        have h1 : m.readBytes (a + 1) n = some C := by
          refine ih.2 ⟨by simpa using hl, ?_⟩
          intro t ht
          have := hr (t + 1) (by simpa using ht)
          rw [show a + 1 + t = a + (t + 1) by omega]
          simpa using this
        rw [h0, h1]

theorem Memory.readBytes_length {m : Memory} {a n : Nat} {B : Bytes} (h : m.readBytes a n = some B) :
    B.length = n := (Memory.readBytes_eq_some.1 h).1

/-- A region reads exactly when every byte of it was written (R71). -/
theorem Memory.readBytes_isSome {m : Memory} {a n : Nat} :
    (∃ B, m.readBytes a n = some B) ↔ ∀ p, a ≤ p → p < a + n → (m.read p).isSome = true := by
  induction n generalizing a with
  | zero =>
    simp only [Memory.readBytes_zero, Nat.add_zero]
    exact ⟨fun _ p h1 h2 => by omega, fun _ => ⟨[], rfl⟩⟩
  | succ n ih =>
    rw [Memory.readBytes_succ]
    constructor
    · rintro ⟨B, h⟩ p h1 h2
      split at h
      · rename_i b C hb hC
        rcases Nat.lt_or_ge a p with h3 | h3
        · exact ih.1 ⟨C, hC⟩ p h3 (by omega)
        · obtain rfl : p = a := by omega
          simp [hb]
      · simp at h
    · intro h
      obtain ⟨C, hC⟩ := (ih (a := a + 1)).2 fun p h1 h2 => h p (by omega) (by omega)
      obtain ⟨b, hb⟩ := Option.isSome_iff_exists.1 (h a (Nat.le_refl a) (by omega))
      exact ⟨b :: C, by rw [hb, hC]⟩

/-- Reading the region just written gives the bytes written. -/
theorem Memory.readBytes_writeBytes (m : Memory) (a : Nat) (B : Bytes) :
    (m.writeBytes a B).readBytes a B.length = some B :=
  Memory.readBytes_eq_some.2 ⟨rfl, fun t h => Memory.read_writeBytes_in m a t B h⟩

/-! ## The canonical form -/

theorem Memory.wf_nil : Memory.wf [] := by simp [Memory.wf]

theorem State.reset_buf_wf : Memory.wf State.reset.buf := Memory.wf_nil

theorem mem_fst_filter {m : Memory} {q : Host.Cell → Bool} {k : Nat} (h : k ∈ (m.filter q).map Prod.fst) :
    ∃ x ∈ m, q x = true ∧ x.1 = k := by
  obtain ⟨x, hx, rfl⟩ := List.mem_map.1 h
  exact ⟨x, (List.mem_filter.1 hx).1, (List.mem_filter.1 hx).2, rfl⟩

theorem Memory.wf_filter {m : Memory} (q : Host.Cell → Bool) (h : Memory.wf m) : Memory.wf (m.filter q) :=
  List.Pairwise.sublist (List.Sublist.map _ List.filter_sublist) h

/-- A write keeps the canonical form. -/
theorem Memory.wf_writeBytes {m : Memory} (a : Nat) (B : Bytes) (h : Memory.wf m) :
    Memory.wf (m.writeBytes a B) := by
  unfold Memory.writeBytes Memory.wf
  rw [List.map_append, List.map_append, List.pairwise_append, List.pairwise_append]
  refine ⟨⟨Memory.wf_filter _ h, cellsAt_pairwise a B, ?_⟩, Memory.wf_filter _ h, ?_⟩
  · intro x hx y hy
    obtain ⟨u, -, hq, rfl⟩ := mem_fst_filter hx
    obtain ⟨v, hv, rfl⟩ := List.mem_map.1 hy
    have := mem_cellsAt_bounds hv
    simp at hq
    omega
  · intro x hx y hy
    obtain ⟨v, -, hq, rfl⟩ := mem_fst_filter hy
    simp at hq
    rcases List.mem_append.1 hx with hx | hx
    · obtain ⟨u, -, hp, rfl⟩ := mem_fst_filter hx
      simp at hp
      omega
    · obtain ⟨u, hu, rfl⟩ := List.mem_map.1 hx
      have := mem_cellsAt_bounds hu
      omega

/-- A write lists only addresses listed before or inside its region. -/
theorem Memory.mem_writeBytes {m : Memory} {a : Nat} {B : Bytes} {x : Host.Cell} (h : x ∈ m.writeBytes a B) :
    x ∈ m ∨ (a ≤ x.1 ∧ x.1 < a + B.length) := by
  unfold Memory.writeBytes at h
  rcases List.mem_append.1 h with h | h
  · rcases List.mem_append.1 h with h | h
    · exact .inl (List.mem_filter.1 h).1
    · exact .inr (mem_cellsAt_bounds h)
  · exact .inl (List.mem_filter.1 h).1

@[simp] theorem Memory.writeAll_nil (m : Memory) : m.writeAll [] = m := rfl
@[simp] theorem Memory.writeAll_cons (m : Memory) (w : Nat × Bytes) (ws : List (Nat × Bytes)) :
    m.writeAll (w :: ws) = (m.writeBytes w.1 w.2).writeAll ws := rfl

/-- The writes of a command keep the canonical form. -/
theorem Memory.wf_writeAll {m : Memory} (ws : List (Nat × Bytes)) (h : Memory.wf m) :
    Memory.wf (m.writeAll ws) := by
  induction ws generalizing m with
  | nil => simpa using h
  | cons w ws ih => exact ih (Memory.wf_writeBytes w.1 w.2 h)

/-! ## The perform step -/

/-- Everything the perform step does with what Exec answers (R142, R146, R147). -/
theorem finish_next {s t : State} {o : CmdOut} (h : finish s o = .next t) :
    (∃ e, o = .err e ∧ t = s.fail e) ∨ (∃ r ws u, o = .ok r ws u ∧ t = s.succeed r ws u) := by
  cases o with
  | err e => exact .inl ⟨e, rfl, by simpa [finish] using h.symm⟩
  | ok r ws u => exact .inr ⟨r, ws, u, rfl, by simpa [finish] using h.symm⟩
  | uninit => simp [finish] at h

/-- A command stops for one reason only: it reads a byte that was not written (R71). -/
theorem finish_fault {s : State} {o : CmdOut} {f : Fault} (h : finish s o = .fault f) :
    o = .uninit ∧ f = .uninitRead := by
  cases o <;> simp_all [finish]

/-- A command is never refused. -/
theorem finish_not_refused (s : State) (o : CmdOut) (r : Refusal) : finish s o ≠ .refused r := by
  cases o <;> simp [finish]

end Sys2Proof.Machine
end

