-- ==== Sys2Proof/Laws/Operands.lean ====
section
/-! SUPPORT. Laws/Operands.lean: everything each check and each read of a command can do (R143). -/
namespace Sys2Proof.Machine

section Require
variable {p : Prop} [Decidable p] {e : ErrCode} {k : CmdOut}

theorem require_pos (h : p) : require p e k = k := by simp [require, h]
theorem require_neg (h : ¬p) : require p e k = .err e := by simp [require, h]

/-- A check goes on where its condition holds and fails with its error where not. -/
theorem require_eq_ok {r : Word} {ws : List (Nat × Bytes)} {u : CtxUpdate} :
    require p e k = .ok r ws u ↔ p ∧ k = .ok r ws u := by
  by_cases h : p <;> simp [require, h]

theorem require_eq_err {e' : ErrCode} :
    require p e k = .err e' ↔ (¬p ∧ e = e') ∨ (p ∧ k = .err e') := by
  by_cases h : p <;> simp [require, h]

theorem require_eq_uninit : require p e k = .uninit ↔ p ∧ k = .uninit := by
  by_cases h : p <;> simp [require, h]
end Require

section WithCtx
variable {α : Type} {l : List α} {c : Nat} {k : α → CmdOut}

theorem withCtx_some {x : α} (h : l[c]? = some x) : withCtx l c k = k x := by simp [withCtx, h]
theorem withCtx_none (h : l.length ≤ c) : withCtx l c k = .err .badCtx := by
  simp [withCtx, List.getElem?_eq_none h]

/-- The context check goes on with the context, and fails with BAD_CTX where there is none (R145). -/
theorem withCtx_eq_ok {r : Word} {ws : List (Nat × Bytes)} {u : CtxUpdate} :
    withCtx l c k = .ok r ws u ↔ ∃ x, l[c]? = some x ∧ k x = .ok r ws u := by
  cases h : l[c]? <;> simp [withCtx, h]

theorem withCtx_eq_err {e : ErrCode} :
    withCtx l c k = .err e ↔ (l.length ≤ c ∧ e = .badCtx) ∨ ∃ x, l[c]? = some x ∧ k x = .err e := by
  cases h : l[c]? with
  | none =>
    have := List.getElem?_eq_none_iff.1 h
    simp [withCtx, this, eq_comm]
  | some x =>
    have : ¬ l.length ≤ c := by
      intro hc
      rw [List.getElem?_eq_none hc] at h
      simp at h
    simp [withCtx, h, this]

theorem withCtx_eq_uninit :
    withCtx l c k = .uninit ↔ ∃ x, l[c]? = some x ∧ k x = .uninit := by
  cases h : l[c]? <;> simp [withCtx, h]
end WithCtx

section RequireRegions
variable {s : State} {rs : List (Nat × Nat)} {k : CmdOut}

theorem regions_valid_iff : rs.all s.regionValid = true ↔ ∀ r ∈ rs, r.1 + r.2 ≤ s.bufSize := by
  simp [State.regionValid]

theorem requireRegions_pos (h : ∀ r ∈ rs, r.1 + r.2 ≤ s.bufSize) : requireRegions s rs k = k :=
  require_pos (regions_valid_iff.2 h)

theorem requireRegions_neg (h : ¬ ∀ r ∈ rs, r.1 + r.2 ≤ s.bufSize) : requireRegions s rs k = .err .addrRange :=
  require_neg fun hv => h (regions_valid_iff.1 hv)

/-- The region check goes on where every region is inside BUF (R75). -/
theorem requireRegions_eq_ok {r : Word} {ws : List (Nat × Bytes)} {u : CtxUpdate} :
    requireRegions s rs k = .ok r ws u ↔ (∀ r ∈ rs, r.1 + r.2 ≤ s.bufSize) ∧ k = .ok r ws u := by
  rw [requireRegions, require_eq_ok, regions_valid_iff]
end RequireRegions

section WithBytes
variable {s : State} {a n : Nat} {k : Bytes → CmdOut}

theorem withBytes_some {B : Bytes} (h : s.buf.readBytes a n = some B) : withBytes s a n k = k B := by
  simp [withBytes, h]
theorem withBytes_none (h : s.buf.readBytes a n = none) : withBytes s a n k = .uninit := by
  simp [withBytes, h]

/-- A region read goes on with the bytes, and stops where one was not written (R71). -/
theorem withBytes_eq_ok {r : Word} {ws : List (Nat × Bytes)} {u : CtxUpdate} :
    withBytes s a n k = .ok r ws u ↔ ∃ B, s.buf.readBytes a n = some B ∧ k B = .ok r ws u := by
  cases h : s.buf.readBytes a n <;> simp [withBytes, h]

theorem withBytes_eq_err {e : ErrCode} :
    withBytes s a n k = .err e ↔ ∃ B, s.buf.readBytes a n = some B ∧ k B = .err e := by
  cases h : s.buf.readBytes a n <;> simp [withBytes, h]
end WithBytes

section WithValue
variable {α : Type} {v : Except ErrCode α} {k : α → CmdOut}

theorem withValue_of_ok {x : α} (h : v = .ok x) : withValue v k = k x := by simp [withValue, h]

/-- The computation goes on with its value; an error it raises is the command's. -/
theorem withValue_eq_ok {r : Word} {ws : List (Nat × Bytes)} {u : CtxUpdate} :
    withValue v k = .ok r ws u ↔ ∃ x, v = .ok x ∧ k x = .ok r ws u := by
  cases v <;> simp [withValue]

theorem withValue_eq_err {e : ErrCode} :
    withValue v k = .err e ↔ v = .error e ∨ ∃ x, v = .ok x ∧ k x = .err e := by
  cases v <;> simp [withValue]
end WithValue

@[simp] theorem tableEntries_length (n : Nat) (B : Bytes) : (tableEntries n B).length = n := by
  induction n generalizing B with
  | zero => rfl
  | succ n ih => simp [tableEntries, ih]

/-- Entry e of a table is the 16-bit big-endian value of its two bytes (R80). -/
theorem tableEntries_getD (n : Nat) (B : Bytes) (e : Nat) (h : e < n) :
    (tableEntries n B).getD e 0 = 256 * (B.getD (2 * e) 0).toNat + (B.getD (2 * e + 1) 0).toNat := by
  induction n generalizing B e with
  | zero => omega
  | succ n ih =>
    cases e with
    | zero => simp [tableEntries]
    | succ e =>
      have := ih (B.drop 2) e (by omega)
      simp only [tableEntries, List.getD_cons_succ, this]
      simp only [List.getD_eq_getElem?_getD, List.getElem?_drop]
      rw [show 2 + 2 * e = 2 * (e + 1) by omega, show 2 + (2 * e + 1) = 2 * (e + 1) + 1 by omega]

end Sys2Proof.Machine
end

