-- ==== Sys2Proof/Laws/BitPrims.lean ====
section
/-! SUPPORT. Laws/BitPrims.lean: when the bit primitives answer a value and how long it is (R170 to R176), and
everything a command that succeeds says (R190 to R198). -/
namespace Sys2Proof.Machine

/-! ## Functions -/

@[simp] theorem permuteF_length (B : Bytes) (T : List Nat) (o : BitOrder) (b : IndexBase) :
    (permuteF B T o b).length = ceil8 T.length := by simp [permuteF]

theorem ceil8_mul_eight (n : Nat) : ceil8 (8 * n) = n := by unfold ceil8; omega

theorem substGroups_length (SB : Bytes) (n m g : Nat) (s : Bits) (h : g * n ≤ s.length) :
    (substGroups SB n m g s).length = g * m + (s.length - g * n) := by
  induction g generalizing s with
  | zero => simp [substGroups]
  | succ g ih =>
    have h' : g * n + n ≤ s.length := by rwa [Nat.add_mul, Nat.one_mul] at h
    have := ih (s.drop n) (by simp; omega)
    simp only [substGroups, List.length_append, bitsOf_length, this, List.length_drop, Nat.add_mul, Nat.one_mul]
    omega

/-- SubstF answers a value for widths up to 8, of the bit length of R191. -/
theorem substF_ok (B SB : Bytes) (n m : Nat) (hn : n ≤ 8) (hm : m ≤ 8) :
    ∃ O, substF B SB n m = .ok O ∧ O.length = ceil8 (substBits B.length n m) := by
  unfold substF substBits
  rw [if_neg (by omega)]
  by_cases h0 : n = 0
  · exact ⟨B, by simp [h0], by simp [h0, ceil8_mul_eight]⟩
  by_cases h1 : m = 0
  · exact ⟨[], by simp [h0, h1], by simp [h0, h1, ceil8]⟩
  refine ⟨_, by rw [if_neg h0, if_neg h1], ?_⟩
  have hd : nbits B / n * n ≤ (unpack B).length := by simpa using Nat.div_mul_le_self (nbits B) n
  rw [pack_length, substGroups_length _ _ _ _ _ hd, unpack_length, if_neg h0, if_neg h1]
  congr 1
  have := Nat.div_add_mod (nbits B) n
  have h2 : nbits B / n * n = n * (nbits B / n) := Nat.mul_comm _ _
  unfold nbits at *
  omega

@[simp] theorem rotateBitsLeft_length (w : Bits) (k : Nat) : (rotateBitsLeft w k).length = w.length := by
  simp [rotateBitsLeft]
@[simp] theorem rotateBitsRight_length (w : Bits) (k : Nat) : (rotateBitsRight w k).length = w.length := by
  simp [rotateBitsRight]

/-- A rotation answers a value for a window inside the input, of the bit length of R192. -/
theorem rotLF_ok (B : Bytes) (n k : Nat) (h : B.length = 0 ∨ n = 0 ∨ n ≤ nbits B) :
    ∃ O, rotLF B n k = .ok O ∧ O.length = ceil8 (rotBits B.length n) := by
  unfold rotLF rotBits
  by_cases h0 : B.length = 0 ∨ n = 0
  · exact ⟨[], by rw [if_pos h0], by rw [if_pos h0]; rfl⟩
  · have hn : n ≤ nbits B := by tauto
    refine ⟨_, by rw [if_neg h0, if_neg (by omega)], ?_⟩
    rw [if_neg h0]
    simp [hn]

theorem rotRF_ok (B : Bytes) (n k : Nat) (h : B.length = 0 ∨ n = 0 ∨ n ≤ nbits B) :
    ∃ O, rotRF B n k = .ok O ∧ O.length = ceil8 (rotBits B.length n) := by
  unfold rotRF rotBits
  by_cases h0 : B.length = 0 ∨ n = 0
  · exact ⟨[], by rw [if_pos h0], by rw [if_pos h0]; rfl⟩
  · have hn : n ≤ nbits B := by tauto
    refine ⟨_, by rw [if_neg h0, if_neg (by omega)], ?_⟩
    rw [if_neg h0]
    simp [hn]

theorem maskF_ok (B M : Bytes) (mb : Nat) (op : MaskOp) (h1 : mb ≤ nbits B) (h2 : mb ≤ nbits M) :
    ∃ O, maskF B M mb op = .ok O ∧ O.length = B.length := by
  unfold maskF
  refine ⟨_, by rw [if_neg (by omega)], ?_⟩
  simp [nbits, ceil8_mul_eight]

theorem getBitF_ok (B : Bytes) (k : Nat) (h : k < nbits B) : getBitF B k = .ok (bitAt B k) := by
  simp [getBitF, Nat.not_le.2 h]

theorem setBitF_ok (B : Bytes) (k : Nat) (v : Bool) (h : k < nbits B) :
    ∃ O, setBitF B k v = .ok O ∧ O.length = B.length := by
  unfold setBitF
  refine ⟨_, by rw [if_neg (by omega)], ?_⟩
  simp [nbits, ceil8_mul_eight]

theorem getBitsF_ok (B : Bytes) (i j : Nat) (h : j < i ∨ j < nbits B) :
    ∃ O, getBitsF B i j = .ok O ∧ O.length = ceil8 (getBitsLen i j) := by
  unfold getBitsF getBitsLen
  by_cases h0 : j < i
  · exact ⟨[], by simp [h0], by simp [h0, ceil8]⟩
  · have hj : j < nbits B := by tauto
    refine ⟨_, by rw [if_neg h0, if_neg (by omega)], ?_⟩
    rw [if_neg h0]
    simp
    congr 1
    omega

theorem swapBitsF_ok (B : Bytes) (i j : Nat) (h : i = j ∨ B.length = 0 ∨ (i < nbits B ∧ j < nbits B)) :
    ∃ O, swapBitsF B i j = .ok O ∧ O.length = B.length := by
  unfold swapBitsF
  by_cases h0 : i = j ∨ B.length = 0
  · exact ⟨B, by rw [if_pos h0], rfl⟩
  · have hh : i < nbits B ∧ j < nbits B := by tauto
    refine ⟨_, by rw [if_neg h0, if_neg (by omega)], ?_⟩
    simp [nbits, ceil8_mul_eight]

/-! ## Commands -/

section Commands
variable {s : State} {r : Word} {ws : List (Nat × Bytes)} {u : CtxUpdate}

/-- Everything a PERMUTE that succeeds says (R190). -/
theorem cmdPermute_ok {b : IndexBase} {o : BitOrder} (h : cmdPermute b o s = .ok r ws u) :
    ∃ B T, s.buf.readBytes s.opSrc s.opLen = some B ∧ s.buf.readBytes s.opKey (2 * s.opKlen) = some T ∧
      s.opDst + ceil8 s.opKlen ≤ s.bufSize ∧ r = resultWord s.opKlen ∧
      ws = [(s.opDst, permuteF B (tableEntries s.opKlen T) o b)] ∧ u = .unchanged := by
  simp only [cmdPermute, requireRegions_eq_ok, withBytes_eq_ok] at h
  obtain ⟨hr, B, hB, T, hT, h⟩ := h
  simp only [CmdOut.ok.injEq] at h
  exact ⟨B, T, hB, hT, hr (s.opDst, ceil8 s.opKlen) (by simp), h.1.symm, h.2.1.symm, h.2.2.symm⟩

/-- Everything a SUBST that succeeds says (R191). -/
theorem cmdSubst_ok (h : cmdSubst s = .ok r ws u) :
    ∃ B SB O, s.buf.readBytes s.opSrc s.opLen = some B ∧ s.buf.readBytes s.opKey 256 = some SB ∧
      substF B SB s.opAux0 s.opAux1 = .ok O ∧
      s.opDst + ceil8 (substBits s.opLen s.opAux0 s.opAux1) ≤ s.bufSize ∧
      r = resultWord (substBits s.opLen s.opAux0 s.opAux1) ∧ ws = [(s.opDst, O)] ∧ u = .unchanged := by
  simp only [cmdSubst, require_eq_ok, requireRegions_eq_ok, withBytes_eq_ok, withValue_eq_ok] at h
  obtain ⟨-, hr, B, hB, SB, hSB, O, hO, h⟩ := h
  simp only [CmdOut.ok.injEq] at h
  exact ⟨B, SB, O, hB, hSB, hO, hr (s.opDst, ceil8 (substBits s.opLen s.opAux0 s.opAux1)) (by simp), h.1.symm,
    h.2.1.symm, h.2.2.symm⟩

/-- Everything a rotation that succeeds says (R192, R193). -/
theorem cmdRotate_ok {rot : Bytes → Nat → Nat → Except ErrCode Bytes} (h : cmdRotate rot s = .ok r ws u) :
    ∃ B O, s.buf.readBytes s.opSrc s.opLen = some B ∧ rot B s.opAux0 s.opAux1 = .ok O ∧
      s.opDst + ceil8 (rotBits s.opLen s.opAux0) ≤ s.bufSize ∧
      r = resultWord (rotBits s.opLen s.opAux0) ∧ ws = [(s.opDst, O)] ∧ u = .unchanged := by
  simp only [cmdRotate, require_eq_ok, requireRegions_eq_ok, withBytes_eq_ok, withValue_eq_ok] at h
  obtain ⟨-, hr, B, hB, O, hO, h⟩ := h
  simp only [CmdOut.ok.injEq] at h
  exact ⟨B, O, hB, hO, hr (s.opDst, ceil8 (rotBits s.opLen s.opAux0)) (by simp), h.1.symm, h.2.1.symm, h.2.2.symm⟩

/-- Everything a MASK that succeeds says (R194). -/
theorem cmdMask_ok {op : MaskOp} (h : cmdMask op s = .ok r ws u) :
    ∃ B M O, s.buf.readBytes s.opSrc s.opLen = some B ∧ s.buf.readBytes s.opKey s.opKlen = some M ∧
      maskF B M s.opAux0 op = .ok O ∧ s.opDst + s.opLen ≤ s.bufSize ∧
      r = resultWord (8 * s.opLen) ∧ ws = [(s.opDst, O)] ∧ u = .unchanged := by
  simp only [cmdMask, require_eq_ok, requireRegions_eq_ok, withBytes_eq_ok, withValue_eq_ok] at h
  obtain ⟨-, hr, B, hB, M, hM, O, hO, h⟩ := h
  simp only [CmdOut.ok.injEq] at h
  exact ⟨B, M, O, hB, hM, hO, hr (s.opDst, s.opLen) (by simp), h.1.symm, h.2.1.symm, h.2.2.symm⟩

/-- Everything a GETBIT that succeeds says (R195). -/
theorem cmdGetbit_ok (h : cmdGetbit s = .ok r ws u) :
    ∃ B v, s.buf.readBytes s.opSrc s.opLen = some B ∧ getBitF B s.opAux0 = .ok v ∧
      r = resultWord v.toNat ∧ ws = [] ∧ u = .unchanged := by
  simp only [cmdGetbit, require_eq_ok, requireRegions_eq_ok, withBytes_eq_ok, withValue_eq_ok] at h
  obtain ⟨-, -, B, hB, v, hv, h⟩ := h
  simp only [CmdOut.ok.injEq] at h
  exact ⟨B, v, hB, hv, h.1.symm, h.2.1.symm, h.2.2.symm⟩

/-- Everything a SETBIT that succeeds says (R196). -/
theorem cmdSetbit_ok {val : Bool} (h : cmdSetbit val s = .ok r ws u) :
    ∃ B O, s.buf.readBytes s.opSrc s.opLen = some B ∧ setBitF B s.opAux0 val = .ok O ∧
      s.opSrc + s.opLen ≤ s.bufSize ∧ r = 0 ∧ ws = [(s.opSrc, O)] ∧ u = .unchanged := by
  simp only [cmdSetbit, require_eq_ok, requireRegions_eq_ok, withBytes_eq_ok, withValue_eq_ok] at h
  obtain ⟨-, hr, B, hB, O, hO, h⟩ := h
  simp only [CmdOut.ok.injEq] at h
  exact ⟨B, O, hB, hO, hr (s.opSrc, s.opLen) (by simp), h.1.symm, h.2.1.symm, h.2.2.symm⟩

/-- Everything a GETBITS that succeeds says (R197). -/
theorem cmdGetbits_ok (h : cmdGetbits s = .ok r ws u) :
    ∃ B O, s.buf.readBytes s.opSrc s.opLen = some B ∧ getBitsF B s.opAux0 s.opAux1 = .ok O ∧
      s.opDst + ceil8 (getBitsLen s.opAux0 s.opAux1) ≤ s.bufSize ∧
      r = resultWord (getBitsLen s.opAux0 s.opAux1) ∧ ws = [(s.opDst, O)] ∧ u = .unchanged := by
  simp only [cmdGetbits, require_eq_ok, requireRegions_eq_ok, withBytes_eq_ok, withValue_eq_ok] at h
  obtain ⟨-, hr, B, hB, O, hO, h⟩ := h
  simp only [CmdOut.ok.injEq] at h
  exact ⟨B, O, hB, hO, hr (s.opDst, ceil8 (getBitsLen s.opAux0 s.opAux1)) (by simp), h.1.symm, h.2.1.symm,
    h.2.2.symm⟩

/-- Everything a SWAPBITS that succeeds says (R198). -/
theorem cmdSwapbits_ok (h : cmdSwapbits s = .ok r ws u) :
    ∃ B O, s.buf.readBytes s.opSrc s.opLen = some B ∧ swapBitsF B s.opAux0 s.opAux1 = .ok O ∧
      s.opSrc + s.opLen ≤ s.bufSize ∧ r = 0 ∧ ws = [(s.opSrc, O)] ∧ u = .unchanged := by
  simp only [cmdSwapbits, require_eq_ok, requireRegions_eq_ok, withBytes_eq_ok, withValue_eq_ok] at h
  obtain ⟨-, hr, B, hB, O, hO, h⟩ := h
  simp only [CmdOut.ok.injEq] at h
  exact ⟨B, O, hB, hO, hr (s.opSrc, s.opLen) (by simp), h.1.symm, h.2.1.symm, h.2.2.symm⟩

end Commands

end Sys2Proof.Machine
end

