-- ==== Sys2Proof/Laws/Bus.lean ====
section
/-! SUPPORT. Laws/Bus.lean: everything a host access can do (R43, R72, R73, R401 to R403). -/
namespace Sys2Proof.Machine

section Bus
variable {s t : State} {w : Width} {off : Nat} {v : Word}

@[simp] theorem laneBytes_length (n : Nat) (v : Word) : (laneBytes n v).length = n := by
  induction n generalizing v with
  | zero => rfl
  | succ n ih => simp [laneBytes, ih]

/-- Everything a host read that answers says: a register, a reserved offset, a busy BUF read, or a BUF read. -/
theorem State.busRead_next (h : s.busRead w off = .next (v, t)) :
    (off < Config.windowBase ∧ regAccessOk w off = true ∧ v = s.readReg off ∧ t = s) ∨
    (Config.windowBase ≤ off ∧ bufAccessOk w off = true ∧ s.bufSize ≤ off - Config.windowBase ∧ v = 0 ∧ t = s) ∨
    (Config.windowBase ≤ off ∧ bufAccessOk w off = true ∧ off - Config.windowBase < s.bufSize ∧
      s.status.busy = true ∧ v = laneWord (freeBytes s.freeReads w.bytes) ∧
      t = { s with freeReads := s.freeReads + w.bytes }) ∨
    (Config.windowBase ≤ off ∧ bufAccessOk w off = true ∧ off - Config.windowBase < s.bufSize ∧
      s.status.busy = false ∧ (∃ B, s.buf.readBytes (off - Config.windowBase) w.bytes = some B ∧ v = laneWord B) ∧
      t = s) := by
  unfold State.busRead at h
  by_cases h1 : off < Config.windowBase
  · by_cases h2 : regAccessOk w off = true
    · simp [h1, h2] at h; exact .inl ⟨h1, h2, h.1.symm, h.2.symm⟩
    · simp [h1, h2] at h
  · rw [if_neg h1] at h
    have h1' := Nat.not_lt.1 h1
    by_cases h2 : bufAccessOk w off = true
    · by_cases h3 : s.bufSize ≤ off - Config.windowBase
      · simp [h2, h3] at h; exact .inr (.inl ⟨h1', h2, h3, h.1.symm, h.2.symm⟩)
      · by_cases h4 : s.status.busy = true
        · simp [h2, h3, h4] at h
          exact .inr (.inr (.inl ⟨h1', h2, Nat.not_le.1 h3, h4, h.1.symm, h.2.symm⟩))
        · cases h5 : s.buf.readBytes (off - Config.windowBase) w.bytes with
          | none => simp [h2, h3, h4, h5] at h
          | some B =>
            simp [h2, h3, h4, h5] at h
            exact .inr (.inr (.inr ⟨h1', h2, Nat.not_le.1 h3, by simpa using h4, ⟨B, rfl, h.1.symm⟩, h.2.symm⟩))
    · simp [h2] at h

/-- Everything a host write that answers says: an issue, a register write, a reserved offset, or a BUF write. -/
theorem State.busWrite_next (h : s.busWrite w off v = .next t) :
    (off = Config.offCmd ∧ w = .w32 ∧ s.status.busy = false ∧ t = s.issue v) ∨
    (off < Config.windowBase ∧ off ≠ Config.offCmd ∧ w = .w32 ∧ off % 4 = 0 ∧ t = s.writeReg off v) ∨
    (Config.windowBase ≤ off ∧ s.bufSize ≤ off - Config.windowBase ∧ t = s) ∨
    (Config.windowBase ≤ off ∧ bufAccessOk w off = true ∧ off - Config.windowBase < s.bufSize ∧
      s.status.busy = false ∧
      t = { s with buf := s.buf.writeBytes (off - Config.windowBase) (laneBytes w.bytes v) }) := by
  unfold State.busWrite at h
  by_cases h1 : off < Config.windowBase
  · by_cases h2 : regAccessOk w off = true
    · have h2' : w = .w32 ∧ off % 4 = 0 := by simpa [regAccessOk] using h2
      by_cases h3 : off = Config.offCmd
      · subst h3
        by_cases h4 : s.status.busy = true
        · simp [h1, h2, h4] at h
        · simp [h1, h2, h4] at h
          exact .inl ⟨rfl, h2'.1, by simpa using h4, h.symm⟩
      · simp [h1, h2, h3] at h
        exact .inr (.inl ⟨h1, h3, h2'.1, h2'.2, h.symm⟩)
    · simp [h1, h2] at h
  · rw [if_neg h1] at h
    have h1' := Nat.not_lt.1 h1
    by_cases h2 : bufAccessOk w off = true
    · by_cases h3 : s.bufSize ≤ off - Config.windowBase
      · simp [h2, h3] at h; exact .inr (.inr (.inl ⟨h1', h3, h.symm⟩))
      · by_cases h4 : s.status.busy = true
        · simp [h2, h3, h4] at h
        · simp [h2, h3, h4] at h
          exact .inr (.inr (.inr ⟨h1', h2, Nat.not_le.1 h3, by simpa using h4, h.symm⟩))
    · simp [h2] at h

/-- A host read that answers is a read of the core, and keeps the value for the host's next BIT. -/
theorem State.hostRead_next {addr : Nat} (h : s.hostRead w addr = .next t) :
    ∃ off v u, s.offsetOf addr = some off ∧ s.busRead w off = .next (v, u) ∧
      t = { u with host := { u.host with last := v } } := by
  unfold State.hostRead at h
  cases h1 : s.offsetOf addr with
  | none => simp [h1] at h
  | some off =>
    cases h2 : s.busRead w off with
    | next p => obtain ⟨v, u⟩ := p; simp [h1, h2] at h; exact ⟨off, v, u, rfl, h2, h.symm⟩
    | fault f => simp [h1, h2] at h
    | refused r => simp [h1, h2] at h

/-- A host write that answers is a write of the core. -/
theorem State.hostWrite_next {addr : Nat} (h : s.hostWrite w addr v = .next t) :
    ∃ off, s.offsetOf addr = some off ∧ s.busWrite w off v = .next t := by
  unfold State.hostWrite at h
  cases h1 : s.offsetOf addr with
  | none => simp [h1] at h
  | some off => simp [h1] at h; exact ⟨off, rfl, h⟩

end Bus

end Sys2Proof.Machine
end

