-- ==== Sys2Proof/Laws/Ciphers.lean ====
section
/-! SUPPORT. Laws/Ciphers.lean: the lengths of DES, Triple-DES and adapter values, that their computations never
fail (R360), and everything a cipher command that succeeds says. -/
namespace Sys2Proof.Machine

/-! ## Lengths -/

@[simp] theorem desPermute_length (T : List Nat) (B : Bytes) : (desPermute T B).length = ceil8 T.length := by
  simp [desPermute]

theorem tableIP_length : tableIP.length = 64 := rfl
theorem tableFP_length : tableFP.length = 64 := rfl
theorem tableE_length : tableE.length = 48 := rfl
theorem tableP_length : tableP.length = 32 := rfl
theorem tablePC1_length : tablePC1.length = 56 := rfl
theorem tablePC2_length : tablePC2.length = 48 := rfl

/-- The round function gives a half block (R252). -/
theorem desF_length (R K : Bytes) : (desF R K).length = 4 := by simp [desF, tableP_length, ceil8]

@[simp] theorem desRoundKeys_length (ns : List Nat) (C D : Bits) : (desRoundKeys ns C D).length = ns.length := by
  induction ns generalizing C D with
  | nil => rfl
  | cons n ns ih => simp [desRoundKeys, ih]

theorem desRoundKeys_key_length {ns : List Nat} {C D : Bits} {k : Bytes} (h : k ∈ desRoundKeys ns C D) :
    k.length = 6 := by
  induction ns generalizing C D with
  | nil => simp [desRoundKeys] at h
  | cons n ns ih =>
    rcases List.mem_cons.1 h with rfl | h
    · simp [tablePC2_length, ceil8]
    · exact ih h

/-- Key expansion gives exactly 16 round keys (R250). -/
@[simp] theorem desKS_length (key : Bytes) : (desKS key).length = 16 := by simp [desKS, shifts]

theorem desKS_key_length {key k : Bytes} (h : k ∈ desKS key) : k.length = 6 := desRoundKeys_key_length h

@[simp] theorem scheduleBytes_length (v : Schedule) : (scheduleBytes v).length = 16 := by simp [scheduleBytes]

/-- A context holds the round keys the engine expanded, as they are. -/
theorem scheduleBytes_scheduleOf {ks : List Bytes} (h16 : ks.length = 16) (h6 : ∀ k ∈ ks, k.length = 6) :
    scheduleBytes (scheduleOf ks) = ks := by
  unfold scheduleBytes scheduleOf
  rw [vecOfList_toList _ _ (by simpa using h16), List.map_map]
  conv_rhs => rw [← List.map_id ks]
  apply List.map_congr_left
  intro k hk
  simpa using vecOfList_toList 0 k (h6 k hk)

theorem engineSetEnc_des (key : Bytes) : engineSetEnc desEngine key = .ok (desKS key) := by
  simp [engineSetEnc, desEngine]

theorem engineSetDec_des (key : Bytes) : engineSetDec desEngine key = .ok (desKS key).reverse := by
  simp [engineSetDec, desEngine]

theorem scheduleBytes_desKS (key : Bytes) : scheduleBytes (scheduleOf (desKS key)) = desKS key :=
  scheduleBytes_scheduleOf (by simp) fun _ h => desKS_key_length h

theorem scheduleBytes_desKS_reverse (key : Bytes) :
    scheduleBytes (scheduleOf (desKS key).reverse) = (desKS key).reverse :=
  scheduleBytes_scheduleOf (by simp) fun _ h => desKS_key_length (List.mem_reverse.1 h)

/-! ## The computations never fail -/

/-- The rounds never fail when the round function gives half blocks (R226). -/
theorem feistelRounds_ok {F : Bytes → Bytes → Bytes} {h : Nat} (hF : ∀ R K, (F R K).length = h)
    (ks : List Bytes) (L R : Bytes) : ∃ p, feistelRounds F h ks L R = .ok p := by
  induction ks generalizing L R with
  | nil => exact ⟨_, rfl⟩
  | cons k ks ih =>
    simp only [feistelRounds, hF, ne_eq, not_true_eq_false, if_false]
    exact ih R _

/-- DesCore answers an 8-byte block for every schedule of at least 16 round keys (R253): the internal invariant
violations of R360 do not arise. -/
theorem desCore_ok (sched : List Bytes) (X : Bytes) (h : 16 ≤ sched.length) :
    ∃ Y, desCore sched X = .ok Y ∧ Y.length = 8 := by
  have hip : (desPermute tableIP X).length = 8 := by simp [tableIP_length, ceil8]
  obtain ⟨⟨L, R⟩, hp⟩ := feistelRounds_ok desF_length (sched.take 16)
    ((desPermute tableIP X).take 4) ((desPermute tableIP X).drop 4)
  refine ⟨desPermute tableFP (R ++ L), ?_, by simp [tableFP_length, ceil8]⟩
  simp [desCore, wrapF, feistelF, hip, desEngine, Nat.not_lt.2 h, hp]

theorem desEnc_ok (k X : Bytes) : ∃ Y, desEnc k X = .ok Y ∧ Y.length = 8 := desCore_ok _ _ (by simp)
theorem desDec_ok (k X : Bytes) : ∃ Y, desDec k X = .ok Y ∧ Y.length = 8 := desCore_ok _ _ (by simp)

theorem stage_ok {r : Except ErrCode Bytes} {f : Bytes → Except ErrCode Bytes}
    (hr : ∃ Y, r = .ok Y ∧ Y.length = 8) (hf : ∀ X, ∃ Y, f X = .ok Y ∧ Y.length = 8) :
    ∃ Y, stage r f = .ok Y ∧ Y.length = 8 := by
  obtain ⟨X, rfl, -⟩ := hr
  exact hf X

/-- Triple-DES answers an 8-byte block in every mode (R282). -/
theorem tdesEncF_ok (m : TdesMode) (k1 k2 k3 X : Bytes) :
    ∃ Y, tdesEncF m k1 k2 k3 X = .ok Y ∧ Y.length = 8 := by
  cases m
  · exact stage_ok (stage_ok (desEnc_ok k1 X) (desEnc_ok k2)) (desEnc_ok k3)
  · exact stage_ok (stage_ok (desEnc_ok k1 X) (desDec_ok k2)) (desEnc_ok k3)
  · exact stage_ok (stage_ok (desEnc_ok k1 X) (desEnc_ok k2)) (desEnc_ok k3)
  · exact stage_ok (stage_ok (desEnc_ok k1 X) (desDec_ok k2)) (desEnc_ok k3)

theorem tdesDecF_ok (m : TdesMode) (k1 k2 k3 X : Bytes) :
    ∃ Y, tdesDecF m k1 k2 k3 X = .ok Y ∧ Y.length = 8 := by
  cases m
  · exact stage_ok (stage_ok (desDec_ok k3 X) (desDec_ok k2)) (desDec_ok k1)
  · exact stage_ok (stage_ok (desDec_ok k3 X) (desEnc_ok k2)) (desDec_ok k1)
  · exact stage_ok (stage_ok (desDec_ok k3 X) (desDec_ok k2)) (desDec_ok k1)
  · exact stage_ok (stage_ok (desDec_ok k3 X) (desEnc_ok k2)) (desDec_ok k1)

/-- A block function of the adapter: it answers 8 bytes for every block. -/
def BlockFn (f : Bytes → Except ErrCode Bytes) : Prop := ∀ X, ∃ Y, f X = .ok Y ∧ Y.length = 8

theorem blockFn_desCore (v : Schedule) : BlockFn (desCore (scheduleBytes v)) := fun X => desCore_ok _ X (by simp)
theorem blockFn_tdesEncWith (t : TdesKeys) : BlockFn (tdesEncWith t) := fun _ => tdesEncF_ok _ _ _ _ _
theorem blockFn_tdesDecWith (t : TdesKeys) : BlockFn (tdesDecWith t) := fun _ => tdesDecF_ok _ _ _ _ _

/-- Both block functions of every selected cipher answer 8 bytes (R330). -/
theorem blockFn_cipherList {s : State} {sel : CipherKind} {x : BlockCipher} (h : x ∈ cipherList s sel) :
    BlockFn x.enc ∧ BlockFn x.dec := by
  cases sel
  · obtain ⟨y, -, rfl⟩ := List.mem_map.1 h
    exact ⟨blockFn_desCore _, blockFn_desCore _⟩
  · obtain ⟨y, -, rfl⟩ := List.mem_map.1 h
    exact ⟨blockFn_tdesEncWith _, blockFn_tdesDecWith _⟩

theorem mapBlocks_ok {f : Bytes → Except ErrCode Bytes} (hf : BlockFn f) (q : Nat) (D : Bytes) :
    ∃ O, mapBlocks f q D = .ok O ∧ O.length = 8 * q := by
  induction q generalizing D with
  | zero => exact ⟨[], rfl, rfl⟩
  | succ q ih =>
    obtain ⟨o, ho, hl⟩ := hf (D.take 8)
    obtain ⟨O, hO, hL⟩ := ih (D.drop 8)
    exact ⟨o ++ O, by simp [mapBlocks, ho, hO], by simp [hl, hL]; omega⟩

/-- EcbF answers as many bytes as it is given, when they are a whole number of blocks (R331, R333 (d)). -/
theorem ecbF_ok {f : Bytes → Except ErrCode Bytes} (hf : BlockFn f) (D : Bytes) (h : D.length % 8 = 0) :
    ∃ O, ecbF f D = .ok O ∧ O.length = D.length := by
  obtain ⟨O, hO, hl⟩ := mapBlocks_ok hf (D.length / 8) D
  exact ⟨O, by simp [ecbF, h, hO], by omega⟩

/-- ChunkF answers as many bytes as it is given (R332, R333 (d)). -/
theorem chunkF_ok {f : Bytes → Except ErrCode Bytes} (hf : BlockFn f) (D : Bytes) :
    ∃ O, chunkF f D = .ok O ∧ O.length = D.length := by
  obtain ⟨O, hO, hl⟩ := mapBlocks_ok hf (D.length / 8) D
  exact ⟨O ++ D.drop (8 * (D.length / 8)), by simp [chunkF, hO], by simp [hl]; omega⟩

/-! ## Commands -/

section Commands
variable {s : State} {r : Word} {ws : List (Nat × Bytes)} {u : CtxUpdate}

/-- Everything a single-block command that succeeds says (R258). -/
theorem blockCommand_ok {f : Bytes → Except ErrCode Bytes} (h : blockCommand s f = .ok r ws u) :
    ∃ X O, s.buf.readBytes s.opSrc 8 = some X ∧ f X = .ok O ∧ s.opDst + 8 ≤ s.bufSize ∧
      r = 0 ∧ ws = [(s.opDst, O)] ∧ u = .unchanged := by
  simp only [blockCommand, requireRegions_eq_ok, withBytes_eq_ok, withValue_eq_ok] at h
  obtain ⟨hr, X, hX, O, hO, h⟩ := h
  simp only [CmdOut.ok.injEq] at h
  exact ⟨X, O, hX, hO, hr (s.opDst, 8) (by simp), h.1.symm, h.2.1.symm, h.2.2.symm⟩

/-- Everything an adapter command's transfer that succeeds says (R334, R337). -/
theorem bufferCommand_ok {g : Bytes → Except ErrCode Bytes} (h : bufferCommand s g = .ok r ws u) :
    ∃ D O, s.buf.readBytes s.opSrc s.opLen = some D ∧ g D = .ok O ∧ s.opDst + s.opLen ≤ s.bufSize ∧
      r = 0 ∧ ws = [(s.opDst, O)] ∧ u = .unchanged := by
  simp only [bufferCommand, requireRegions_eq_ok, withBytes_eq_ok, withValue_eq_ok] at h
  obtain ⟨hr, D, hD, O, hO, h⟩ := h
  simp only [CmdOut.ok.injEq] at h
  exact ⟨D, O, hD, hO, hr (s.opDst, s.opLen) (by simp), h.1.symm, h.2.1.symm, h.2.2.symm⟩

/-- Everything a DES key installation that succeeds says (R256, R257). -/
theorem desKeyCommand_ok {c : Nat} {ex : Bytes → Except ErrCode (List Bytes)} {f : DesCtx → Schedule → DesCtx}
    (h : desKeyCommand s c ex f = .ok r ws u) :
    ∃ x k ks, s.des[c]? = some x ∧ s.buf.readBytes s.opKey 8 = some k ∧ ex k = .ok ks ∧
      r = 0 ∧ ws = [] ∧ u = .des c (f x (scheduleOf ks)) := by
  simp only [desKeyCommand, withCtx_eq_ok, require_eq_ok, requireRegions_eq_ok, withBytes_eq_ok,
    withValue_eq_ok] at h
  obtain ⟨x, hx, -, -, k, hk, ks, hks, h⟩ := h
  simp only [CmdOut.ok.injEq] at h
  exact ⟨x, k, ks, hx, hk, hks, h.1.symm, h.2.1.symm, h.2.2.symm⟩

/-- Everything a Triple-DES key installation that succeeds says (R286, R287). -/
theorem tdesKeyCommand_ok {c : Nat} {m : TdesMode} {f : TdesCtx → TdesKeys → TdesCtx}
    (h : tdesKeyCommand s c m f = .ok r ws u) :
    ∃ x K, s.tdes[c]? = some x ∧ s.opKlen = tdesKeyLen m ∧ s.buf.readBytes s.opKey s.opKlen = some K ∧
      r = 0 ∧ ws = [] ∧ u = .tdes c (f x (tdesKeySet m K)) := by
  simp only [tdesKeyCommand, withCtx_eq_ok, require_eq_ok, requireRegions_eq_ok, withBytes_eq_ok] at h
  obtain ⟨x, hx, hl, -, K, hK, h⟩ := h
  simp only [CmdOut.ok.injEq] at h
  exact ⟨x, K, hx, hl, hK, h.1.symm, h.2.1.symm, h.2.2.symm⟩

end Commands

end Sys2Proof.Machine
end

