-- ==== Sys2Proof/Laws/Rc4.lean ====
section
/-! SUPPORT. Laws/Rc4.lean: swaps keep the permutation (R310), the length of the output (R312), and everything an
RC4 command that succeeds says (R315, R316). -/
namespace Sys2Proof.Machine

/-- A swap keeps the bytes of S (R310: "every step is a swap"). -/
theorem sSwap_perm (S : Vector Byte 256) (p q : Byte) : (sSwap S p q).toList.Perm S.toList := by
  have := Vector.swap_perm (xs := S) (i := p.toNat) (j := q.toNat) p.isLt q.isLt
  exact Vector.perm_iff_toList_perm.1 this

theorem ksaLoop_perm (key : Bytes) (ps : List Nat) (S : Vector Byte 256) (a : Byte) :
    (ksaLoop key ps S a).toList.Perm S.toList := by
  induction ps generalizing S a with
  | nil => rw [ksaLoop]
  | cons p ps ih =>
    rw [ksaLoop]
    exact (ih _ _).trans (sSwap_perm _ _ _)

@[simp] theorem rc4KSA_S (key : Bytes) : (rc4KSA key).S = ksaPerm key := by rw [rc4KSA]
@[simp] theorem rc4KSA_i (key : Bytes) : (rc4KSA key).i = 0 := by rw [rc4KSA]
@[simp] theorem rc4KSA_j (key : Bytes) : (rc4KSA key).j = 0 := by rw [rc4KSA]

/-- Key scheduling gives a permutation of 0..255 (R46, R310). -/
theorem ksaPerm_perm (key : Bytes) : (ksaPerm key).toList.Perm sIdentity.toList := by
  rw [ksaPerm]
  exact ksaLoop_perm key (List.range 256) sIdentity 0

theorem rc4Step_perm (t : Rc4St) : (rc4Step t).1.S.toList.Perm t.S.toList := sSwap_perm _ _ _

theorem rc4Xor_perm (t : Rc4St) (D : Bytes) : (rc4Xor t D).1.S.toList.Perm t.S.toList := by
  induction D generalizing t with
  | nil => rw [rc4Xor]
  | cons d D ih =>
    rw [rc4Xor]
    exact (ih _).trans (rc4Step_perm t)

@[simp] theorem rc4Xor_length (t : Rc4St) (D : Bytes) : (rc4Xor t D).2.length = D.length := by
  induction D generalizing t with
  | nil => rfl
  | cons d D ih => simp [rc4Xor, ih]

@[simp] theorem rc4StOf_keyed (t : Rc4St) : rc4StOf (rc4Keyed t) = t := rfl

section Commands
variable {s : State} {r : Word} {ws : List (Nat × Bytes)} {u : CtxUpdate} {c : Nat}

/-- Everything an RC4_MUTATE that succeeds says (R315). -/
theorem cmdRc4Mutate_ok (h : cmdRc4Mutate c s = .ok r ws u) :
    ∃ x k, s.rc4[c]? = some x ∧ s.buf.readBytes s.opKey s.opKlen = some k ∧
      r = 0 ∧ ws = [] ∧ u = .rc4 c (rc4Keyed (rc4KSA k)) := by
  simp only [cmdRc4Mutate, withCtx_eq_ok, require_eq_ok, requireRegions_eq_ok, withBytes_eq_ok] at h
  obtain ⟨x, hx, -, -, k, hk, h⟩ := h
  simp only [CmdOut.ok.injEq] at h
  exact ⟨x, k, hx, hk, h.1.symm, h.2.1.symm, h.2.2.symm⟩

/-- Everything an RC4_ENCODE that succeeds says (R316). -/
theorem cmdRc4Encode_ok (h : cmdRc4Encode c s = .ok r ws u) :
    ∃ x D, s.rc4[c]? = some x ∧ x.valid = true ∧ s.buf.readBytes s.opSrc s.opLen = some D ∧
      s.opDst + s.opLen ≤ s.bufSize ∧ r = 0 ∧ ws = [(s.opDst, (rc4Xor (rc4StOf x) D).2)] ∧
      u = .rc4 c (rc4Keyed (rc4Xor (rc4StOf x) D).1) := by
  simp only [cmdRc4Encode, withCtx_eq_ok, require_eq_ok, requireRegions_eq_ok, withBytes_eq_ok] at h
  obtain ⟨x, hx, hv, hr, D, hD, h⟩ := h
  simp only [CmdOut.ok.injEq] at h
  exact ⟨x, D, hx, hv, hD, hr (s.opDst, s.opLen) (by simp), h.1.symm, h.2.1.symm, h.2.2.symm⟩

end Commands

end Sys2Proof.Machine
end

