-- ==== Sys2Proof/Laws/Step.lean ====
section
/-! SUPPORT. Laws/Step.lean: everything one step can do (R140, R142, R390), agent by agent. -/
namespace Sys2Proof.Machine

section Step
variable {s t : State}

/-- A step is one turn of one agent: the schedule's next, or the default one (log 6). -/
theorem step_next (h : step s = .next t) :
    (∃ a rest, s.schedule = a :: rest ∧ takeTurn { s with schedule := rest } a = .next t) ∨
    (s.schedule = [] ∧ takeTurn s s.defaultTurn = .next t) := by
  unfold step at h
  cases hs : s.schedule with
  | nil => rw [hs] at h; exact .inr ⟨rfl, h⟩
  | cons a rest => rw [hs] at h; exact .inl ⟨a, rest, rfl, h⟩

/-- Everything the core's turn can do (R142, R144): a latched command, a latched word that is not legal, or nothing. -/
theorem coreTurn_next (h : coreTurn s = .next t) :
    (∃ i, s.latch.valid = true ∧ decode s.latch.word = .ok i ∧ exec i s = .next t) ∨
    (∃ e, s.latch.valid = true ∧ decode s.latch.word = .error e ∧ t = s.fail .illegalCmd) ∨
    (s.latch.valid = false ∧ t = s) := by
  unfold coreTurn at h
  by_cases hv : s.latch.valid = true
  · rw [if_pos hv, performLatched] at h
    cases hd : decode s.latch.word with
    | ok i => rw [hd] at h; exact .inl ⟨i, hv, rfl, h⟩
    | error e =>
      rw [hd] at h
      exact .inr (.inl ⟨e, hv, rfl, by simpa using h.symm⟩)
  · rw [if_neg hv] at h
    exact .inr (.inr ⟨by simpa using hv, by simpa using h.symm⟩)

/-- Everything the host's turn can do (R120): nothing at the end of its program, a write, a read, or a branch. -/
theorem hostTurn_next (h : hostTurn s = .next t) :
    (s.host.prog[s.host.pc]? = none ∧ t = s) ∨
    (∃ w addr v, s.host.prog[s.host.pc]? = some (.write w addr v) ∧ s.advanceHost.hostWrite w addr v = .next t) ∨
    (∃ w addr, s.host.prog[s.host.pc]? = some (.read w addr) ∧ s.advanceHost.hostRead w addr = .next t) ∨
    (∃ n target, s.host.prog[s.host.pc]? = some (.bit n target) ∧
      t = { s with host := { s.host with
        pc := if s.host.last.getLsbD n then target else s.host.pc + 1 } }) := by
  unfold hostTurn at h
  cases hp : s.host.prog[s.host.pc]? with
  | none => rw [hp] at h; exact .inl ⟨rfl, by simpa using h.symm⟩
  | some st =>
    rw [hp] at h
    cases st with
    | write w addr v => exact .inr (.inl ⟨w, addr, v, rfl, h⟩)
    | read w addr => exact .inr (.inr (.inl ⟨w, addr, rfl, h⟩))
    | bit n target =>
      refine .inr (.inr (.inr ⟨n, target, rfl, ?_⟩))
      simp only [hostStatement] at h
      split at h <;> simp_all [State.advanceHost]

/-- Every property that holds of what each agent's turn gives holds of what a step gives. -/
theorem step_induction {P : State → Prop} (h : step s = .next t)
    (hcore : ∀ u, (u = s ∨ ∃ rest, u = { s with schedule := rest }) → coreTurn u = .next t → P t)
    (hhost : ∀ u, (u = s ∨ ∃ rest, u = { s with schedule := rest }) → hostTurn u = .next t → P t)
    (hreset : ∀ rest, s.schedule = .reset :: rest → t = State.resetCore { s with schedule := rest } → P t) : P t := by
  rcases step_next h with ⟨a, rest, hs, ht⟩ | ⟨hs, ht⟩
  · cases a with
    | core => exact hcore _ (.inr ⟨rest, rfl⟩) ht
    | host => exact hhost _ (.inr ⟨rest, rfl⟩) ht
    | reset => exact hreset rest hs (by simpa [takeTurn] using ht.symm)
  · unfold State.defaultTurn at ht
    split at ht
    · exact hcore _ (.inl rfl) ht
    · exact hhost _ (.inl rfl) ht

/-- The step after a word is placed performs it (R142): the decoded command, or ILLEGAL_CMD. -/
theorem step_withFetchWord (s : State) (n w : Nat) :
    step (s.withFetchWord n w) = performLatched (s.withFetchWord n w) := rfl

end Step

end Sys2Proof.Machine
end

