-- ==== Sys2Proof/Laws/Commands.lean ====
section
/-! SUPPORT. Laws/Commands.lean: exec as the function Exec of R149 followed by the perform step, and what every command
that succeeds does to BUF and to the contexts. -/
namespace Sys2Proof.Machine

/-- `Exec` (R149): what each command answers, before the perform step applies it. -/
def commandOut (i : Instr) (s : State) : CmdOut :=
  match i with
  | .nop => cmdNop
  | .desSetek c => desKeyCommand s c (engineSetEnc desEngine) fun x v => { x with ek := v, ekValid := true }
  | .desSetdk c => desKeyCommand s c (engineSetDec desEngine) fun x v => { x with dk := v, dkValid := true }
  | .desEnc c => cmdDesEnc c s
  | .desDec c => cmdDesDec c s
  | .desBsize c => withCtx s.des c fun _ => .ok 8 [] .unchanged
  | .tdesSetek c m => tdesKeyCommand s c m fun x t => { x with e := t }
  | .tdesSetdk c m => tdesKeyCommand s c m fun x t => { x with d := t }
  | .tdesEnc c => cmdTdesEnc c s
  | .tdesDec c => cmdTdesDec c s
  | .tdesBsize c => withCtx s.tdes c fun _ => .ok 8 [] .unchanged
  | .encBytes k c => cmdEncBytes k c s
  | .decBytes k c => cmdDecBytes k c s
  | .encFile k c => cmdEncFile k c s
  | .decFile k c => cmdDecFile k c s
  | .rc4Mutate c => cmdRc4Mutate c s
  | .rc4Encode c => cmdRc4Encode c s
  | .permute b o => cmdPermute b o s
  | .subst => cmdSubst s
  | .rotl => cmdRotate rotLF s
  | .rotr => cmdRotate rotRF s
  | .mask op => cmdMask op s
  | .getbit => cmdGetbit s
  | .setbit v => cmdSetbit v s
  | .getbits => cmdGetbits s
  | .swapbits => cmdSwapbits s

/-- Every command is Exec followed by the perform step (R142). -/
theorem exec_eq_finish (i : Instr) (s : State) : exec i s = finish s (commandOut i s) := by
  cases i <;> rfl

/-- Everything a command that gives a next state does: it fails with a code, or it succeeds with what Exec answers. -/
theorem exec_next {i : Instr} {s t : State} (h : exec i s = .next t) :
    (∃ e, commandOut i s = .err e ∧ t = s.fail e) ∨
    (∃ r ws u, commandOut i s = .ok r ws u ∧ t = s.succeed r ws u) :=
  finish_next (exec_eq_finish i s ▸ h)

/-- A command is never refused, and stops only on a byte that was not written (R71). -/
theorem exec_total (i : Instr) (s : State) : (∃ t, exec i s = .next t) ∨ exec i s = .fault .uninitRead := by
  rw [exec_eq_finish]
  cases commandOut i s with
  | err e => exact .inl ⟨_, rfl⟩
  | ok r ws u => exact .inl ⟨_, rfl⟩
  | uninit => exact .inr rfl

/-- What a command that succeeds may store and install: at most one region, inside BUF, and at most one context. -/
theorem commandOut_ok {i : Instr} {s : State} {r : Word} {ws : List (Nat × Bytes)} {u : CtxUpdate}
    (h : commandOut i s = .ok r ws u) :
    (ws = [] ∨ ∃ a O, ws = [(a, O)] ∧ a + O.length ≤ s.bufSize) ∧
    (u = .unchanged ∨
      (∃ c x k, s.des[c]? = some x ∧ (i = .desSetek c ∧
          u = .des c { x with ek := scheduleOf (desKS k), ekValid := true } ∨
        i = .desSetdk c ∧ u = .des c { x with dk := scheduleOf (desKS k).reverse, dkValid := true }) ∧
        s.buf.readBytes s.opKey 8 = some k) ∨
      (∃ c m x K, s.tdes[c]? = some x ∧ (i = .tdesSetek c m ∧ u = .tdes c { x with e := tdesKeySet m K } ∨
        i = .tdesSetdk c m ∧ u = .tdes c { x with d := tdesKeySet m K }) ∧
        s.buf.readBytes s.opKey s.opKlen = some K) ∨
      (∃ c x t, s.rc4[c]? = some x ∧ u = .rc4 c (rc4Keyed t) ∧
        (i = .rc4Mutate c ∧ t.S.toList.Perm sIdentity.toList ∨
          i = .rc4Encode c ∧ x.valid = true ∧ t.S.toList.Perm x.S.toList))) := by
  cases i <;> simp only [commandOut] at h
  case nop => simp only [cmdNop, CmdOut.ok.injEq] at h; exact ⟨.inl h.2.1.symm, .inl h.2.2.symm⟩
  case desSetek c =>
    obtain ⟨x, k, ks, hx, hk, hks, -, rfl, rfl⟩ := desKeyCommand_ok h
    rw [engineSetEnc_des] at hks; cases hks
    exact ⟨.inl rfl, .inr (.inl ⟨c, x, k, hx, .inl ⟨rfl, rfl⟩, hk⟩)⟩
  case desSetdk c =>
    obtain ⟨x, k, ks, hx, hk, hks, -, rfl, rfl⟩ := desKeyCommand_ok h
    rw [engineSetDec_des] at hks; cases hks
    exact ⟨.inl rfl, .inr (.inl ⟨c, x, k, hx, .inr ⟨rfl, rfl⟩, hk⟩)⟩
  case desEnc c =>
    simp only [cmdDesEnc, withCtx_eq_ok, require_eq_ok] at h
    obtain ⟨x, -, -, h⟩ := h
    obtain ⟨X, O, -, hO, hd, -, rfl, rfl⟩ := blockCommand_ok h
    obtain ⟨Y, hY, hl⟩ := blockFn_desCore x.ek X
    rw [hO] at hY; cases hY
    exact ⟨.inr ⟨_, _, rfl, by omega⟩, .inl rfl⟩
  case desDec c =>
    simp only [cmdDesDec, withCtx_eq_ok, require_eq_ok] at h
    obtain ⟨x, -, -, h⟩ := h
    obtain ⟨X, O, -, hO, hd, -, rfl, rfl⟩ := blockCommand_ok h
    obtain ⟨Y, hY, hl⟩ := blockFn_desCore x.dk X
    rw [hO] at hY; cases hY
    exact ⟨.inr ⟨_, _, rfl, by omega⟩, .inl rfl⟩
  case desBsize c =>
    simp only [withCtx_eq_ok, CmdOut.ok.injEq] at h
    obtain ⟨x, -, -, rfl, rfl⟩ := h
    exact ⟨.inl rfl, .inl rfl⟩
  case tdesSetek c m =>
    obtain ⟨x, K, hx, -, hK, -, rfl, rfl⟩ := tdesKeyCommand_ok h
    exact ⟨.inl rfl, .inr (.inr (.inl ⟨c, m, x, K, hx, .inl ⟨rfl, rfl⟩, hK⟩))⟩
  case tdesSetdk c m =>
    obtain ⟨x, K, hx, -, hK, -, rfl, rfl⟩ := tdesKeyCommand_ok h
    exact ⟨.inl rfl, .inr (.inr (.inl ⟨c, m, x, K, hx, .inr ⟨rfl, rfl⟩, hK⟩))⟩
  case tdesEnc c =>
    simp only [cmdTdesEnc, withCtx_eq_ok, require_eq_ok] at h
    obtain ⟨x, -, -, h⟩ := h
    obtain ⟨X, O, -, hO, hd, -, rfl, rfl⟩ := blockCommand_ok h
    obtain ⟨Y, hY, hl⟩ := blockFn_tdesEncWith x.e X
    rw [hO] at hY; cases hY
    exact ⟨.inr ⟨_, _, rfl, by omega⟩, .inl rfl⟩
  case tdesDec c =>
    simp only [cmdTdesDec, withCtx_eq_ok, require_eq_ok] at h
    obtain ⟨x, -, -, h⟩ := h
    obtain ⟨X, O, -, hO, hd, -, rfl, rfl⟩ := blockCommand_ok h
    obtain ⟨Y, hY, hl⟩ := blockFn_tdesDecWith x.d X
    rw [hO] at hY; cases hY
    exact ⟨.inr ⟨_, _, rfl, by omega⟩, .inl rfl⟩
  case tdesBsize c =>
    simp only [withCtx_eq_ok, CmdOut.ok.injEq] at h
    obtain ⟨x, -, -, rfl, rfl⟩ := h
    exact ⟨.inl rfl, .inl rfl⟩
  case encBytes k c =>
    simp only [cmdEncBytes, withCtx_eq_ok, require_eq_ok] at h
    obtain ⟨x, hx, -, h8, h⟩ := h
    obtain ⟨D, O, hD, hO, hd, -, rfl, rfl⟩ := bufferCommand_ok h
    have hl := Memory.readBytes_length hD
    obtain ⟨Y, hY, hl'⟩ := ecbF_ok (blockFn_cipherList (List.mem_of_getElem? hx)).1 D (by omega)
    rw [hO] at hY; cases hY
    exact ⟨.inr ⟨_, _, rfl, by omega⟩, .inl rfl⟩
  case decBytes k c =>
    simp only [cmdDecBytes, withCtx_eq_ok, require_eq_ok] at h
    obtain ⟨x, hx, -, h8, h⟩ := h
    obtain ⟨D, O, hD, hO, hd, -, rfl, rfl⟩ := bufferCommand_ok h
    have hl := Memory.readBytes_length hD
    obtain ⟨Y, hY, hl'⟩ := ecbF_ok (blockFn_cipherList (List.mem_of_getElem? hx)).2 D (by omega)
    rw [hO] at hY; cases hY
    exact ⟨.inr ⟨_, _, rfl, by omega⟩, .inl rfl⟩
  case encFile k c =>
    simp only [cmdEncFile, withCtx_eq_ok, require_eq_ok] at h
    obtain ⟨x, hx, -, h⟩ := h
    obtain ⟨D, O, hD, hO, hd, -, rfl, rfl⟩ := bufferCommand_ok h
    have hl := Memory.readBytes_length hD
    obtain ⟨Y, hY, hl'⟩ := chunkF_ok (blockFn_cipherList (List.mem_of_getElem? hx)).1 D
    rw [hO] at hY; cases hY
    exact ⟨.inr ⟨_, _, rfl, by omega⟩, .inl rfl⟩
  case decFile k c =>
    simp only [cmdDecFile, withCtx_eq_ok, require_eq_ok] at h
    obtain ⟨x, hx, -, h⟩ := h
    obtain ⟨D, O, hD, hO, hd, -, rfl, rfl⟩ := bufferCommand_ok h
    have hl := Memory.readBytes_length hD
    obtain ⟨Y, hY, hl'⟩ := chunkF_ok (blockFn_cipherList (List.mem_of_getElem? hx)).2 D
    rw [hO] at hY; cases hY
    exact ⟨.inr ⟨_, _, rfl, by omega⟩, .inl rfl⟩
  case rc4Mutate c =>
    obtain ⟨x, k, hx, -, -, rfl, rfl⟩ := cmdRc4Mutate_ok h
    refine ⟨.inl rfl, .inr (.inr (.inr ⟨c, x, _, hx, rfl, .inl ⟨rfl, ?_⟩⟩))⟩
    rw [rc4KSA_S]; exact ksaPerm_perm k
  case rc4Encode c =>
    obtain ⟨x, D, hx, hv, hD, hd, -, rfl, rfl⟩ := cmdRc4Encode_ok h
    have hl := Memory.readBytes_length hD
    exact ⟨.inr ⟨_, _, rfl, by simpa [hl] using hd⟩,
      .inr (.inr (.inr ⟨c, x, _, hx, rfl, .inr ⟨rfl, hv, rc4Xor_perm _ _⟩⟩))⟩
  case permute b o =>
    obtain ⟨B, T, -, -, hd, -, rfl, rfl⟩ := cmdPermute_ok h
    exact ⟨.inr ⟨_, _, rfl, by simpa using hd⟩, .inl rfl⟩
  case subst =>
    simp only [cmdSubst, require_eq_ok] at h
    obtain ⟨⟨hn, hm⟩, h⟩ := h
    obtain ⟨B, SB, O, hB, -, hO, hd, -, rfl, rfl⟩ :=
      cmdSubst_ok (s := s) (r := r) (ws := ws) (u := u) (by rw [cmdSubst, require_eq_ok]; exact ⟨⟨hn, hm⟩, h⟩)
    have hl := Memory.readBytes_length hB
    obtain ⟨Y, hY, hl'⟩ := substF_ok B SB s.opAux0 s.opAux1 hn hm
    rw [hO] at hY; cases hY
    rw [hl] at hl'
    exact ⟨.inr ⟨_, _, rfl, by omega⟩, .inl rfl⟩
  case rotl =>
    have h' := h
    simp only [cmdRotate, require_eq_ok] at h'
    obtain ⟨B, O, hB, hO, hd, -, rfl, rfl⟩ := cmdRotate_ok h
    have hl := Memory.readBytes_length hB
    obtain ⟨Y, hY, hl'⟩ := rotLF_ok B s.opAux0 s.opAux1 (by unfold nbits; rw [hl]; exact h'.1)
    rw [hO] at hY; cases hY
    rw [hl] at hl'
    exact ⟨.inr ⟨_, _, rfl, by omega⟩, .inl rfl⟩
  case rotr =>
    have h' := h
    simp only [cmdRotate, require_eq_ok] at h'
    obtain ⟨B, O, hB, hO, hd, -, rfl, rfl⟩ := cmdRotate_ok h
    have hl := Memory.readBytes_length hB
    obtain ⟨Y, hY, hl'⟩ := rotRF_ok B s.opAux0 s.opAux1 (by unfold nbits; rw [hl]; exact h'.1)
    rw [hO] at hY; cases hY
    rw [hl] at hl'
    exact ⟨.inr ⟨_, _, rfl, by omega⟩, .inl rfl⟩
  case mask op =>
    have h' := h
    simp only [cmdMask, require_eq_ok] at h'
    obtain ⟨B, M, O, hB, hM, hO, hd, -, rfl, rfl⟩ := cmdMask_ok h
    have hl := Memory.readBytes_length hB
    have hm := Memory.readBytes_length hM
    obtain ⟨Y, hY, hl'⟩ := maskF_ok B M s.opAux0 op (by unfold nbits; rw [hl]; exact h'.1.1)
      (by unfold nbits; rw [hm]; exact h'.1.2)
    rw [hO] at hY; cases hY
    exact ⟨.inr ⟨_, _, rfl, by omega⟩, .inl rfl⟩
  case getbit =>
    obtain ⟨B, v, -, -, -, rfl, rfl⟩ := cmdGetbit_ok h
    exact ⟨.inl rfl, .inl rfl⟩
  case setbit v =>
    have h' := h
    simp only [cmdSetbit, require_eq_ok] at h'
    obtain ⟨B, O, hB, hO, hd, -, rfl, rfl⟩ := cmdSetbit_ok h
    have hl := Memory.readBytes_length hB
    obtain ⟨Y, hY, hl'⟩ := setBitF_ok B s.opAux0 v (by unfold nbits; rw [hl]; exact h'.1)
    rw [hO] at hY; cases hY
    exact ⟨.inr ⟨_, _, rfl, by omega⟩, .inl rfl⟩
  case getbits =>
    have h' := h
    simp only [cmdGetbits, require_eq_ok] at h'
    obtain ⟨B, O, hB, hO, hd, -, rfl, rfl⟩ := cmdGetbits_ok h
    have hl := Memory.readBytes_length hB
    obtain ⟨Y, hY, hl'⟩ := getBitsF_ok B s.opAux0 s.opAux1 (by unfold nbits; rw [hl]; exact h'.1)
    rw [hO] at hY; cases hY
    exact ⟨.inr ⟨_, _, rfl, by omega⟩, .inl rfl⟩
  case swapbits =>
    have h' := h
    simp only [cmdSwapbits, require_eq_ok] at h'
    obtain ⟨B, O, hB, hO, hd, -, rfl, rfl⟩ := cmdSwapbits_ok h
    have hl := Memory.readBytes_length hB
    obtain ⟨Y, hY, hl'⟩ := swapBitsF_ok B s.opAux0 s.opAux1 (by unfold nbits; rw [hl]; exact h'.1)
    rw [hO] at hY; cases hY
    exact ⟨.inr ⟨_, _, rfl, by omega⟩, .inl rfl⟩

end Sys2Proof.Machine
end

