-- ==== Sys2Proof/Laws/PerInstr.lean ====
section
/-! SUPPORT. Laws/PerInstr.lean: for every command: the word of a well-formed command fits its row of the opcode
table (spec/opcode_table.json: mask and match), and decodes to the command. -/
namespace Sys2Proof.Laws.OpcodeTable

/-- The mask of a command's row in spec/opcode_table.json. -/
def rowMask : Instr → Word
  | .nop => 0xFFFFFFFF
  | .desSetek _ => 0xFFFFF0FF
  | .desSetdk _ => 0xFFFFF0FF
  | .desEnc _ => 0xFFFFF0FF
  | .desDec _ => 0xFFFFF0FF
  | .desBsize _ => 0xFFFFF0FF
  | .tdesSetek _ _ => 0xFFFFC0FF
  | .tdesSetdk _ _ => 0xFFFFC0FF
  | .tdesEnc _ => 0xFFFFF0FF
  | .tdesDec _ => 0xFFFFF0FF
  | .tdesBsize _ => 0xFFFFF0FF
  | .encBytes _ _ => 0xFFFFE0FF
  | .decBytes _ _ => 0xFFFFE0FF
  | .encFile _ _ => 0xFFFFE0FF
  | .decFile _ _ => 0xFFFFE0FF
  | .rc4Mutate _ => 0xFFFFF0FF
  | .rc4Encode _ => 0xFFFFF0FF
  | .permute _ _ => 0xFFFFCFFF
  | .subst => 0xFFFFFFFF
  | .rotl => 0xFFFFFFFF
  | .rotr => 0xFFFFFFFF
  | .mask _ => 0xFFFFCFFF
  | .getbit => 0xFFFFFFFF
  | .setbit _ => 0xFFFFEFFF
  | .getbits => 0xFFFFFFFF
  | .swapbits => 0xFFFFFFFF

/-- The match of a command's row in spec/opcode_table.json. -/
def rowMatch : Instr → Word
  | .nop => 0x00000000
  | .desSetek _ => 0x00000001
  | .desSetdk _ => 0x00000002
  | .desEnc _ => 0x00000003
  | .desDec _ => 0x00000004
  | .desBsize _ => 0x00000005
  | .tdesSetek _ _ => 0x00000011
  | .tdesSetdk _ _ => 0x00000012
  | .tdesEnc _ => 0x00000013
  | .tdesDec _ => 0x00000014
  | .tdesBsize _ => 0x00000015
  | .encBytes _ _ => 0x00000021
  | .decBytes _ _ => 0x00000022
  | .encFile _ _ => 0x00000023
  | .decFile _ _ => 0x00000024
  | .rc4Mutate _ => 0x00000031
  | .rc4Encode _ => 0x00000032
  | .permute _ _ => 0x00000041
  | .subst => 0x00000042
  | .rotl => 0x00000043
  | .rotr => 0x00000044
  | .mask _ => 0x00000045
  | .getbit => 0x00000046
  | .setbit _ => 0x00000047
  | .getbits => 0x00000048
  | .swapbits => 0x00000049

/-- The word of a well-formed command fits the command's row of the opcode table, and decodes to the command. -/
def Statement (i : Instr) : Prop :=
  i.wf = true → encode i &&& rowMask i = rowMatch i ∧ decode (encode i) = .ok i

theorem nop : Statement (.nop) := by
  unfold Statement; decide

theorem desSetek (c : Nat) : Statement (.desSetek c) := by
  intro h
  have h : c < 16 := by simpa [Instr.wf] using h
  interval_cases c <;> decide

theorem desSetdk (c : Nat) : Statement (.desSetdk c) := by
  intro h
  have h : c < 16 := by simpa [Instr.wf] using h
  interval_cases c <;> decide

theorem desEnc (c : Nat) : Statement (.desEnc c) := by
  intro h
  have h : c < 16 := by simpa [Instr.wf] using h
  interval_cases c <;> decide

theorem desDec (c : Nat) : Statement (.desDec c) := by
  intro h
  have h : c < 16 := by simpa [Instr.wf] using h
  interval_cases c <;> decide

theorem desBsize (c : Nat) : Statement (.desBsize c) := by
  intro h
  have h : c < 16 := by simpa [Instr.wf] using h
  interval_cases c <;> decide

theorem tdesSetek (c : Nat) (m : TdesMode) : Statement (.tdesSetek c m) := by
  intro h
  have h : c < 16 := by simpa [Instr.wf] using h
  cases m <;> interval_cases c <;> decide

theorem tdesSetdk (c : Nat) (m : TdesMode) : Statement (.tdesSetdk c m) := by
  intro h
  have h : c < 16 := by simpa [Instr.wf] using h
  cases m <;> interval_cases c <;> decide

theorem tdesEnc (c : Nat) : Statement (.tdesEnc c) := by
  intro h
  have h : c < 16 := by simpa [Instr.wf] using h
  interval_cases c <;> decide

theorem tdesDec (c : Nat) : Statement (.tdesDec c) := by
  intro h
  have h : c < 16 := by simpa [Instr.wf] using h
  interval_cases c <;> decide

theorem tdesBsize (c : Nat) : Statement (.tdesBsize c) := by
  intro h
  have h : c < 16 := by simpa [Instr.wf] using h
  interval_cases c <;> decide

theorem encBytes (k : CipherKind) (c : Nat) : Statement (.encBytes k c) := by
  intro h
  have h : c < 16 := by simpa [Instr.wf] using h
  cases k <;> interval_cases c <;> decide

theorem decBytes (k : CipherKind) (c : Nat) : Statement (.decBytes k c) := by
  intro h
  have h : c < 16 := by simpa [Instr.wf] using h
  cases k <;> interval_cases c <;> decide

theorem encFile (k : CipherKind) (c : Nat) : Statement (.encFile k c) := by
  intro h
  have h : c < 16 := by simpa [Instr.wf] using h
  cases k <;> interval_cases c <;> decide

theorem decFile (k : CipherKind) (c : Nat) : Statement (.decFile k c) := by
  intro h
  have h : c < 16 := by simpa [Instr.wf] using h
  cases k <;> interval_cases c <;> decide

theorem rc4Mutate (c : Nat) : Statement (.rc4Mutate c) := by
  intro h
  have h : c < 16 := by simpa [Instr.wf] using h
  interval_cases c <;> decide

theorem rc4Encode (c : Nat) : Statement (.rc4Encode c) := by
  intro h
  have h : c < 16 := by simpa [Instr.wf] using h
  interval_cases c <;> decide

theorem permute (b : IndexBase) (o : BitOrder) : Statement (.permute b o) := by
  cases b; all_goals cases o
  all_goals (unfold Statement; decide)

theorem subst : Statement (.subst) := by
  unfold Statement; decide

theorem rotl : Statement (.rotl) := by
  unfold Statement; decide

theorem rotr : Statement (.rotr) := by
  unfold Statement; decide

theorem mask (p : MaskOp) : Statement (.mask p) := by
  cases p
  all_goals (unfold Statement; decide)

theorem getbit : Statement (.getbit) := by
  unfold Statement; decide

theorem setbit (v : Bool) : Statement (.setbit v) := by
  cases v
  all_goals (unfold Statement; decide)

theorem getbits : Statement (.getbits) := by
  unfold Statement; decide

theorem swapbits : Statement (.swapbits) := by
  unfold Statement; decide

end Sys2Proof.Laws.OpcodeTable
end

