-- ==== Sys2Proof/Tests/Slice0.lean ====
section
/-! SUPPORT. Tests/Slice0.lean: tests of the checks, the decoder and one step of every command, each expected value
from the spec's own examples (95_test_vectors.md and the command rules), and a witness for the hypotheses of every
statement of Certificates/Slice0/Obligations.lean. -/
namespace Sys2Proof.Tests

open Sys2Proof.Machine

/-! ## WellFormed refuses -/

/-- A context index of 16 does not fit CTX (R102), in any command that has one. -/
theorem test_wf_refuses_context_16 :
    [Instr.desSetek 16, .desSetdk 16, .desEnc 16, .desDec 16, .desBsize 16, .tdesSetek 16 .eee3,
      .tdesSetdk 16 .ede2, .tdesEnc 16, .tdesDec 16, .tdesBsize 16, .encBytes .des 16, .decBytes .tdes 16,
      .encFile .des 16, .decFile .tdes 16, .rc4Mutate 16, .rc4Encode 16].all (fun i => !i.wf) = true := by decide

theorem test_wf_accepts_context_15 : (Instr.desEnc 15).wf = true ∧ (Instr.rc4Encode 15).wf = true := by decide

/-- Each range of R13: BUF_SIZE, the three context counts, the alignment of CORE_BASE. -/
theorem test_params_wf_refuses_out_of_range :
    [(⟨7, 1, 1, 1, 0⟩ : Params), ⟨17, 1, 1, 1, 0⟩, ⟨12, 0, 1, 1, 0⟩, ⟨12, 17, 1, 1, 0⟩, ⟨12, 1, 0, 1, 0⟩,
      ⟨12, 1, 17, 1, 0⟩, ⟨12, 1, 1, 0, 0⟩, ⟨12, 1, 1, 17, 0⟩, ⟨12, 1, 1, 1, 0x10000⟩].all
      (fun p => !p.wf) = true := by decide

theorem test_params_wf_accepts_bounds :
    Params.wf ⟨8, 1, 1, 1, 0⟩ = true ∧ Params.wf ⟨16, 16, 16, 16, 0x20000⟩ = true := by decide

/-- Engine construction fails when rounds is 0 or odd (R223, S11). -/
theorem test_rounds_wf : roundsWf 0 = false ∧ roundsWf 15 = false ∧ roundsWf 16 = true := by decide

/-! ## Decoding, from words written out by R100 to R106 -/

theorem test_decode_nop : decode 0x00000000 = .ok .nop := by decide

theorem test_decode_des :
    decode 0x00000201 = .ok (.desSetek 2) ∧ decode 0x00000F02 = .ok (.desSetdk 15) ∧
    decode 0x00000003 = .ok (.desEnc 0) ∧ decode 0x00000104 = .ok (.desDec 1) ∧
    decode 0x00000805 = .ok (.desBsize 8) := by decide

theorem test_decode_tdes :
    decode 0x00001011 = .ok (.tdesSetek 0 .ede3) ∧ decode 0x00003112 = .ok (.tdesSetdk 1 .ede2) ∧
    decode 0x00002411 = .ok (.tdesSetek 4 .eee2) ∧ decode 0x00000012 = .ok (.tdesSetdk 0 .eee3) ∧
    decode 0x00000013 = .ok (.tdesEnc 0) ∧ decode 0x00000314 = .ok (.tdesDec 3) ∧
    decode 0x00000015 = .ok (.tdesBsize 0) := by decide

theorem test_decode_adapter :
    decode 0x00001021 = .ok (.encBytes .tdes 0) ∧ decode 0x00000522 = .ok (.decBytes .des 5) ∧
    decode 0x00000023 = .ok (.encFile .des 0) ∧ decode 0x00001F24 = .ok (.decFile .tdes 15) := by decide

theorem test_decode_rc4 :
    decode 0x00000231 = .ok (.rc4Mutate 2) ∧ decode 0x00000032 = .ok (.rc4Encode 0) := by decide

theorem test_decode_bit_primitives :
    decode 0x00001041 = .ok (.permute .one .be) ∧ decode 0x00002041 = .ok (.permute .zero .le) ∧
    decode 0x00000042 = .ok .subst ∧ decode 0x00000043 = .ok .rotl ∧ decode 0x00000044 = .ok .rotr ∧
    decode 0x00000045 = .ok (.mask .and) ∧ decode 0x00001045 = .ok (.mask .or) ∧
    decode 0x00002045 = .ok (.mask .xor) ∧ decode 0x00000046 = .ok .getbit ∧
    decode 0x00001047 = .ok (.setbit true) ∧ decode 0x00000047 = .ok (.setbit false) ∧
    decode 0x00000048 = .ok .getbits ∧ decode 0x00000049 = .ok .swapbits := by decide

/-- The unassigned opcodes at the ends of the gaps of R109. -/
theorem test_decode_refuses_unassigned_opcodes :
    [0x06, 0x10, 0x16, 0x20, 0x25, 0x30, 0x33, 0x40, 0x4A, 0xFF].all
      (fun n => decide (decode (BitVec.ofNat 32 n) = .error .unassignedOpcode)) = true := by decide

/-- The reserved fields of R108 (b) to (e). -/
theorem test_decode_refuses_reserved_fields :
    decode 0x00010003 = .error .reservedNonzero ∧ decode 0x80000000 = .error .reservedNonzero ∧
    decode 0x00001003 = .error .modNonzero ∧ decode 0x00004011 = .error .modNonzero ∧
    decode 0x00002021 = .error .modNonzero ∧ decode 0x00004041 = .error .modNonzero ∧
    decode 0x00002047 = .error .modNonzero ∧ decode 0x00003045 = .error .maskOpReserved ∧
    decode 0x00000100 = .error .ctxNonzero ∧ decode 0x00000141 = .error .ctxNonzero ∧
    decode 0x00000F49 = .error .ctxNonzero := by decide

theorem test_table_word : decodeTableWord 32 0x00001021 = some (.encBytes .tdes 0) ∧
    decodeTableWord 32 0x00003045 = none := by decide

/-! ## One step of every command -/

/-- A state after reset in which a command is latched with the operand registers `r`, BUF holding `B` from 0 on. -/
def running (r : OpRegs) (B : Bytes) : State :=
  { State.reset with
    latch := { valid := true, word := 0, ops := r }
    status := { busy := true, err := false, errcode := 0 }
    regs := r
    buf := cellsAt 0 B }

/-- Operand registers, in the order of R32. -/
def ops (src dst len key klen aux0 aux1 : Word) : OpRegs := ⟨src, dst, len, key, klen, aux0, aux1⟩

/-- n bytes of BUF at an address, RESULT and STATUS after a command; nothing where it stops. -/
def after (o : Host.Outcome State Fault Refusal) (a n : Nat) : Option (Option Bytes × Word × Word) :=
  match o with
  | .next t => some (t.buf.readBytes a n, t.result, t.status.word)
  | _ => none

/-- R150's example: NOP after a failed command (STATUS 0x00000402) leaves STATUS and RESULT 0. -/
theorem test_nop_clears_error :
    after (exec .nop { running (ops 0 0 0 0 0 0 0) [] with status := ⟨true, true, 4⟩, result := 7 }) 0 0 =
      some (some [], 0, 0) := by decide

/-- R190's example: 0xB4 by the table 7..0, zero-based, BE, is 0x2D, RESULT 8. -/
theorem test_permute_reverses :
    after (exec (.permute .zero .be) (running (ops 0 32 1 1 8 0 0)
      [0xB4, 0, 7, 0, 6, 0, 5, 0, 4, 0, 3, 0, 2, 0, 1, 0, 0])) 32 1 = some (some [0x2D], 8, 0) := by decide +kernel

/-- S3 as corrected by C1: the table 0..7 in little-endian order reverses. -/
theorem test_permute_little_endian :
    after (exec (.permute .zero .le) (running (ops 0 32 1 1 8 0 0)
      [0xB4, 0, 0, 0, 1, 0, 2, 0, 3, 0, 4, 0, 5, 0, 6, 0, 7])) 32 1 = some (some [0x2D], 8, 0) := by decide +kernel

/-- R191's example: 0xB4C7 by SB[v] = (¬v) & 7, n = 3, m = 2, is 0xAB20, RESULT 11. -/
theorem test_subst_example :
    after (exec .subst (running (ops 256 300 2 0 0 3 2)
      ((List.range 256).map (fun v => ~~~ BitVec.ofNat 8 v &&& 7) ++ [0xB4, 0xC7]))) 300 2 =
      some (some [0xAB, 0x20], 11, 0) := by decide +kernel

/-- R192's example: 0xB4 rotated left by 3 (and by 11) in 8 bits is 0xA5. -/
theorem test_rotl_example :
    after (exec .rotl (running (ops 0 4 1 0 0 8 3) [0xB4])) 4 1 = some (some [0xA5], 8, 0) ∧
    after (exec .rotl (running (ops 0 4 1 0 0 8 11) [0xB4])) 4 1 = some (some [0xA5], 8, 0) := by decide +kernel

/-- R193's example: 0xB4 rotated right by 3 in 8 bits is 0x96. -/
theorem test_rotr_example :
    after (exec .rotr (running (ops 0 0 1 0 0 8 3) [0xB4])) 0 1 = some (some [0x96], 8, 0) := by decide +kernel

/-- R194's example: 0xCD00 by 0xF000. -/
theorem test_mask_example :
    after (exec (.mask .and) (running (ops 0 4 2 2 2 16 0) [0xCD, 0, 0xF0, 0])) 4 2 =
      some (some [0xC0, 0], 16, 0) ∧
    after (exec (.mask .or) (running (ops 0 4 2 2 2 16 0) [0xCD, 0, 0xF0, 0])) 4 2 =
      some (some [0xFD, 0], 16, 0) ∧
    after (exec (.mask .xor) (running (ops 0 4 2 2 2 16 0) [0xCD, 0, 0xF0, 0])) 4 2 =
      some (some [0x3D, 0], 16, 0) := by decide +kernel

/-- R195's example: bits 0 and 1 of 0xB4, and bit 8 out of range (BIT_RANGE, 6). -/
theorem test_getbit_example :
    after (exec .getbit (running (ops 0 0 1 0 0 0 0) [0xB4])) 0 1 = some (some [0xB4], 1, 0) ∧
    after (exec .getbit (running (ops 0 0 1 0 0 1 0) [0xB4])) 0 1 = some (some [0xB4], 0, 0) ∧
    after (exec .getbit (running (ops 0 0 1 0 0 8 0) [0xB4])) 0 1 = some (some [0xB4], 0, 0x602) := by
  decide +kernel

/-- R196's example: setting bit 1 of 0xB4 gives 0xF4. -/
theorem test_setbit_example :
    after (exec (.setbit true) (running (ops 0 0 1 0 0 1 0) [0xB4])) 0 1 = some (some [0xF4], 0, 0) := by
  decide +kernel

/-- R197's examples: bits 4 to 11 of 0xABCD are 0xBC, bits 3 to 5 are 0x40. -/
theorem test_getbits_example :
    after (exec .getbits (running (ops 0 4 2 0 0 4 11) [0xAB, 0xCD])) 4 1 = some (some [0xBC], 8, 0) ∧
    after (exec .getbits (running (ops 0 4 2 0 0 3 5) [0xAB, 0xCD])) 4 1 = some (some [0x40], 3, 0) := by
  decide +kernel

/-- R198's example: bits 0 and 7 of 0xB4 exchanged give 0x35. -/
theorem test_swapbits_example :
    after (exec .swapbits (running (ops 0 0 1 0 0 0 7) [0xB4])) 0 1 = some (some [0x35], 0, 0) := by
  decide +kernel

/-- The source's key 0x133457799BBCDFF1 and plaintext 0x0123456789ABCDEF. -/
def katKey : Bytes := [0x13, 0x34, 0x57, 0x79, 0x9B, 0xBC, 0xDF, 0xF1]
def katPlain : Bytes := [0x01, 0x23, 0x45, 0x67, 0x89, 0xAB, 0xCD, 0xEF]
def katCipher : Bytes := [0x85, 0xE8, 0x13, 0x54, 0x0F, 0x0A, 0xB4, 0x05]

/-- The round keys of `katKey` as 95_test_vectors.md 2.1 lists them, K[0] to K[15]. -/
def katSchedule : Schedule := #v[#v[0x1B, 0x02, 0xEF, 0xFC, 0x70, 0x72], #v[0x79, 0xAE, 0xD9, 0xDB, 0xC9, 0xE5],
  #v[0x55, 0xFC, 0x8A, 0x42, 0xCF, 0x99], #v[0x72, 0xAD, 0xD6, 0xDB, 0x35, 0x1D],
  #v[0x7C, 0xEC, 0x07, 0xEB, 0x53, 0xA8], #v[0x63, 0xA5, 0x3E, 0x50, 0x7B, 0x2F],
  #v[0xEC, 0x84, 0xB7, 0xF6, 0x18, 0xBC], #v[0xF7, 0x8A, 0x3A, 0xC1, 0x3B, 0xFB],
  #v[0xE0, 0xDB, 0xEB, 0xED, 0xE7, 0x81], #v[0xB1, 0xF3, 0x47, 0xBA, 0x46, 0x4F],
  #v[0x21, 0x5F, 0xD3, 0xDE, 0xD3, 0x86], #v[0x75, 0x71, 0xF5, 0x94, 0x67, 0xE9],
  #v[0x97, 0xC5, 0xD1, 0xFA, 0xBA, 0x41], #v[0x5F, 0x43, 0xB7, 0xF2, 0xE7, 0x3A],
  #v[0xBF, 0x91, 0x8D, 0x3D, 0x3F, 0x0A], #v[0xCB, 0x3D, 0x8B, 0x0E, 0x17, 0xF5]]

/-- The running state with DES context 0 keyed by `katKey` in both directions. -/
def desKeyed (r : OpRegs) (B : Bytes) : State :=
  { running r B with
    des := [{ ekValid := true, ek := katSchedule, dkValid := true, dk := katSchedule.reverse }] }

/-- The first and last round keys of DES context 0 after a command. -/
def ekEnds (o : Host.Outcome State Fault Refusal) (dec : Bool) : Option (List (Bool × Bytes × Bytes)) :=
  match o with
  | .next t => some (t.des.map fun x =>
      let v := if dec then x.dk else x.ek
      (if dec then x.dkValid else x.ekValid, (v.get 0).toList, (v.get 15).toList))
  | _ => none

/-- R256's example: ek[0] and ek[15]. -/
theorem test_des_setek_example :
    ekEnds (exec (.desSetek 0) (running (ops 0 0 0 0 8 0 0) katKey)) false =
      some [(true, [0x1B, 0x02, 0xEF, 0xFC, 0x70, 0x72], [0xCB, 0x3D, 0x8B, 0x0E, 0x17, 0xF5])] := by
  decide +kernel

/-- R257's example: dk[0] and dk[15]. -/
theorem test_des_setdk_example :
    ekEnds (exec (.desSetdk 0) (running (ops 0 0 0 0 8 0 0) katKey)) true =
      some [(true, [0xCB, 0x3D, 0x8B, 0x0E, 0x17, 0xF5], [0x1B, 0x02, 0xEF, 0xFC, 0x70, 0x72])] := by
  decide +kernel

/-- R258's example, the source's known-answer vector. -/
theorem test_des_enc_example :
    after (exec (.desEnc 0) (desKeyed (ops 0 8 0 0 0 0 0) katPlain)) 8 8 = some (some katCipher, 0, 0) := by
  decide +kernel

/-- R259's example. -/
theorem test_des_dec_example :
    after (exec (.desDec 0) (desKeyed (ops 0 0 0 0 0 0 0) katCipher)) 0 8 = some (some katPlain, 0, 0) := by
  decide +kernel

/-- R260, R290: 8, keyed or not; context 1 is BAD_CTX (2). -/
theorem test_bsize_examples :
    after (exec (.desBsize 0) (running (ops 0 0 0 0 0 0 0) [])) 0 0 = some (some [], 8, 0) ∧
    after (exec (.tdesBsize 0) (running (ops 0 0 0 0 0 0 0) [])) 0 0 = some (some [], 8, 0) ∧
    after (exec (.desBsize 1) (running (ops 0 0 0 0 0 0 0) [])) 0 0 = some (some [], 0, 0x202) := by decide

/-- The key of R288's example. -/
def tdesKey : Bytes :=
  [0x01, 0x23, 0x45, 0x67, 0x89, 0xAB, 0xCD, 0xEF, 0x23, 0x45, 0x67, 0x89, 0xAB, 0xCD, 0xEF, 0x01,
   0x45, 0x67, 0x89, 0xAB, 0xCD, 0xEF, 0x01, 0x23]

/-- The running state with Triple-DES context 0 keyed as in R288's example, in both directions. -/
def tdesKeyed (r : OpRegs) (B : Bytes) : State :=
  { running r B with tdes := [{ e := tdesKeySet .ede3 tdesKey, d := tdesKeySet .ede3 tdesKey }] }

/-- The plain text and the cipher text of R288's example. -/
def tdesPlain : Bytes := [0x54, 0x68, 0x65, 0x20, 0x71, 0x75, 0x66, 0x63]

def tdesCipher : Bytes := [0xA8, 0x26, 0xFD, 0x8C, 0xE5, 0x3B, 0x85, 0x5F]

/-- The two blocks between the stages. -/
def tdesMid1 : Bytes := [0xA2, 0x8E, 0x91, 0x72, 0x4C, 0x4B, 0xBA, 0x31]

def tdesMid2 : Bytes := [0x5A, 0x2E, 0xA7, 0xF9, 0x83, 0xA2, 0xF5, 0x3F]

/-- The stages of R288's example, forth (E, D, E) and back. -/
theorem test_tdes_stages :
    desEnc (tdesKey.take 8) tdesPlain = .ok tdesMid1 ∧ desDec ((tdesKey.drop 8).take 8) tdesMid1 = .ok tdesMid2 ∧
    desEnc (tdesKey.drop 16) tdesMid2 = .ok tdesCipher ∧ desDec (tdesKey.drop 16) tdesCipher = .ok tdesMid2 ∧
    desEnc ((tdesKey.drop 8).take 8) tdesMid2 = .ok tdesMid1 ∧ desDec (tdesKey.take 8) tdesMid1 = .ok tdesPlain := by
  decide +kernel

/-- The key set of the example applied to its blocks. -/
theorem tdesKeySet_blocks :
    tdesEncWith (tdesKeySet .ede3 tdesKey) tdesPlain = .ok tdesCipher ∧
    tdesDecWith (tdesKeySet .ede3 tdesKey) tdesCipher = .ok tdesPlain := by
  obtain ⟨h1, h2, h3, h4, h5, h6⟩ := test_tdes_stages
  have hk : (tdesKeySet .ede3 tdesKey).k1.toList = tdesKey.take 8 ∧
      (tdesKeySet .ede3 tdesKey).k2.toList = (tdesKey.drop 8).take 8 ∧
      (tdesKeySet .ede3 tdesKey).k3.toList = tdesKey.drop 16 ∧ (tdesKeySet .ede3 tdesKey).mode = .ede3 := by decide
  simp only [tdesEncWith, tdesDecWith, hk, tdesEncF, tdesDecF, stage, h1, h2, h3, h4, h5, h6, and_self]

/-- R288's example: 0x5468652071756663 gives 0xA826FD8CE53B855F; R289's, the other way. -/
theorem test_tdes_block_examples :
    after (exec (.tdesEnc 0) (tdesKeyed (ops 0 8 0 0 0 0 0) tdesPlain)) 8 8 = some (some tdesCipher, 0, 0) ∧
    after (exec (.tdesDec 0) (tdesKeyed (ops 0 8 0 0 0 0 0) tdesCipher)) 8 8 = some (some tdesPlain, 0, 0) := by
  have he : exec (.tdesEnc 0) (tdesKeyed (ops 0 8 0 0 0 0 0) tdesPlain) =
      finish (tdesKeyed (ops 0 8 0 0 0 0 0) tdesPlain)
        (withValue (tdesEncWith (tdesKeySet .ede3 tdesKey) tdesPlain) fun O => .ok 0 [(8, O)] .unchanged) := rfl
  have hd : exec (.tdesDec 0) (tdesKeyed (ops 0 8 0 0 0 0 0) tdesCipher) =
      finish (tdesKeyed (ops 0 8 0 0 0 0 0) tdesCipher)
        (withValue (tdesDecWith (tdesKeySet .ede3 tdesKey) tdesCipher) fun O => .ok 0 [(8, O)] .unchanged) := rfl
  rw [he, hd, tdesKeySet_blocks.1, tdesKeySet_blocks.2]
  decide +kernel

/-- The key sets of Triple-DES context 0 after a command. -/
def tdesSets (o : Host.Outcome State Fault Refusal) : Option (List TdesCtx) :=
  match o with
  | .next t => some t.tdes
  | _ => none

/-- R286, R281: EDE3 splits 24 bytes; a 24-byte key with a two-key mode is KEY_LENGTH (4). -/
theorem test_tdes_setek_splits_key :
    tdesSets (exec (.tdesSetek 0 .ede3) (running (ops 0 0 0 0 24 0 0) tdesKey)) =
      some [{ e := ⟨true, .ede3, #v[0x01, 0x23, 0x45, 0x67, 0x89, 0xAB, 0xCD, 0xEF],
                #v[0x23, 0x45, 0x67, 0x89, 0xAB, 0xCD, 0xEF, 0x01],
                #v[0x45, 0x67, 0x89, 0xAB, 0xCD, 0xEF, 0x01, 0x23]⟩, d := TdesKeys.unkeyed }] ∧
    after (exec (.tdesSetek 0 .ede2) (running (ops 0 0 0 0 24 0 0) tdesKey)) 0 0 = some (some [], 0, 0x402) := by
  decide +kernel

/-- R287, R281: a two-key mode reuses the first key. -/
theorem test_tdes_setdk_reuses_first_key :
    tdesSets (exec (.tdesSetdk 0 .eee2) (running (ops 0 0 0 0 16 0 0) (tdesKey.take 16))) =
      some [{ e := TdesKeys.unkeyed
              d := ⟨true, .eee2, #v[0x01, 0x23, 0x45, 0x67, 0x89, 0xAB, 0xCD, 0xEF],
                #v[0x23, 0x45, 0x67, 0x89, 0xAB, 0xCD, 0xEF, 0x01],
                #v[0x01, 0x23, 0x45, 0x67, 0x89, 0xAB, 0xCD, 0xEF]⟩ }] := by decide +kernel

/-- R334's example: one block; and LEN = 12 is LENGTH_ALIGN (5). -/
theorem test_enc_bytes_example :
    after (exec (.encBytes .des 0) (desKeyed (ops 0 16 8 0 0 0 0) katPlain)) 16 8 = some (some katCipher, 0, 0) ∧
    after (exec (.encBytes .des 0) (desKeyed (ops 0 16 12 0 0 0 0) (katPlain ++ katPlain))) 0 0 =
      some (some [], 0, 0x502) := by decide +kernel

/-- R335's example. -/
theorem test_dec_bytes_example :
    after (exec (.decBytes .des 0) (desKeyed (ops 0 0 8 0 0 0 0) katCipher)) 0 8 = some (some katPlain, 0, 0) := by
  decide +kernel

/-- R337: a block is encrypted and the tail is copied. -/
theorem test_enc_file_copies_tail :
    after (exec (.encFile .des 0) (desKeyed (ops 0 16 11 0 0 0 0) (katPlain ++ [0x73, 0x20, 0x6F]))) 16 11 =
      some (some (katCipher ++ [0x73, 0x20, 0x6F]), 0, 0) := by decide +kernel

/-- R338: the tail is copied in this direction too; less than a block is copied whole, but only when keyed (3). -/
theorem test_dec_file_short :
    after (exec (.decFile .des 0) (desKeyed (ops 0 8 3 0 0 0 0) [1, 2, 3])) 8 3 = some (some [1, 2, 3], 0, 0) ∧
    after (exec (.decFile .des 0) (running (ops 0 8 3 0 0 0 0) [1, 2, 3])) 8 3 = some (none, 0, 0x302) := by
  decide +kernel

/-- The first bytes of S and the cursors of RC4 context 0 after a command. -/
def rc4Head (o : Host.Outcome State Fault Refusal) : Option (List (Bool × Bytes × Byte × Byte)) :=
  match o with
  | .next t => some (t.rc4.map fun x => (x.valid, x.S.toList.take 8, x.i, x.j))
  | _ => none

/-- R315's example: key {1, 2, 3}; and R316's: {10, 20, 30, 40} from the state of that key, and the cursors after it. -/
theorem test_rc4_examples :
    let s := { running (ops 0 4 4 0 0 0 0) [10, 20, 30, 40] with rc4 := [rc4Keyed (rc4KSA [1, 2, 3])] }
    rc4Head (exec (.rc4Mutate 0) (running (ops 0 0 0 0 3 0 0) [1, 2, 3])) =
      some [(true, [173, 3, 237, 9, 183, 213, 60, 39], 0, 0)] ∧
    after (exec (.rc4Encode 0) s) 4 4 = some (some [157, 34, 145, 64], 0, 0) ∧
    (rc4Head (exec (.rc4Encode 0) s)).map (fun l => l.map fun x => (x.2.2.1, x.2.2.2)) = some [(4, 170)] := by
  decide +kernel

/-- R71: a command that passes its checks and reads an unwritten byte stops. -/
theorem test_unwritten_input_faults :
    exec .getbit (running (ops 0 0 2 0 0 0 0) [0xB4]) = .fault .uninitRead := by rfl

/-- The first step after reset with a word placed performs it (MASK xor, all operands 0): RESULT 0, STATUS 0. -/
theorem test_first_step_after_reset :
    after (step (State.reset.withFetchWord 32 0x2045)) 0 0 = some (some [], 0, 0) ∧
    after (step (State.reset.withFetchWord 32 0x3045)) 0 0 = some (some [], 0, 0x102) := by decide

/-- R121, R122: `run DES_SETEK 2` is the CMD write and the poll loop on itself; `des.key` sets KEY and KLEN first; a
context number above 15 is no statement, and a BIT needs its label. -/
theorem test_assembler :
    assemble 0x20000 [.run (.desSetek 2), .label 7, .bit 3 7] =
      some [.write .w32 0x20000 0x201, .read .w32 0x20004, .bit 0 1, .bit 3 3] ∧
    assemble 0 [.desKey 1 0x10] =
      some [.write .w32 0x02C 0x10, .write .w32 0x030 8, .write .w32 0 0x101, .read .w32 4, .bit 0 3,
        .write .w32 0 0x102, .read .w32 4, .bit 0 6] ∧
    assemble 0 [.wrbuf 4 [0xAB, 0xCD]] = some [.write .w8 0x10004 0xAB, .write .w8 0x10005 0xCD] ∧
    assemble 0 [.command (.desSetek 16)] = none ∧ assemble 0 [.bit 0 1] = none := by decide

/-! ## Witnesses for the hypotheses of the statements

Each theorem `witness_<Name>` gives values that meet the hypotheses of `Obligations.<Name>`, clause by clause, at the
ends of their ranges. -/

/-- An idle core after reset, with BUF written from address `a` on. -/
def idleAt (a : Nat) (B : Bytes) : State := { State.reset with buf := cellsAt a B }

/-- A busy core with a latched word. -/
def busyWith (w : Word) : State := { State.reset.issue w with schedule := [] }

/-- A command reads a byte that was not written, where BUF is empty and one of its regions is not. -/
theorem inputs_unwritten {i : Instr} {s : State} (h : s.buf = [])
    (hr : (readRegions i s).any (fun r => decide (0 < r.2)) = true) : ¬ InputsWritten i s := by
  obtain ⟨r, hm, hp⟩ := List.any_eq_true.1 hr
  intro hw
  have := hw r hm r.1 (Nat.le_refl _) (Nat.lt_add_of_pos_right (of_decide_eq_true hp))
  rw [h] at this
  simp [Memory.read] at this

theorem witness_DecodeInvertsEncode :
    decode 0x00003F12 = .ok (.tdesSetdk 15 .ede2) ∧ (Instr.tdesSetdk 15 .ede2).wf = true ∧
    encode (.tdesSetdk 15 .ede2) = 0x00003F12 := by decide

theorem witness_LegalWordsDecodeToOneCommand :
    LegalWord 0x00003F12 ∧ LegalWord 0x00000000 ∧ ¬ LegalWord 0x00003045 ∧ ¬ LegalWord 0x00010000 := by
  unfold LegalWord; decide

theorem witness_CoreTurnRunsLatchedCommand :
    ((busyWith 0).latch.valid = true ∧ decode (busyWith 0).latch.word = .ok .nop ∧ (busyWith 0).schedule = []) ∧
    ({ busyWith 0 with schedule := [.core] } : State).schedule = .core :: [] ∧
    (State.reset.latch.valid = false ∧ ({ State.reset with schedule := [.core] } : State).schedule = .core :: []) := by
  decide

theorem witness_IllegalWordFailsAlone :
    (busyWith 0x3045).latch.valid = true ∧ (busyWith 0x3045).schedule = [] ∧
    ¬ LegalWord (busyWith 0x3045).latch.word := by unfold LegalWord; decide

/-- A host in its poll loop while a NOP is latched, with three host turns before the core's. -/
def pollState : State :=
  { busyWith 0 with
    schedule := List.replicate 3 .host
    host := { prog := [.read .w32 4, .bit 0 0], pc := 0, last := 0 } }

theorem witness_PollLoopEnds :
    pollState.schedule = List.replicate 3 .host ∧ pollState.latch.valid = true ∧ pollState.status.busy = true ∧
    pollState.host.pc = 0 ∧ pollState.host.prog[0]? = some (.read .w32 (pollState.coreBase + 4)) ∧
    pollState.host.prog[0 + 1]? = some (.bit 0 0) ∧
    performLatched pollState = .next (pollState.completed 0) := by
  refine ⟨rfl, rfl, rfl, rfl, rfl, rfl, rfl⟩

theorem witness_ResetValues : State.reset = State.resetWith ⟨12, 1, 1, 1, 0⟩ := rfl

theorem witness_ResetTurnResetsCore :
    ({ busyWith 0 with schedule := [.reset, .core] } : State).schedule = .reset :: [.core] := rfl

theorem witness_ResetMeetsInvariant :
    Params.wf ⟨8, 1, 16, 1, 0⟩ = true ∧ Params.wf ⟨16, 16, 1, 16, 0x20000⟩ = true := by decide

/-- A machine that is not the reset state meets the invariant and steps: a keyed RC4 context, a latched NOP. -/
theorem witness_StepKeepsInvariant :
    ∃ s t : State, s.Inv ∧ s.buf ≠ [] ∧ s.latch.valid = true ∧ step s = .next t := by
  refine ⟨{ busyWith 0 with buf := [(4095, 7)] }, _, ⟨by decide, ⟨?_, ?_⟩, rfl, ?_, ?_, ?_, ?_⟩, by simp, rfl, rfl⟩
  · decide
  · decide
  · unfold State.statusWf; decide
  · intro x hx
    obtain rfl : x = DesCtx.unkeyed := List.eq_of_mem_replicate hx
    exact ⟨fun h => absurd h (by decide), fun h => absurd h (by decide)⟩
  · intro x hx
    obtain rfl : x = TdesCtx.unkeyed := List.eq_of_mem_replicate hx
    exact ⟨fun h => absurd h (by decide), fun h => absurd h (by decide)⟩
  · intro x hx h
    obtain rfl : x = Rc4Ctx.unkeyed := List.eq_of_mem_replicate hx
    exact absurd h (by decide)

theorem witness_CmdWriteIssues : State.reset.status.busy = false := rfl

theorem witness_OperandRegistersReadBack :
    0x020 ∈ [0x020, 0x024, 0x028, 0x02C, 0x030, 0x034, 0x038] ∧
    0x038 ∈ [0x020, 0x024, 0x028, 0x02C, 0x030, 0x034, 0x038] ∧ 0xFFFF < 0x10000 ∧ 0x020 ≠ 0x024 := by decide

/-- R34, R36: the offsets of the operand registers, and STATUS 0x00000402 after a failed KEY_LENGTH check. -/
theorem test_register_map :
    State.reset.busWrite .w32 0x024 7 = .next { State.reset with regs := { OpRegs.zero with dst := 7 } } ∧
    ({ State.reset with regs := ops 1 2 3 4 5 6 7 } : State).busRead .w32 0x034 =
      .next (6, { State.reset with regs := ops 1 2 3 4 5 6 7 }) ∧
    (⟨false, true, 4⟩ : Status).word = 0x00000402 := ⟨rfl, rfl, by decide⟩

theorem witness_RegisterSpaceAccesses :
    (0xFFFC < 0x10000 ∧ 0xFFFC % 4 = 0) ∧ ¬ (Width.w8 = .w32 ∧ 0 % 4 = 0) ∧ ¬ (Width.w32 = .w32 ∧ 2 % 4 = 0) ∧
    (0x1FFFC % 4 = 0 ∧ 0x1FFFC < 0x20000 ∧
      ¬ (0x10000 ≤ 0x1FFFC ∧ 0x1FFFC < 0x10000 + State.reset.bufSize)) ∧
    (0x014 ∉ [0x000, 0x004, 0x008, 0x00C, 0x010, 0x020, 0x024, 0x028, 0x02C, 0x030, 0x034, 0x038]) ∧
    State.reset.coreBase + 0x20000 ≤ 0x20000 := by decide

theorem witness_IdCapsAndHardwiredBits :
    State.reset.params.wf = true ∧ 0x004 ∈ [0x004, 0x008, 0x00C, 0x010] ∧ 0x010 ∈ [0x004, 0x008, 0x00C, 0x010] ∧
    State.reset.busWrite .w32 0x004 0xFFFFFFFF = .next State.reset := ⟨by decide, by decide, by decide, rfl⟩

theorem witness_BufWindowAccesses :
    let s := idleAt 4092 [1, 2, 3, 4]
    s.status.busy = false ∧ (4095 < s.bufSize ∧ s.buf.read 4095 = some 4) ∧
    (4092 % 4 = 0 ∧ 4092 < s.bufSize ∧ s.buf.read 4092 = some 1 ∧ s.buf.read (4092 + 1) = some 2 ∧
      s.buf.read (4092 + 2) = some 3 ∧ s.buf.read (4092 + 3) = some 4) ∧
    (4094 < s.bufSize ∧ Width.w32 = .w32 ∧ 4094 % 4 ≠ 0) := by decide

theorem witness_BusyHazards :
    (busyWith 0).status.busy = true ∧ 4095 < (busyWith 0).bufSize ∧
    (Width.w32 = .w8 ∨ (Width.w32 = .w32 ∧ 4092 % 4 = 0)) := by decide

theorem witness_RegisterAccessWhileBusy :
    (busyWith 0).status.busy = true ∧ (0 < 4 ∧ 4 < 0x10000 ∧ 4 % 4 = 0) ∧ (0 ≠ 0x004) ∧
    (busyWith 0).busWrite .w32 0x020 5 = .next { busyWith 0 with regs := { OpRegs.zero with src := 5 } } :=
  ⟨rfl, by decide, by decide, rfl⟩

theorem witness_UnwrittenByteReadFaults :
    (firstFailed (commandChecks .getbit (running (ops 4095 0 1 0 0 7 0) [])) = none ∧
      ¬ InputsWritten .getbit (running (ops 4095 0 1 0 0 7 0) [])) ∧
    ((idleAt 4092 [1, 2, 3]).status.busy = false ∧ 4092 < (idleAt 4092 [1, 2, 3]).bufSize ∧
      3 < Width.bytes .w32 ∧ (idleAt 4092 [1, 2, 3]).buf.read (4092 + 3) = none) ∧
    (∃ t, State.reset.busWrite .w8 (0x10000 + 4095) 1 = .next t ∧ 0 < Width.bytes .w8) :=
  ⟨⟨by decide, inputs_unwritten rfl (by decide)⟩, by decide, _, rfl, by decide⟩

/-- Two machines that differ in the contents of DES context 0 alone. -/
theorem witness_ContextsHiddenFromHost :
    let u := { State.reset with des := [{ DesCtx.unkeyed with ekValid := true }] }
    u = { State.reset with des := u.des, tdes := u.tdes, rc4 := u.rc4 } ∧ u ≠ State.reset ∧
    u.des.length = State.reset.des.length ∧ u.tdes.length = State.reset.tdes.length ∧
    u.rc4.length = State.reset.rc4.length ∧ State.reset.busRead .w32 0x004 = .next (0, State.reset) ∧
    State.reset.busRead .w8 0x10FFF = .fault .uninitRead ∧ State.reset.busWrite .w32 0x004 0 = .next State.reset ∧
    (∃ t, step (running (ops 0 0 0 0 8 0 0) []) = .next t) :=
  ⟨rfl, by decide, rfl, rfl, rfl, rfl, rfl, rfl, _, rfl⟩

/-- For NOP, which names no context, every context may differ. -/
theorem witness_OtherContextsUntouchedAndUnread :
    (∃ t, SameButOtherContexts .nop State.reset { State.reset with des := [{ DesCtx.unkeyed with ekValid := true }] } ∧
      exec .nop State.reset = .next t) ∧
    (SameButOtherContexts .getbit (running (ops 0 0 1 0 0 0 0) []) (running (ops 0 0 1 0 0 0 0) []) ∧
      exec .getbit (running (ops 0 0 1 0 0 0 0) []) = .fault .uninitRead) ∧
    namesDes (.encBytes .des 3) 3 ∧ namesTdes (.encBytes .tdes 3) 3 ∧ namesRc4 (.rc4Encode 15) 15 := by
  refine ⟨⟨_, ⟨rfl, rfl, rfl, rfl, ?_, fun _ _ => rfl, fun _ _ => rfl⟩, rfl⟩,
    ⟨⟨rfl, rfl, rfl, rfl, fun _ _ => rfl, fun _ _ => rfl, fun _ _ => rfl⟩, rfl⟩, ?_, ?_, ?_⟩
  · intro c h; simp [namesDes] at h
  · simp [namesDes]
  · simp [namesTdes]
  · simp [namesRc4]

theorem witness_OperandRegistersOnlyHostWritten :
    exec .nop State.reset = .next (State.reset.completed 0) ∧
    (∃ t, step { State.reset with host := { prog := [.write .w32 0x020 5], pc := 0, last := 0 } } = .next t ∧
      t.regs ≠ State.reset.regs) ∧
    (∃ t, step { running (ops 1 0 0 0 0 0 0) [] with schedule := [.reset] } = .next t ∧
      t.regs ≠ ops 1 0 0 0 0 0 0) ∧
    (0 < 0x038 ∧ 0x038 < 0x10000 ∧ 0x038 % 4 = 0) :=
  ⟨rfl, ⟨_, rfl, by decide⟩, ⟨_, rfl, by decide⟩, by decide⟩

theorem witness_CommandFrame :
    exec .nop State.reset = .next (State.reset.completed 0) ∧ ¬ storesTo .nop State.reset 0 ∧
    (∃ t, exec (.desSetek 0) (running (ops 0 0 0 4088 8 0 0) []) = .fault .uninitRead ∧
      exec (.desSetek 0) (running (ops 0 0 0 4089 8 0 0) []) = .next t ∧
      t.des[0]? = some DesCtx.unkeyed ∧ State.reset.des[0]? = some DesCtx.unkeyed) ∧
    (∃ t, exec (.tdesSetek 0 .ede2) (running (ops 0 0 0 0 16 0 0) (tdesKey.take 16)) = .next t ∧
      (t.tdes[0]?).isSome = true) :=
  ⟨rfl, fun h => h, ⟨_, rfl, rfl, rfl, rfl⟩, ⟨_, rfl, rfl⟩⟩

/-- KLEN = 0 fails KEY_LENGTH. -/
theorem witness_FailedCommandChangesOnlyStatus :
    ∃ t, exec (.desSetek 0) State.reset = .next t ∧ t.status.err = true := ⟨_, rfl, rfl⟩

theorem witness_FirstFailedCheckDecides :
    ((busyWith 0x3045).latch.valid = true ∧ (busyWith 0x3045).schedule = []) ∧
    ((busyWith 0x01).latch.valid = true ∧ decode (busyWith 0x01).latch.word = .ok (.desSetek 0) ∧
      firstFailed (commandChecks (.desSetek 0) (busyWith 0x01)) = some 4) ∧
    (decode (busyWith 0x00).latch.word = .ok .nop ∧ firstFailed (commandChecks .nop (busyWith 0x00)) = none ∧
      InputsWritten .nop (busyWith 0x00)) ∧
    (decode (busyWith 0x42).latch.word = .ok .subst ∧
      firstFailed (commandChecks .subst (busyWith 0x42)) = none ∧ ¬ InputsWritten .subst (busyWith 0x42)) :=
  ⟨by decide, by decide, ⟨by decide, by decide, by simp [InputsWritten, readRegions]⟩,
    by decide, by decide, inputs_unwritten rfl (by decide)⟩

/-! For the statements about single commands: a state in which the first failing check is as given, one in which all
pass and an input byte is unwritten (where the command has inputs), and one that meets the conditions of success. -/

/-- The failing clause of each `FailsAsChecked`: one failing check for each command, the regions at BUF_SIZE + 1. -/
theorem witness_FailsAsChecked_fails :
    [(Instr.desSetek 1, running (ops 0 0 0 0 8 0 0) [], (2 : Byte)), (.desSetdk 0, running (ops 0 0 0 4089 8 0 0) [], 9),
      (.desEnc 0, running (ops 0 0 0 0 0 0 0) [], 3), (.desDec 0, desKeyed (ops 0 4089 0 0 0 0 0) [], 9),
      (.desBsize 1, State.reset, 2), (.tdesBsize 1, State.reset, 2),
      (.tdesSetek 0 .ede3, running (ops 0 0 0 0 16 0 0) [], 4), (.tdesSetdk 0 .ede2, running (ops 0 0 0 4081 16 0 0) [], 9),
      (.tdesEnc 1, State.reset, 2), (.tdesDec 0, State.reset, 3),
      (.encBytes .des 0, desKeyed (ops 0 0 7 0 0 0 0) [], 5), (.decBytes .tdes 0, State.reset, 3),
      (.encFile .tdes 1, State.reset, 2), (.decFile .des 0, desKeyed (ops 4096 0 1 0 0 0 0) [], 9),
      (.rc4Mutate 0, State.reset, 4), (.rc4Encode 0, State.reset, 3),
      (.permute .one .le, running (ops 0 0 0 4095 1 0 0) [], 9), (.subst, running (ops 0 0 0 0 0 9 0) [], 8),
      (.rotl, running (ops 0 0 1 0 0 9 0) [], 6), (.rotr, running (ops 0 4096 1 0 0 8 0) [], 9),
      (.mask .xor, running (ops 0 0 1 0 1 9 0) [], 7), (.getbit, running (ops 0 0 1 0 0 8 0) [], 6),
      (.setbit true, running (ops 4096 0 1 0 0 7 0) [], 9), (.getbits, running (ops 0 0 1 0 0 0 8) [], 6),
      (.swapbits, running (ops 0 0 1 0 0 0 8) [], 6)].all
      (fun p => decide (firstFailed (commandChecks p.1 p.2.1) = some p.2.2)) = true := by decide +kernel

/-- One state for each command in which all checks pass, the regions end at BUF_SIZE and BUF is empty. -/
def unwrittenCases : List (Instr × State) :=
  [(Instr.desSetek 0, running (ops 0 0 0 4088 8 0 0) []), (.desSetdk 0, running (ops 0 0 0 4088 8 0 0) []),
    (.desEnc 0, desKeyed (ops 4088 4088 0 0 0 0 0) []), (.desDec 0, desKeyed (ops 4088 4088 0 0 0 0 0) []),
    (.tdesSetek 0 .ede3, running (ops 0 0 0 4072 24 0 0) []), (.tdesSetdk 0 .ede2, running (ops 0 0 0 4080 16 0 0) []),
    (.tdesEnc 0, tdesKeyed (ops 4088 4088 0 0 0 0 0) []), (.tdesDec 0, tdesKeyed (ops 4088 4088 0 0 0 0 0) []),
    (.encBytes .des 0, desKeyed (ops 4088 0 8 0 0 0 0) []), (.decBytes .tdes 0, tdesKeyed (ops 0 4088 8 0 0 0 0) []),
    (.encFile .des 0, desKeyed (ops 4095 0 1 0 0 0 0) []), (.decFile .tdes 0, tdesKeyed (ops 0 4095 1 0 0 0 0) []),
    (.rc4Mutate 0, running (ops 0 0 0 4095 1 0 0) []),
    (.rc4Encode 0, { running (ops 4095 0 1 0 0 0 0) [] with rc4 := [rc4Keyed ⟨sIdentity, 0, 0⟩] }),
    (.permute .zero .be, running (ops 4095 0 1 0 0 0 0) []), (.subst, running (ops 0 0 0 3840 0 0 0) []),
    (.rotl, running (ops 4095 0 1 0 0 8 0) []), (.rotr, running (ops 4095 0 1 0 0 0 0) []),
    (.mask .and, running (ops 4095 0 1 0 0 0 0) []), (.getbit, running (ops 4095 0 1 0 0 7 0) []),
    (.setbit false, running (ops 4095 0 1 0 0 7 0) []), (.getbits, running (ops 4095 0 1 0 0 1 0) []),
    (.swapbits, running (ops 4095 0 1 0 0 8 8) [])]

/-- The unwritten clause of each `FailsAsChecked` is met in `unwrittenCases`. -/
theorem witness_FailsAsChecked_unwritten :
    ∀ p ∈ unwrittenCases, firstFailed (commandChecks p.1 p.2) = none ∧ ¬ InputsWritten p.1 p.2 := by
  have h : unwrittenCases.all (fun p => decide (firstFailed (commandChecks p.1 p.2) = none) && p.2.buf.isEmpty &&
      (readRegions p.1 p.2).any (fun r => decide (0 < r.2))) = true := by decide +kernel
  intro p hp
  have hp' := List.all_eq_true.1 h p hp
  simp only [Bool.and_eq_true, decide_eq_true_eq, List.isEmpty_iff] at hp'
  exact ⟨hp'.1.1, inputs_unwritten hp'.1.2 hp'.2⟩

/-- The success conditions of NOP hold everywhere; those of DES_BSIZE and TDES_BSIZE at the last context. -/
theorem witness_BlockSizeCommandsGiveEight :
    15 < 16 ∧ 0 < State.reset.des.length ∧ 0 < State.reset.tdes.length := by decide

theorem witness_NopClearsErrors :
    (0x00000100#32).toNat % 256 = 0 ∧ (0x00000100 : Word) ≠ 0 := by decide

theorem witness_DesKeySettersInstallSchedules :
    let s := { running (ops 0 0 0 4088 8 0 0) [] with buf := cellsAt 4088 katKey }
    s.des[0]? = some DesCtx.unkeyed ∧ s.opKlen = 8 ∧ s.opKey + 8 ≤ s.bufSize ∧
    s.buf.readBytes s.opKey 8 = some katKey := by decide +kernel

theorem witness_DesBlockCommandsTransform :
    let s := { desKeyed (ops 4088 4088 0 0 0 0 0) [] with buf := cellsAt 4088 katPlain };
    (∃ x, s.des[0]? = some x ∧ x.ekValid = true ∧ x.dkValid = true) ∧ s.opSrc + 8 ≤ s.bufSize ∧
    s.opDst + 8 ≤ s.bufSize ∧ s.buf.readBytes s.opSrc 8 = some katPlain :=
  ⟨⟨_, rfl, rfl, rfl⟩, by decide +kernel, by decide +kernel, by decide +kernel⟩

theorem witness_TdesKeySettersInstallKeys :
    let s := { running (ops 0 0 0 4072 24 0 0) [] with buf := cellsAt 4072 tdesKey };
    (TdesMode.ede3, 1, 24) ∈ [(TdesMode.eee3, 0, 24), (.ede3, 1, 24), (.eee2, 2, 16), (.ede2, 3, 16)] ∧
    s.tdes[0]? = some TdesCtx.unkeyed ∧ s.opKlen = 24 ∧ s.opKey + s.opKlen ≤ s.bufSize ∧
    s.buf.readBytes s.opKey s.opKlen = some tdesKey := by decide +kernel

theorem witness_TdesBlockCommandsTransform :
    let s := { tdesKeyed (ops 4088 0 0 0 0 0 0) [] with buf := cellsAt 4088 katPlain };
    (∃ x, s.tdes[0]? = some x ∧ x.e.valid = true ∧ x.d.valid = true) ∧ s.opSrc + 8 ≤ s.bufSize ∧
    s.opDst + 8 ≤ s.bufSize ∧ s.buf.readBytes s.opSrc 8 = some katPlain :=
  ⟨⟨_, rfl, rfl, rfl⟩, by decide +kernel, by decide +kernel, by decide +kernel⟩

/-- Both kinds keyed in both directions, a region of one block at the end of BUF. -/
theorem witness_BufferCommandsTransformBlocks :
    let s := { desKeyed (ops 4088 4088 8 0 0 0 0) [] with
      buf := cellsAt 4088 katPlain, tdes := (tdesKeyed (ops 0 0 0 0 0 0 0) []).tdes };
    (CipherKind.tdes, 1) ∈ [(CipherKind.des, 0), (.tdes, 1)] ∧ s.opLen % 8 = 0 ∧ s.opSrc + s.opLen ≤ s.bufSize ∧
    s.opDst + s.opLen ≤ s.bufSize ∧ s.buf.readBytes s.opSrc s.opLen = some katPlain ∧
    (∃ x, s.des[0]? = some x ∧ x.ekValid = true ∧ x.dkValid = true) ∧
    (∃ x, s.tdes[0]? = some x ∧ x.e.valid = true ∧ x.d.valid = true) :=
  ⟨by decide, by decide, by decide +kernel, by decide +kernel, by decide +kernel, ⟨_, rfl, rfl, rfl⟩, ⟨_, rfl, rfl, rfl⟩⟩

/-- The same with a length that is no whole number of blocks. -/
theorem witness_FileCommandsTransformChunks :
    let s := { desKeyed (ops 4093 4093 3 0 0 0 0) [] with
      buf := cellsAt 4093 [1, 2, 3], tdes := (tdesKeyed (ops 0 0 0 0 0 0 0) []).tdes }
    s.opSrc + s.opLen ≤ s.bufSize ∧ s.opDst + s.opLen ≤ s.bufSize ∧
    s.buf.readBytes s.opSrc s.opLen = some [1, 2, 3] ∧
    (∃ x, s.des[0]? = some x ∧ x.ekValid = true ∧ x.dkValid = true) ∧
    (∃ x, s.tdes[0]? = some x ∧ x.e.valid = true ∧ x.d.valid = true) :=
  ⟨by decide +kernel, by decide +kernel, by decide +kernel, ⟨_, rfl, rfl, rfl⟩, ⟨_, rfl, rfl, rfl⟩⟩

theorem witness_Rc4CommandsKeyAndEncode :
    (let s := { running (ops 0 0 0 4095 1 0 0) [] with buf := cellsAt 4095 [7] };
      0 < s.rc4.length ∧ s.opKlen ≠ 0 ∧ s.opKey + s.opKlen ≤ s.bufSize ∧
      s.buf.readBytes s.opKey s.opKlen = some [7]) ∧
    (let s := { running (ops 4095 4095 1 0 0 0 0) [] with
        buf := cellsAt 4095 [7], rc4 := [rc4Keyed ⟨sIdentity, 0, 0⟩] };
      s.rc4[0]? = some (rc4Keyed ⟨sIdentity, 0, 0⟩) ∧ s.opSrc + s.opLen ≤ s.bufSize ∧
      s.opDst + s.opLen ≤ s.bufSize ∧ s.buf.readBytes s.opSrc s.opLen = some [7] ∧
      ∃ t O, rc4Xor ⟨sIdentity, 0, 0⟩ [7] = (t, O)) :=
  ⟨by decide +kernel, rfl, by decide +kernel, by decide +kernel, by decide +kernel, _, _, rfl⟩

theorem witness_PermuteCommandPermutes :
    let s := { running (ops 4095 4095 1 4093 1 0 0) [] with buf := cellsAt 4093 [0, 8, 0xB4] };
    (IndexBase.one, 1) ∈ [(IndexBase.zero, 0), (.one, 1)] ∧ (BitOrder.le, 1) ∈ [(BitOrder.be, 0), (.le, 1)] ∧
    s.opSrc + s.opLen ≤ s.bufSize ∧ s.opKey + 2 * s.opKlen ≤ s.bufSize ∧ s.opDst + ceil8 s.opKlen ≤ s.bufSize ∧
    s.buf.readBytes s.opSrc s.opLen = some [0xB4] ∧ s.buf.readBytes s.opKey (2 * s.opKlen) = some [0, 8] := by
  decide +kernel

theorem witness_SubstCommandSubstitutes :
    let s := { running (ops 4095 4095 1 0 0 8 8) [] with
      buf := cellsAt 0 (List.replicate 256 5) ++ [(4095, 0xB4)] }
    s.opAux0 ≤ 8 ∧ s.opAux1 ≤ 8 ∧ s.opSrc + s.opLen ≤ s.bufSize ∧ s.opKey + 256 ≤ s.bufSize ∧
    s.opDst + (8 + 7) / 8 ≤ s.bufSize ∧ s.buf.readBytes s.opSrc s.opLen = some [0xB4] ∧
    s.buf.readBytes s.opKey 256 = some (List.replicate 256 5) := by decide +kernel

theorem witness_RotateCommandsRotateWindow :
    let s := { running (ops 4095 4095 1 0 0 8 3) [] with buf := cellsAt 4095 [0xB4] };
    (s.opLen = 0 ∨ s.opAux0 = 0 ∨ s.opAux0 ≤ 8 * s.opLen) ∧ s.opSrc + s.opLen ≤ s.bufSize ∧
    s.opDst + (8 + 7) / 8 ≤ s.bufSize ∧ s.buf.readBytes s.opSrc s.opLen = some [0xB4] := by decide +kernel

theorem witness_MaskCommandCombines :
    let s := { running (ops 4094 4094 1 4095 1 8 0) [] with buf := cellsAt 4094 [0xCD, 0xF0] };
    (MaskOp.xor, 2) ∈ [(MaskOp.and, 0), (.or, 1), (.xor, 2)] ∧
    ((0x3045#32).toNat % 256 = 0x45 ∧ (0x3045#32).toNat / 4096 % 4 = 3) ∧
    s.opAux0 ≤ 8 * s.opLen ∧ s.opAux0 ≤ 8 * s.opKlen ∧ s.opSrc + s.opLen ≤ s.bufSize ∧
    s.opKey + s.opKlen ≤ s.bufSize ∧ s.opDst + s.opLen ≤ s.bufSize ∧
    s.buf.readBytes s.opSrc s.opLen = some [0xCD] ∧ s.buf.readBytes s.opKey s.opKlen = some [0xF0] := by
  decide +kernel

theorem witness_SingleBitCommands :
    let s := { running (ops 4095 0 1 0 0 7 0) [] with buf := cellsAt 4095 [0xB4] }
    s.opAux0 < 8 * s.opLen ∧ s.opSrc + s.opLen ≤ s.bufSize ∧ s.buf.readBytes s.opSrc s.opLen = some [0xB4] := by
  decide +kernel

theorem witness_BitRangeAndSwapCommands :
    let s := { running (ops 4095 4095 1 0 0 0 7) [] with buf := cellsAt 4095 [0xB4] }
    s.opSrc + s.opLen ≤ s.bufSize ∧ s.buf.readBytes s.opSrc s.opLen = some [0xB4] ∧
    (s.opAux1 < s.opAux0 ∨ s.opAux1 < 8 * s.opLen) ∧ s.opDst + (8 + 7) / 8 ≤ s.bufSize ∧
    (s.opAux0 = s.opAux1 ∨ s.opLen = 0 ∨ (s.opAux0 < 8 * s.opLen ∧ s.opAux1 < 8 * s.opLen)) := by decide +kernel

/-- One-based entries 0 and 9 are out of range for one byte, entries 1 and 8 are its ends. -/
theorem witness_PermuteOutputBits :
    [0, 1, 8, 9][0]? = some 0 ∧ ((0 : Nat) : Int) - 1 < 0 ∧ (0 : Int) ≤ ((1 : Nat) : Int) - 1 ∧
    ((8 : Nat) : Int) - 1 < (8 * [0xB4#8].length : Int) ∧ (8 * [0xB4#8].length : Int) ≤ ((9 : Nat) : Int) - 1 ∧
    [0, 1, 8, 9].length ≤ 4 := by decide

/-- The four clauses: n = 9, n = 0, m = 0, and n = m = 8; groups and trailing bits for n = 3. -/
theorem witness_SubstOutputBits :
    (List.replicate 256 0#8).length = 256 ∧ (8 < 9 ∨ 8 < 0) ∧ (0 = 0 ∧ 8 ≤ 8) ∧ (8 ≠ 0 ∧ 8 ≤ 8 ∧ 0 = 0) ∧
    (3 ≠ 0 ∧ 3 ≤ 8 ∧ 2 ≠ 0 ∧ 2 ≤ 8 ∧ 0 < 8 * [0xB4#8, 0xC7].length / 3 ∧ 1 < 2 ∧
      0 < 8 * [0xB4#8, 0xC7].length % 3) := by decide +kernel

theorem witness_RotateOutputBits :
    (([] : Bytes) = [] ∨ 0 = 0) ∧ ([0xB4#8] ≠ [] ∧ 9 ≠ 0 ∧ 8 * [0xB4#8].length < 9) ∧
    ([0xB4#8] ≠ [] ∧ 8 ≠ 0 ∧ 8 ≤ 8 * [0xB4#8].length ∧ 7 < 8 ∧ 8 ≤ 8) := by decide

theorem witness_MaskOutputBits :
    (8 * [0xCD#8].length < 9 ∨ 8 * [0xF0#8].length < 9) ∧ (8 ≤ 8 * [0xCD#8].length ∧ 8 ≤ 8 * [0xF0#8].length) ∧
    7 < 8 ∧ 8 ≤ 8 := by decide

theorem witness_BitAccessFunctions :
    (8 * [0xB4#8].length ≤ 8 ∧ 7 < 8 * [0xB4#8].length) ∧ (0 < 1) ∧ (0 ≤ 8 ∧ 8 * [0xB4#8].length ≤ 8) ∧
    (0 ≤ 7 ∧ 7 < 8 * [0xB4#8].length) ∧ (8 = 8 ∨ [0xB4#8] = []) ∧ (0 ≠ 8 ∧ [0xB4#8] ≠ []) ∧
    (0 ≠ 7 ∧ 0 < 8 * [0xB4#8].length) := by decide

theorem witness_BitPrimitiveLaws :
    7 < 8 * [0xB4#8].length ∧ (7 < 8 ∧ 8 ≤ 8 * [0xB4#8].length ∧ 8 = 8 * [0xB4#8].length) ∧ 8 ≤ 8 := by decide

/-- The halves of a recurrence of one round, for the identity as round function (which keeps the width), for one that
does not, and for an odd block. -/
theorem witness_FeistelRoundsFollowRule :
    (∃ (L R : Nat → Bytes), 1 ≤ [[0#8]].length ∧ L 0 = [1#8, 2].take 1 ∧ R 0 = [1#8, 2].drop 1 ∧
      (∀ r, r < 1 → L (r + 1) = R r ∧ R (r + 1) = xorBytes (L r) (R r)) ∧ (∀ r, r < 1 → (R r).length = 1)) ∧
    (∃ (L R : Nat → Bytes), L 0 = [1#8, 2].take 1 ∧ R 0 = [1#8, 2].drop 1 ∧
      (∀ r, r < 1 → L (r + 1) = R r ∧ R (r + 1) = xorBytes (L r) []) ∧ (∃ r, r < 1 ∧ ([] : Bytes).length ≠ 1)) ∧
    [1#8].length % 2 = 1 := by
  refine ⟨⟨fun r => if r = 0 then [1] else [2], fun r => if r = 0 then [2] else [3], ?_⟩,
    ⟨fun r => if r = 0 then [1] else [2], fun r => if r = 0 then [2] else [], ?_⟩, by decide⟩
  · decide
  · decide

theorem witness_FeistelInvertsWithReversedSchedule :
    (∀ half k : Bytes, ((fun h _ => h : Bytes → Bytes → Bytes) half k).length = half.length) ∧
    [[0#8], [1]].length = 2 ∧ [1#8, 2].length % 2 = 0 := ⟨fun _ _ => rfl, rfl, rfl⟩

theorem witness_FinalPermutationInvertsInitial : 63 < 64 ∧ katPlain.length = 8 := by decide

theorem witness_RoundKeysRotateCumulatively :
    ∃ (cd : Bits) (rot : Bits → Nat → Bits), katKey.length = 8 ∧
      cd = unpack (permuteF katKey tablePC1 .be .one) ∧
      ∀ w n, rot w n = w.drop (n % 28) ++ w.take (n % 28) := ⟨_, fun _ _ => _, rfl, rfl, fun _ _ => rfl⟩

theorem witness_RoundFunctionFollowsRule : (katPlain.take 4).length = 4 ∧ (katPlain.take 6).length = 6 := by decide

/-- The halves of the rounds of R253, round by round. -/
def halvesTrace (sched : List Bytes) (X : Bytes) : Nat → Bytes × Bytes
  | 0 => (X.take 4, X.drop 4)
  | r + 1 =>
    let q := halvesTrace sched X r
    (q.2, xorBytes q.1 (desF q.2 (sched.getD r [])))

theorem witness_DesCoreFollowsRule :
    ∃ (L R : Nat → Bytes), (desKS katKey).length = 16 ∧ katPlain.length = 8 ∧
      L 0 = (permuteF katPlain tableIP .be .one).take 4 ∧ R 0 = (permuteF katPlain tableIP .be .one).drop 4 ∧
      ∀ r, r < 16 → L (r + 1) = R r ∧ R (r + 1) = xorBytes (L r) (desF (R r) ((desKS katKey).getD r [])) :=
  ⟨fun r => (halvesTrace (desKS katKey) (permuteF katPlain tableIP .be .one) r).1,
    fun r => (halvesTrace (desKS katKey) (permuteF katPlain tableIP .be .one) r).2,
    rfl, rfl, rfl, rfl, fun _ _ => ⟨rfl, rfl⟩⟩

/-- Two keys that differ in parity bits alone (R255). -/
theorem witness_ParityBitsIgnored :
    katKey.length = 8 ∧ (katKey.map (· ^^^ 1)).length = 8 ∧ katKey ≠ katKey.map (· ^^^ 1) ∧
    ∀ p, p < 64 → p % 8 ≠ 7 → bitAt katKey p = bitAt (katKey.map (· ^^^ 1)) p := by decide +kernel

theorem witness_DesDecryptInvertsEncrypt : katPlain.length = 8 := rfl

theorem witness_TdesDecryptInvertsEncrypt :
    katPlain.length = 8 ∧ (TdesMode.ede3 = .ede3 ∨ TdesMode.ede3 = .ede2) := by decide

/-- The permutation and the running index of key scheduling, position by position. -/
def ksaTrace (key : Bytes) : Nat → Vector Byte 256 × Byte
  | 0 => (sIdentity, 0)
  | p + 1 =>
    let q := ksaTrace key p
    let a := q.2 + sAt q.1 (BitVec.ofNat 8 p) + key.getD (p % key.length) 0
    (sSwap q.1 (BitVec.ofNat 8 p) a, a)

theorem witness_Rc4KeySchedulingFollowsRule :
    ∃ (S : Nat → Vector Byte 256) (a : Nat → Byte), [1#8, 2, 3] ≠ [] ∧ (∀ p : Byte, sAt (S 0) p = p) ∧ a 0 = 0 ∧
      (∀ p, p < 256 → a (p + 1) = a p + sAt (S p) (BitVec.ofNat 8 p) + [1#8, 2, 3].getD (p % 3) 0) ∧
      (∀ p, p < 256 → ∀ q : Byte, sAt (S (p + 1)) q =
        if q = BitVec.ofNat 8 p then sAt (S p) (a (p + 1))
        else if q = a (p + 1) then sAt (S p) (BitVec.ofNat 8 p) else sAt (S p) q) := by
  refine ⟨fun p => (ksaTrace [1, 2, 3] p).1, fun p => (ksaTrace [1, 2, 3] p).2, by decide, ?_, rfl, ?_, ?_⟩
  · intro p
    simp only [ksaTrace]
    simp [sAt, sIdentity, Vector.get_eq_getElem]
  · intro p _
    simp only [ksaTrace]
    rfl
  · intro p _ q
    simp only [ksaTrace]
    simp only [sAt, sSwap, Vector.get_eq_getElem, Vector.getElem_swap, BitVec.toNat_inj]
    rfl

theorem witness_Rc4KeystreamFollowsRule : (∃ u z, rc4Step ⟨sIdentity, 0, 0⟩ = (u, z)) ∧ 0 < [10#8].length :=
  ⟨⟨_, _, rfl⟩, by decide⟩

theorem witness_AdapterWorksBlockByBlock :
    (∀ X : Bytes, (fun X => .ok X : Bytes → Except ErrCode Bytes) X = .ok (id X)) ∧ (List.replicate 12 0#8).length % 8 ≠ 0 ∧
    (List.replicate 16 0#8).length % 8 = 0 := ⟨fun _ => rfl, by decide, by decide⟩

theorem witness_AdapterRoundTripAndSplitting :
    (List.replicate 8 0#8).length % 8 = 0 ∧
    (∃ O, ecbF (fun X => .ok X) (List.replicate 8 0#8) = .ok O) ∧ ∃ P, chunkF (fun X => .ok X) [1, 2, 3] = .ok P :=
  ⟨by decide, ⟨_, rfl⟩, ⟨_, rfl⟩⟩

end Sys2Proof.Tests
end

section
/-! SUPPORT. The statements of 10_state.md: the context a command names (R48), the register block (R32, R34, R40 to
R42), the frame of every command (R33, R47, R76), and what a host access and a step do to the operand registers and
the contexts. -/
namespace Sys2Proof.Machine

/-! ## The context a command names (R48, R102) -/

/-- The three kinds of context (R44 to R46). -/
inductive CtxKind where
  | des | tdes | rc4

/-- The context kind of a cipher an adapter command selects (R330). -/
def CtxKind.ofCipher : CipherKind → CtxKind
  | .des => .des
  | .tdes => .tdes

/-- The one context a command names, where it names one. -/
def ctxNamed : Instr → Option (CtxKind × Nat)
  | .desSetek c | .desSetdk c | .desEnc c | .desDec c | .desBsize c => some (.des, c)
  | .tdesSetek c _ | .tdesSetdk c _ | .tdesEnc c | .tdesDec c | .tdesBsize c => some (.tdes, c)
  | .encBytes k c | .decBytes k c | .encFile k c | .decFile k c => some (.ofCipher k, c)
  | .rc4Mutate c | .rc4Encode c => some (.rc4, c)
  | .nop | .permute _ _ | .subst | .rotl | .rotr | .mask _ | .getbit | .setbit _ | .getbits | .swapbits => none

@[simp] theorem CtxKind.ofCipher_eq_des {k : CipherKind} : CtxKind.ofCipher k = .des ↔ k = .des := by
  cases k <;> simp [CtxKind.ofCipher]
@[simp] theorem CtxKind.ofCipher_eq_tdes {k : CipherKind} : CtxKind.ofCipher k = .tdes ↔ k = .tdes := by
  cases k <;> simp [CtxKind.ofCipher]
@[simp] theorem CtxKind.ofCipher_ne_rc4 {k : CipherKind} : CtxKind.ofCipher k ≠ .rc4 := by
  cases k <;> simp [CtxKind.ofCipher]

theorem namesDes_iff {i : Instr} {c : Nat} : namesDes i c ↔ ctxNamed i = some (.des, c) := by
  cases i <;> simp [namesDes, ctxNamed]

theorem namesTdes_iff {i : Instr} {c : Nat} : namesTdes i c ↔ ctxNamed i = some (.tdes, c) := by
  cases i <;> simp [namesTdes, ctxNamed]
  

theorem namesRc4_iff {i : Instr} {c : Nat} : namesRc4 i c ↔ ctxNamed i = some (.rc4, c) := by
  cases i <;> simp [namesRc4, ctxNamed]

/-- No command names two contexts: the named context is a function of the command. -/
theorem names_at_most_one (i : Instr) (c d : Nat) :
    (namesDes i c → namesDes i d → c = d) ∧ (namesTdes i c → namesTdes i d → c = d) ∧
    (namesRc4 i c → namesRc4 i d → c = d) ∧ (namesDes i c → ¬ namesTdes i d ∧ ¬ namesRc4 i d) ∧
    (namesTdes i c → ¬ namesRc4 i d) := by
  simp only [namesDes_iff, namesTdes_iff, namesRc4_iff]
  have same {p q : CtxKind × Nat} (hp : ctxNamed i = some p) (hq : ctxNamed i = some q) : p = q :=
    Option.some.inj (hp.symm.trans hq)
  exact ⟨fun h h' => congrArg Prod.snd (same h h'), fun h h' => congrArg Prod.snd (same h h'),
    fun h h' => congrArg Prod.snd (same h h'),
    fun h => ⟨fun h' => by simpa using same h h', fun h' => by simpa using same h h'⟩,
    fun h h' => by simpa using same h h'⟩

/-! ## What a command reads of the contexts -/

/-- The context check depends on the context it looks up alone. -/
theorem withCtx_congr {α : Type} {l l' : List α} {c : Nat} {k k' : α → CmdOut} (hl : l'[c]? = l[c]?)
    (hk : ∀ x, k' x = k x) : withCtx l' c k' = withCtx l c k := by
  rw [funext hk, withCtx, withCtx, hl]

/-- Two machines that agree but for contexts that the command does not name show it the same selected cipher. -/
theorem cipherList_congr {i : Instr} {s u : State} {k : CipherKind} {c : Nat} (h : SameButOtherContexts i s u)
    (hi : ctxNamed i = some (.ofCipher k, c)) : (cipherList u k)[c]? = (cipherList s k)[c]? := by
  obtain ⟨-, -, -, -, hdes, htdes, -⟩ := h
  cases k with
  | des => simp [cipherList, hdes c (namesDes_iff.2 hi)]
  | tdes => simp [cipherList, htdes c (namesTdes_iff.2 hi)]

/-- Exec reads no context but the named one: it answers the same on two machines that agree but for the others. -/
theorem commandOut_congr {i : Instr} {s u : State} (h : SameButOtherContexts i s u) :
    commandOut i u = commandOut i s := by
  have hcipher := @cipherList_congr i s u
  obtain ⟨hu, -, -, -, hdes, htdes, hrc4⟩ := id h
  generalize u.des = D, u.tdes = T, u.rc4 = R at *
  subst hu
  cases i
  case desSetek c | desSetdk c | desEnc c | desDec c | desBsize c =>
    exact withCtx_congr (hdes c (namesDes_iff.2 rfl)) fun _ => rfl
  case tdesSetek c _ | tdesSetdk c _ | tdesEnc c | tdesDec c | tdesBsize c =>
    exact withCtx_congr (htdes c (namesTdes_iff.2 rfl)) fun _ => rfl
  case encBytes k c | decBytes k c | encFile k c | decFile k c =>
    exact withCtx_congr (hcipher h rfl) fun _ => rfl
  case rc4Mutate c | rc4Encode c => exact withCtx_congr (hrc4 c (namesRc4_iff.2 rfl)) fun _ => rfl
  case nop | permute | subst | rotl | rotr | mask | getbit | setbit | getbits | swapbits => rfl

/-! ## What a command writes of the contexts -/

/-- The context an update installs, where it installs one. -/
def CtxUpdate.context : CtxUpdate → Option (CtxKind × Nat)
  | .unchanged => none
  | .des c _ => some (.des, c)
  | .tdes c _ => some (.tdes, c)
  | .rc4 c _ => some (.rc4, c)

/-- What a command that succeeds installs: a context of a kind only by the commands of that kind's file, and the one it
names (R47, R48). -/
theorem commandOut_installs {i : Instr} {s : State} {r : Word} {ws : List (Nat × Bytes)} {x : CtxUpdate}
    (h : commandOut i s = .ok r ws x) :
    x = .unchanged ∨ (∃ c y, x = .des c y ∧ (i = .desSetek c ∨ i = .desSetdk c)) ∨
    (∃ c m y, x = .tdes c y ∧ (i = .tdesSetek c m ∨ i = .tdesSetdk c m)) ∨
    (∃ c y, x = .rc4 c y ∧ (i = .rc4Mutate c ∨ i = .rc4Encode c)) := by
  rcases (commandOut_ok h).2 with hx | ⟨c, y, k, -, hx, -⟩ | ⟨c, m, y, K, -, hx, -⟩ | ⟨c, y, t, -, hx, hi⟩
  · exact .inl hx
  · rcases hx with ⟨hi, hx⟩ | ⟨hi, hx⟩
    · exact .inr (.inl ⟨c, _, hx, .inl hi⟩)
    · exact .inr (.inl ⟨c, _, hx, .inr hi⟩)
  · rcases hx with ⟨hi, hx⟩ | ⟨hi, hx⟩
    · exact .inr (.inr (.inl ⟨c, m, _, hx, .inl hi⟩))
    · exact .inr (.inr (.inl ⟨c, m, _, hx, .inr hi⟩))
  · exact .inr (.inr (.inr ⟨c, _, hx, hi.imp And.left And.left⟩))

/-- A command that succeeds installs no context but the one it names. -/
theorem commandOut_context {i : Instr} {s : State} {r : Word} {ws : List (Nat × Bytes)} {x : CtxUpdate}
    (h : commandOut i s = .ok r ws x) : x = .unchanged ∨ x.context = ctxNamed i := by
  rcases commandOut_installs h with rfl | ⟨c, y, rfl, rfl | rfl⟩ | ⟨c, m, y, rfl, rfl | rfl⟩ | ⟨c, y, rfl, rfl | rfl⟩
  · exact .inl rfl
  all_goals exact .inr rfl

section PutCtx
variable (s : State) (x : CtxUpdate) (c : Nat)

/-- An update leaves the DES contexts other than the one it installs. -/
theorem State.putCtx_des_getElem? (h : x.context ≠ some (.des, c)) : (s.putCtx x).des[c]? = s.des[c]? := by
  cases x with
  | des d y => exact List.getElem?_set_ne (by rintro rfl; exact h rfl)
  | _ => rfl

/-- An update leaves the Triple-DES contexts other than the one it installs. -/
theorem State.putCtx_tdes_getElem? (h : x.context ≠ some (.tdes, c)) : (s.putCtx x).tdes[c]? = s.tdes[c]? := by
  cases x with
  | tdes d y => exact List.getElem?_set_ne (by rintro rfl; exact h rfl)
  | _ => rfl

/-- An update leaves the RC4 contexts other than the one it installs. -/
theorem State.putCtx_rc4_getElem? (h : x.context ≠ some (.rc4, c)) : (s.putCtx x).rc4[c]? = s.rc4[c]? := by
  cases x with
  | rc4 d y => exact List.getElem?_set_ne (by rintro rfl; exact h rfl)
  | _ => rfl
end PutCtx

/-- An update of the named context keeps every other one. -/
theorem otherContextsKept_putCtx {i : Instr} (s : State) {x : CtxUpdate}
    (h : x = .unchanged ∨ x.context = ctxNamed i) : OtherContextsKept i s (s.putCtx x) := by
  have hne {p : CtxKind × Nat} (hp : ctxNamed i ≠ some p) : x.context ≠ some p := by
    rcases h with rfl | h
    · simp [CtxUpdate.context]
    · rwa [h]
  exact ⟨fun c hc => s.putCtx_des_getElem? x c (hne (mt namesDes_iff.2 hc)),
    fun c hc => s.putCtx_tdes_getElem? x c (hne (mt namesTdes_iff.2 hc)),
    fun c hc => s.putCtx_rc4_getElem? x c (hne (mt namesRc4_iff.2 hc))⟩

/-- Installing a context keeps two lists of contexts of one length alike where they were. -/
theorem getElem?_set_congr {α : Type} {l l' : List α} (hlen : l'.length = l.length) {c : Nat}
    (h : l'[c]? = l[c]?) (d : Nat) (y : α) : (l'.set d y)[c]? = (l.set d y)[c]? := by
  simp only [List.getElem?_set, hlen, h]

/-- Failing alike keeps two machines alike but for the contexts that the command does not name. -/
theorem sameButOtherContexts_fail {i : Instr} {s u : State} (h : SameButOtherContexts i s u) (e : ErrCode) :
    SameButOtherContexts i (s.fail e) (u.fail e) := by
  obtain ⟨hu, h⟩ := h
  exact ⟨by rw [hu]; rfl, h⟩

/-- Succeeding alike keeps two machines alike but for the contexts that the command does not name. -/
theorem sameButOtherContexts_succeed {i : Instr} {s u : State} (h : SameButOtherContexts i s u) (r : Word)
    (ws : List (Nat × Bytes)) (x : CtxUpdate) : SameButOtherContexts i (s.succeed r ws x) (u.succeed r ws x) := by
  obtain ⟨hu, hld, hlt, hlr, hdes, htdes, hrc4⟩ := h
  refine ⟨?_, by simpa, by simpa, by simpa, ?_⟩
  · rw [hu]; cases x <;> rfl
  · cases x with
    | unchanged => exact ⟨hdes, htdes, hrc4⟩
    | des d y => exact ⟨fun c hc => getElem?_set_congr hld (hdes c hc) d y, htdes, hrc4⟩
    | tdes d y => exact ⟨hdes, fun c hc => getElem?_set_congr hlt (htdes c hc) d y, hrc4⟩
    | rc4 d y => exact ⟨hdes, htdes, fun c hc => getElem?_set_congr hlr (hrc4 c hc) d y⟩

/-- The perform step of one answer on two machines that agree but for contexts the command does not name: it keeps those
contexts on both, and the results agree again. -/
theorem finish_sameButOtherContexts {i : Instr} {s u t : State} {o : CmdOut} (h : SameButOtherContexts i s u)
    (ho : ∀ r ws x, o = .ok r ws x → x = .unchanged ∨ x.context = ctxNamed i) (ht : finish s o = .next t) :
    OtherContextsKept i s t ∧
      ∃ v, finish u o = .next v ∧ OtherContextsKept i u v ∧ SameButOtherContexts i t v := by
  rcases finish_next ht with ⟨e, rfl, rfl⟩ | ⟨r, ws, x, rfl, rfl⟩
  · exact ⟨otherContextsKept_putCtx s (.inl rfl), _, rfl, otherContextsKept_putCtx u (.inl rfl),
      sameButOtherContexts_fail h e⟩
  · have hx := ho r ws x rfl
    exact ⟨otherContextsKept_putCtx s hx, _, rfl, otherContextsKept_putCtx u hx,
      sameButOtherContexts_succeed h r ws x⟩

/-- Settles O20: Exec answers the same on both machines (`commandOut_congr`), and the perform step installs no context
but the named one (`commandOut_context`). -/
theorem otherContextsUntouchedAndUnread : Obligations.OtherContextsUntouchedAndUnread := by
  refine ⟨names_at_most_one, fun i s u h => ?_⟩
  have hout := commandOut_congr h
  simp only [exec_eq_finish, hout]
  refine ⟨fun t ht => finish_sameButOtherContexts h (fun _ _ _ => commandOut_context) ht, fun f hf => ?_⟩
  obtain ⟨hun, rfl⟩ := finish_fault hf
  rw [hun]
  rfl

/-! ## Register accesses (R34, R43, R73) -/

section RegisterAccess
variable (s : State) {off : Nat} (v : Word)

/-- A supported read of the register block gives the register and changes nothing (R73, R82). -/
theorem State.busRead_register (hlt : off < Config.windowBase) (hal : off % 4 = 0) :
    s.busRead .w32 off = .next (s.readReg off, s) := by
  simp [State.busRead, regAccessOk, hlt, hal]

/-- A supported write of the register block, but to CMD, is a register write, idle or busy (R73, R403). -/
theorem State.busWrite_register (hlt : off < Config.windowBase) (hal : off % 4 = 0) (hcmd : off ≠ Config.offCmd) :
    s.busWrite .w32 off v = .next (s.writeReg off v) := by
  simp [State.busWrite, regAccessOk, hlt, hal, hcmd]

/-- The offsets of the operand registers (R34). -/
def operandOffsets : List Nat := [0x020, 0x024, 0x028, 0x02C, 0x030, 0x034, 0x038]

/-- The operand registers stand at supported offsets of the register block, apart from CMD. -/
theorem operandOffsets_supported : ∀ off ∈ operandOffsets,
    off < Config.windowBase ∧ off % 4 = 0 ∧ off ≠ Config.offCmd := by decide

/-- A register write that is no operand register's changes nothing (R43, R82). -/
theorem State.writeReg_of_not_mem (h : off ∉ operandOffsets) : s.writeReg off v = s := by
  simp only [operandOffsets, List.mem_cons, List.not_mem_nil, or_false, not_or] at h
  obtain ⟨hsrc, hdst, hlen, hkey, hklen, haux0, haux1⟩ := h
  simp [State.writeReg, Config.offSrc, Config.offDst, Config.offLen, Config.offKey, Config.offKlen,
    Config.offAux0, Config.offAux1, *]

/-- An operand register reads back all 32 bits written to it (R32). -/
theorem State.readReg_writeReg_same (h : off ∈ operandOffsets) : (s.writeReg off v).readReg off = v := by
  simp only [operandOffsets, List.mem_cons, List.not_mem_nil, or_false] at h
  rcases h with rfl | rfl | rfl | rfl | rfl | rfl | rfl <;> rfl

/-- Every offset but the one written reads as before (R32). -/
theorem State.readReg_writeReg_ne {o : Nat} (h : o ≠ off) : (s.writeReg off v).readReg o = s.readReg o := by
  unfold State.writeReg
  split_ifs
  case neg => rfl
  all_goals
    subst off
    simp only [State.readReg, State.params, if_neg h]
end RegisterAccess

/-- Settles O12, from the two rules of a read after a register write, at the same and at another offset. -/
theorem operandRegistersReadBack : Obligations.OperandRegistersReadBack := by
  intro s v
  have access {off : Nat} (h : off ∈ operandOffsets) :
      s.busWrite .w32 off v = .next (s.writeReg off v) ∧ s.busRead .w32 off = .next (s.readReg off, s) := by
    obtain ⟨hlt, hal, hcmd⟩ := operandOffsets_supported off h
    exact ⟨s.busWrite_register v hlt hal hcmd, s.busRead_register hlt hal⟩
  refine ⟨access (off := 0x020) (by decide), access (off := 0x024) (by decide), access (off := 0x028) (by decide),
    access (off := 0x02C) (by decide), access (off := 0x030) (by decide), access (off := 0x034) (by decide),
    access (off := 0x038) (by decide), fun off h => ?_⟩
  obtain ⟨hlt, hal, -⟩ := operandOffsets_supported off h
  refine ⟨s.writeReg off v, (access h).1, s.writeReg_eq off v, ?_, fun o _ ho => s.readReg_writeReg_ne v ho⟩
  rw [State.busRead_register _ hlt hal, s.readReg_writeReg_same v h]

/-! ## The words STATUS, ID and CAPS (R36, R40 to R42) -/

section StatusWord
variable (t : Status)
/-- BUSY stands in bit 0 of STATUS (R36). -/
theorem Status.word_getLsbD_zero : t.word.getLsbD 0 = t.busy := by
  change BitVec.getLsbD (w := 16 + 8 + 6 + 1 + 1) _ 0 = _
  unfold Status.word
  rw [BitVec.getLsbD_append, if_pos (by decide)]
  simp

/-- ERR stands in bit 1 of STATUS (R36). -/
theorem Status.word_getLsbD_one : t.word.getLsbD 1 = t.err := by
  change BitVec.getLsbD (w := 16 + 8 + 6 + 1 + 1) _ 1 = _
  unfold Status.word
  rw [BitVec.getLsbD_append, if_neg (by decide), BitVec.getLsbD_append, if_pos (by decide)]
  simp

/-- Bits 7:2 of STATUS are hardwired 0 (R40). -/
theorem Status.word_reserved_low : t.word.extractLsb' 2 6 = 0 := by
  change BitVec.extractLsb' (n := 16 + 8 + 6 + 1 + 1) 2 6 _ = 0
  unfold Status.word
  repeat rw [BitVec.extractLsb'_append_eq_of_le (by decide)]
  exact BitVec.extractLsb'_append_eq_right

/-- ERRCODE stands in bits 15:8 of STATUS (R36). -/
theorem Status.word_errcode : t.word.extractLsb' 8 8 = t.errcode := by
  change BitVec.extractLsb' (n := 16 + 8 + 6 + 1 + 1) 8 8 _ = _
  unfold Status.word
  repeat rw [BitVec.extractLsb'_append_eq_of_le (by decide)]
  exact BitVec.extractLsb'_append_eq_right

/-- Bits 31:16 of STATUS are hardwired 0 (R40). -/
theorem Status.word_reserved_high : t.word.extractLsb' 16 16 = 0 := by
  change BitVec.extractLsb' (n := 16 + 8 + 6 + 1 + 1) 16 16 _ = 0
  unfold Status.word
  repeat rw [BitVec.extractLsb'_append_eq_of_le (by decide)]
  exact BitVec.extractLsb'_zero
end StatusWord

section CapsWord
variable (p : Params)
/-- BUFLOG2 stands in bits 4:0 of CAPS (R42). -/
theorem capsWord_bufLog2 : (capsWord p).extractLsb' 0 5 = BitVec.ofNat 5 p.bufLog2 := by
  change BitVec.extractLsb' (n := 12 + 4 + 4 + 4 + 3 + 5) 0 5 _ = _
  unfold capsWord
  exact BitVec.extractLsb'_append_eq_right

/-- Bits 7:5 of CAPS are hardwired 0 (R42). -/
theorem capsWord_reserved_low : (capsWord p).extractLsb' 5 3 = 0 := by
  change BitVec.extractLsb' (n := 12 + 4 + 4 + 4 + 3 + 5) 5 3 _ = 0
  unfold capsWord
  repeat rw [BitVec.extractLsb'_append_eq_of_le (by decide)]
  exact BitVec.extractLsb'_append_eq_right

/-- The DES context count less 1 stands in bits 11:8 of CAPS (R42). -/
theorem capsWord_nDes : (capsWord p).extractLsb' 8 4 = BitVec.ofNat 4 (p.nDes - 1) := by
  change BitVec.extractLsb' (n := 12 + 4 + 4 + 4 + 3 + 5) 8 4 _ = _
  unfold capsWord
  repeat rw [BitVec.extractLsb'_append_eq_of_le (by decide)]
  exact BitVec.extractLsb'_append_eq_right

/-- The Triple-DES context count less 1 stands in bits 15:12 of CAPS (R42). -/
theorem capsWord_nTdes : (capsWord p).extractLsb' 12 4 = BitVec.ofNat 4 (p.nTdes - 1) := by
  change BitVec.extractLsb' (n := 12 + 4 + 4 + 4 + 3 + 5) 12 4 _ = _
  unfold capsWord
  repeat rw [BitVec.extractLsb'_append_eq_of_le (by decide)]
  exact BitVec.extractLsb'_append_eq_right

/-- The RC4 context count less 1 stands in bits 19:16 of CAPS (R42). -/
theorem capsWord_nRc4 : (capsWord p).extractLsb' 16 4 = BitVec.ofNat 4 (p.nRc4 - 1) := by
  change BitVec.extractLsb' (n := 12 + 4 + 4 + 4 + 3 + 5) 16 4 _ = _
  unfold capsWord
  repeat rw [BitVec.extractLsb'_append_eq_of_le (by decide)]
  exact BitVec.extractLsb'_append_eq_right

/-- Bits 31:20 of CAPS are hardwired 0 (R42). -/
theorem capsWord_reserved_high : (capsWord p).extractLsb' 20 12 = 0 := by
  change BitVec.extractLsb' (n := 12 + 4 + 4 + 4 + 3 + 5) 20 12 _ = 0
  unfold capsWord
  repeat rw [BitVec.extractLsb'_append_eq_of_le (by decide)]
  exact BitVec.extractLsb'_zero
end CapsWord

/-- Settles O7, for every choice of the parameters; CAPS by the parameters that the reset state reports. -/
theorem resetValues : Obligations.ResetValues := by
  refine ⟨⟨_, rfl⟩, ?_⟩
  rintro p s rfl
  have hcaps : (State.resetWith p).readReg 0x010 = capsWord p := congrArg capsWord (State.resetWith_params p)
  refine ⟨(by decide : Status.zero.word = 0), rfl, rfl, rfl, rfl, hcaps, ?_, ?_, ?_, fun _ => rfl⟩
  · intro x hx
    rw [List.eq_of_mem_replicate hx]
    exact ⟨rfl, rfl⟩
  · intro x hx
    rw [List.eq_of_mem_replicate hx]
    exact ⟨rfl, rfl⟩
  · intro x hx
    rw [List.eq_of_mem_replicate hx]
    rfl

/-- A host write leaves the parameters as they are (R13). -/
theorem State.busWrite_params {s t : State} {w : Width} {off : Nat} {v : Word} (h : s.busWrite w off v = .next t) :
    t.params = s.params := by
  rcases State.busWrite_next h with ⟨-, -, -, rfl⟩ | ⟨-, -, -, -, rfl⟩ | ⟨-, -, rfl⟩ | ⟨-, -, -, -, rfl⟩
  · rfl
  · rw [State.writeReg_eq]; rfl
  · rfl
  · rfl

/-- Settles O14, from the fields of the words STATUS and CAPS, and from the parameters, which no host write changes. -/
theorem idCapsAndHardwiredBits : Obligations.IdCapsAndHardwiredBits := by
  have read (s : State) {off : Nat} (hlt : off < Config.windowBase) (hal : off % 4 = 0) :=
    s.busRead_register hlt hal
  refine ⟨fun s => ?_, fun s hp => ?_, fun s off v hoff => ?_, fun s t w off v h => ?_⟩
  · exact ⟨read s (by decide) rfl, read s (by decide) rfl, s.status.word, read s (by decide) rfl,
      s.status.word_getLsbD_zero, s.status.word_getLsbD_one, s.status.word_reserved_low, s.status.word_errcode,
      s.status.word_reserved_high⟩
  · obtain ⟨-, hlog, -, hdes, -, htdes, -, hrc4, -⟩ := Params.wf_iff.1 hp
    refine ⟨read s (by decide) rfl, capsWord s.params, read s (by decide) rfl, ?_, capsWord_reserved_low _, ?_, ?_, ?_,
      capsWord_reserved_high _⟩
    · rw [capsWord_bufLog2, BitVec.toNat_ofNat, Nat.mod_eq_of_lt (by omega)]; rfl
    · rw [capsWord_nDes, BitVec.toNat_ofNat, Nat.mod_eq_of_lt (by omega)]; rfl
    · rw [capsWord_nTdes, BitVec.toNat_ofNat, Nat.mod_eq_of_lt (by omega)]; rfl
    · rw [capsWord_nRc4, BitVec.toNat_ofNat, Nat.mod_eq_of_lt (by omega)]; rfl
  · have hro : ∀ o ∈ [0x004, 0x008, 0x00C, 0x010],
        o < Config.windowBase ∧ o % 4 = 0 ∧ o ≠ Config.offCmd ∧ o ∉ operandOffsets := by decide
    obtain ⟨hlt, hal, hcmd, hop⟩ := hro off hoff
    rw [s.busWrite_register v hlt hal hcmd, s.writeReg_of_not_mem v hop]
  · exact ⟨t.status.word_reserved_low, t.status.word_reserved_high, rfl,
      congrArg capsWord (State.busWrite_params h)⟩

/-! ## BUF after a command (R76) -/

/-- A region rewritten with bytes that agree with the old ones at an address leaves that address as it was. -/
theorem Memory.read_rewrite {m : Memory} {a n p : Nat} {B O : Bytes} (hB : m.readBytes a n = some B)
    (hl : O.length = B.length) (h : a ≤ p → p < a + n → O.getD (p - a) 0 = B.getD (p - a) 0) :
    (m.writeBytes a O).read p = m.read p := by
  obtain ⟨hn, hget⟩ := Memory.readBytes_eq_some.1 hB
  by_cases hp : a ≤ p ∧ p < a + n
  · obtain ⟨t, rfl⟩ := Nat.exists_eq_add_of_le hp.1
    have ht : t < B.length := by omega
    have := h hp.1 hp.2
    rw [Memory.read_writeBytes_in m a t O (hl ▸ ht), hget t ht]
    simpa [List.getD_eq_getElem?_getD, ht, hl] using this
  · exact Memory.read_writeBytes_out m a p O (by omega)

/-- Two byte sequences with the same eight bits of a byte have the same byte there. -/
theorem getD_eq_of_bitAt {A B : Bytes} {j : Nat} (h : ∀ k, k / 8 = j → bitAt A k = bitAt B k) :
    A.getD j 0 = B.getD j 0 := by
  apply BitVec.eq_of_getLsbD_eq
  intro i hi
  have := h (8 * j + (7 - i)) (by omega)
  simpa only [bitAt, show (8 * j + (7 - i)) / 8 = j by omega, show 7 - (8 * j + (7 - i)) % 8 = i by omega] using this

/-- A bit string with one bit replaced keeps the others. -/
theorem getD_set_ne {s : Bits} {i k : Nat} (b : Bool) (h : i ≠ k) : (s.set i b).getD k false = s.getD k false := by
  simp [List.getD_eq_getElem?_getD, List.getElem?_set_ne h]

/-- SetBitF keeps every byte but the one of its bit (R174). -/
theorem setBitF_getD {B O : Bytes} {k j : Nat} {v : Bool} (h : setBitF B k v = .ok O) (hj : j ≠ k / 8) :
    O.getD j 0 = B.getD j 0 := by
  unfold setBitF at h
  split_ifs at h
  cases h
  refine getD_eq_of_bitAt fun t ht => ?_
  rw [bitAt_pack, getD_set_ne v (by rintro rfl; exact hj ht.symm), unpack_getD]

/-- SwapBitsF keeps every byte but those of its two bits (R176). -/
theorem swapBitsF_getD {B O : Bytes} {i k j : Nat} (h : swapBitsF B i k = .ok O) (hi : j ≠ i / 8) (hk : j ≠ k / 8) :
    O.getD j 0 = B.getD j 0 := by
  unfold swapBitsF at h
  split_ifs at h
  · cases h; rfl
  · cases h
    refine getD_eq_of_bitAt fun t ht => ?_
    rw [bitAt_pack, getD_set_ne _ (by rintro rfl; exact hk ht.symm), getD_set_ne _ (by rintro rfl; exact hi ht.symm),
      unpack_getD]

/-- Writes that replace one region of n bytes at a. -/
def WritesRegion (ws : List (Nat × Bytes)) (a n : Nat) : Prop := ∃ O, ws = [(a, O)] ∧ O.length = n

/-- Writes of one region leave every byte outside it alone. -/
theorem WritesRegion.read_writeAll {ws : List (Nat × Bytes)} {a n p : Nat} (h : WritesRegion ws a n) (m : Memory)
    (hp : ¬ (a ≤ p ∧ p < a + n)) : (m.writeAll ws).read p = m.read p := by
  obtain ⟨O, rfl, rfl⟩ := h
  exact Memory.read_writeBytes_out m a p O (by omega)

section Commands
variable {s : State} {r : Word} {ws : List (Nat × Bytes)} {x : CtxUpdate}

/-- A single-block command that succeeds writes 8 bytes at DST (R258, R288). -/
theorem blockCommand_writesRegion {f : Bytes → Except ErrCode Bytes} (hf : BlockFn f)
    (h : blockCommand s f = .ok r ws x) : WritesRegion ws s.opDst 8 := by
  obtain ⟨X, O, -, hO, -, -, rfl, -⟩ := blockCommand_ok h
  obtain ⟨Y, hY, hl⟩ := hf X
  cases hO.symm.trans hY
  exact ⟨O, rfl, hl⟩

/-- An adapter command that succeeds writes LEN bytes at DST, when its buffer function keeps the length
(R334, R337). -/
theorem bufferCommand_writesRegion {g : Bytes → Except ErrCode Bytes}
    (hg : ∀ D, D.length = s.opLen → ∃ O, g D = .ok O ∧ O.length = D.length)
    (h : bufferCommand s g = .ok r ws x) : WritesRegion ws s.opDst s.opLen := by
  obtain ⟨D, O, hD, hO, -, -, rfl, -⟩ := bufferCommand_ok h
  have hl := Memory.readBytes_length hD
  obtain ⟨Y, hY, hlY⟩ := hg D hl
  cases hO.symm.trans hY
  exact ⟨O, rfl, hlY.trans hl⟩

/-- A SUBST that succeeds writes the bytes of its result's bit length at DST (R191). -/
theorem cmdSubst_writesRegion (h : cmdSubst s = .ok r ws x) :
    WritesRegion ws s.opDst (ceil8 (substBits s.opLen s.opAux0 s.opAux1)) := by
  obtain ⟨⟨hn, hm⟩, -⟩ := require_eq_ok.1 h
  obtain ⟨B, SB, O, hB, -, hO, -, -, rfl, -⟩ := cmdSubst_ok h
  obtain ⟨Y, hY, hl⟩ := substF_ok B SB s.opAux0 s.opAux1 hn hm
  cases hO.symm.trans hY
  exact ⟨O, rfl, by rw [hl, Memory.readBytes_length hB]⟩

/-- A rotation that succeeds writes the bytes of its window at DST (R192, R193). -/
theorem cmdRotate_writesRegion {rot : Bytes → Nat → Nat → Except ErrCode Bytes}
    (hrot : ∀ B n k, B.length = 0 ∨ n = 0 ∨ n ≤ nbits B →
      ∃ O, rot B n k = .ok O ∧ O.length = ceil8 (rotBits B.length n))
    (h : cmdRotate rot s = .ok r ws x) : WritesRegion ws s.opDst (ceil8 (rotBits s.opLen s.opAux0)) := by
  obtain ⟨hwin, -⟩ := require_eq_ok.1 h
  obtain ⟨B, O, hB, hO, -, -, rfl, -⟩ := cmdRotate_ok h
  have hl := Memory.readBytes_length hB
  obtain ⟨Y, hY, hlY⟩ := hrot B s.opAux0 s.opAux1 (by rwa [nbits, hl])
  cases hO.symm.trans hY
  exact ⟨O, rfl, by rw [hlY, hl]⟩

/-- A MASK that succeeds writes LEN bytes at DST (R194). -/
theorem cmdMask_writesRegion {op : MaskOp} (h : cmdMask op s = .ok r ws x) : WritesRegion ws s.opDst s.opLen := by
  obtain ⟨⟨hB8, hM8⟩, -⟩ := require_eq_ok.1 h
  obtain ⟨B, M, O, hB, hM, hO, -, -, rfl, -⟩ := cmdMask_ok h
  have hl := Memory.readBytes_length hB
  obtain ⟨Y, hY, hlY⟩ := maskF_ok B M s.opAux0 op (by rwa [nbits, hl]) (by rwa [nbits, Memory.readBytes_length hM])
  cases hO.symm.trans hY
  exact ⟨O, rfl, hlY.trans hl⟩

/-- A GETBITS that succeeds writes the bytes of the bits it takes at DST (R197). -/
theorem cmdGetbits_writesRegion (h : cmdGetbits s = .ok r ws x) :
    WritesRegion ws s.opDst (ceil8 (getBitsLen s.opAux0 s.opAux1)) := by
  obtain ⟨hbits, -⟩ := require_eq_ok.1 h
  obtain ⟨B, O, hB, hO, -, -, rfl, -⟩ := cmdGetbits_ok h
  obtain ⟨Y, hY, hl⟩ := getBitsF_ok B s.opAux0 s.opAux1 (by rwa [nbits, Memory.readBytes_length hB])
  cases hO.symm.trans hY
  exact ⟨O, rfl, hl⟩

/-- A SETBIT that succeeds leaves every byte but the one of its bit as it was (R196). -/
theorem cmdSetbit_read {v : Bool} (h : cmdSetbit v s = .ok r ws x) {p : Nat} (hp : p ≠ s.opSrc + s.opAux0 / 8) :
    (s.buf.writeAll ws).read p = s.buf.read p := by
  obtain ⟨hbit, -⟩ := require_eq_ok.1 h
  obtain ⟨B, O, hB, hO, -, -, rfl, -⟩ := cmdSetbit_ok h
  obtain ⟨Y, hY, hl⟩ := setBitF_ok B s.opAux0 v (by rwa [nbits, Memory.readBytes_length hB])
  cases hO.symm.trans hY
  exact Memory.read_rewrite hB hl fun _ _ => setBitF_getD hO (by omega)

/-- A SWAPBITS that succeeds leaves every byte but those of its two bits as it was (R198). -/
theorem cmdSwapbits_read (h : cmdSwapbits s = .ok r ws x) {p : Nat} (h0 : p ≠ s.opSrc + s.opAux0 / 8)
    (h1 : p ≠ s.opSrc + s.opAux1 / 8) : (s.buf.writeAll ws).read p = s.buf.read p := by
  obtain ⟨hbits, -⟩ := require_eq_ok.1 h
  obtain ⟨B, O, hB, hO, -, -, rfl, -⟩ := cmdSwapbits_ok h
  have hl := Memory.readBytes_length hB
  obtain ⟨Y, hY, hlY⟩ := swapBitsF_ok B s.opAux0 s.opAux1 (by rwa [nbits, hl])
  cases hO.symm.trans hY
  exact Memory.read_rewrite hB hlY fun _ _ => swapBitsF_getD hO (by omega) (by omega)
end Commands

/-- A command that succeeds leaves every byte outside the addresses its rule stores to as it was. -/
theorem commandOut_read {i : Instr} {s : State} {r : Word} {ws : List (Nat × Bytes)} {x : CtxUpdate}
    (h : commandOut i s = .ok r ws x) {a : Nat} (ha : ¬ storesTo i s a) :
    (s.buf.writeAll ws).read a = s.buf.read a := by
  have nowrite (hws : ws = []) : (s.buf.writeAll ws).read a = s.buf.read a := by rw [hws, Memory.writeAll_nil]
  cases i
  case nop => exact nowrite (by cases h; rfl)
  case desSetek | desSetdk =>
    rw [commandOut] at h
    obtain ⟨-, -, -, -, -, -, -, hws, -⟩ := desKeyCommand_ok h
    exact nowrite hws
  case tdesSetek | tdesSetdk =>
    rw [commandOut] at h
    obtain ⟨-, -, -, -, -, -, hws, -⟩ := tdesKeyCommand_ok h
    exact nowrite hws
  case desBsize | tdesBsize =>
    obtain ⟨-, -, h⟩ := withCtx_eq_ok.1 h
    exact nowrite (by cases h; rfl)
  case desEnc | desDec =>
    obtain ⟨y, -, h⟩ := withCtx_eq_ok.1 h
    exact (blockCommand_writesRegion (blockFn_desCore _) (require_eq_ok.1 h).2).read_writeAll _ ha
  case tdesEnc =>
    obtain ⟨y, -, h⟩ := withCtx_eq_ok.1 h
    exact (blockCommand_writesRegion (blockFn_tdesEncWith _) (require_eq_ok.1 h).2).read_writeAll _ ha
  case tdesDec =>
    obtain ⟨y, -, h⟩ := withCtx_eq_ok.1 h
    exact (blockCommand_writesRegion (blockFn_tdesDecWith _) (require_eq_ok.1 h).2).read_writeAll _ ha
  case encBytes =>
    obtain ⟨y, hy, h⟩ := withCtx_eq_ok.1 h
    obtain ⟨h8, h⟩ := require_eq_ok.1 (require_eq_ok.1 h).2
    exact (bufferCommand_writesRegion (fun D hD => ecbF_ok (blockFn_cipherList (List.mem_of_getElem? hy)).1 D
      (hD ▸ h8)) h).read_writeAll _ ha
  case decBytes =>
    obtain ⟨y, hy, h⟩ := withCtx_eq_ok.1 h
    obtain ⟨h8, h⟩ := require_eq_ok.1 (require_eq_ok.1 h).2
    exact (bufferCommand_writesRegion (fun D hD => ecbF_ok (blockFn_cipherList (List.mem_of_getElem? hy)).2 D
      (hD ▸ h8)) h).read_writeAll _ ha
  case encFile =>
    obtain ⟨y, hy, h⟩ := withCtx_eq_ok.1 h
    exact (bufferCommand_writesRegion (fun D _ => chunkF_ok (blockFn_cipherList (List.mem_of_getElem? hy)).1 D)
      (require_eq_ok.1 h).2).read_writeAll _ ha
  case decFile =>
    obtain ⟨y, hy, h⟩ := withCtx_eq_ok.1 h
    exact (bufferCommand_writesRegion (fun D _ => chunkF_ok (blockFn_cipherList (List.mem_of_getElem? hy)).2 D)
      (require_eq_ok.1 h).2).read_writeAll _ ha
  case rc4Mutate =>
    obtain ⟨-, -, -, -, -, hws, -⟩ := cmdRc4Mutate_ok h
    exact nowrite hws
  case rc4Encode =>
    obtain ⟨y, D, -, -, hD, -, -, rfl, -⟩ := cmdRc4Encode_ok h
    have hw : WritesRegion [(s.opDst, (rc4Xor (rc4StOf y) D).2)] s.opDst s.opLen :=
      ⟨_, rfl, by rw [rc4Xor_length, Memory.readBytes_length hD]⟩
    exact hw.read_writeAll _ ha
  case permute b o =>
    obtain ⟨B, T, -, -, -, -, rfl, -⟩ := cmdPermute_ok h
    have hw : WritesRegion [(s.opDst, permuteF B (tableEntries s.opKlen T) o b)] s.opDst (ceil8 s.opKlen) :=
      ⟨_, rfl, by simp⟩
    exact hw.read_writeAll _ ha
  case subst => exact (cmdSubst_writesRegion h).read_writeAll _ ha
  case rotl => exact (cmdRotate_writesRegion rotLF_ok h).read_writeAll _ ha
  case rotr => exact (cmdRotate_writesRegion rotRF_ok h).read_writeAll _ ha
  case mask => exact (cmdMask_writesRegion h).read_writeAll _ ha
  case getbit =>
    obtain ⟨-, -, -, -, -, hws, -⟩ := cmdGetbit_ok h
    exact nowrite hws
  case setbit => exact cmdSetbit_read h ha
  case getbits => exact (cmdGetbits_writesRegion h).read_writeAll _ ha
  case swapbits => exact cmdSwapbits_read h (fun h0 => ha (.inl h0)) fun h1 => ha (.inr h1)

/-! ## The contexts after a command (R47) -/

section Contexts
variable {i : Instr} {s t : State}

/-- A command that is no DES key setter keeps the DES contexts (R47). -/
theorem exec_des (h : exec i s = .next t) (hi : ∀ c, i ≠ .desSetek c ∧ i ≠ .desSetdk c) : t.des = s.des := by
  rcases exec_next h with ⟨e, -, rfl⟩ | ⟨r, ws, x, hok, rfl⟩
  · rfl
  · rcases commandOut_installs hok with rfl | ⟨c, y, -, hic⟩ | ⟨c, m, y, rfl, -⟩ | ⟨c, y, rfl, -⟩
    · rfl
    · exact absurd hic (not_or.2 (hi c))
    · rfl
    · rfl

/-- A command that is no Triple-DES key setter keeps the Triple-DES contexts (R47). -/
theorem exec_tdes (h : exec i s = .next t) (hi : ∀ c m, i ≠ .tdesSetek c m ∧ i ≠ .tdesSetdk c m) :
    t.tdes = s.tdes := by
  rcases exec_next h with ⟨e, -, rfl⟩ | ⟨r, ws, x, hok, rfl⟩
  · rfl
  · rcases commandOut_installs hok with rfl | ⟨c, y, rfl, -⟩ | ⟨c, m, y, -, hic⟩ | ⟨c, y, rfl, -⟩
    · rfl
    · rfl
    · exact absurd hic (not_or.2 (hi c m))
    · rfl

/-- A command that is neither RC4_MUTATE nor RC4_ENCODE keeps the RC4 contexts (R47). -/
theorem exec_rc4 (h : exec i s = .next t) (hi : ∀ c, i ≠ .rc4Mutate c ∧ i ≠ .rc4Encode c) : t.rc4 = s.rc4 := by
  rcases exec_next h with ⟨e, -, rfl⟩ | ⟨r, ws, x, hok, rfl⟩
  · rfl
  · rcases commandOut_installs hok with rfl | ⟨c, y, rfl, -⟩ | ⟨c, m, y, rfl, -⟩ | ⟨c, y, -, hic⟩
    · rfl
    · rfl
    · rfl
    · exact absurd hic (not_or.2 (hi c))

/-- A DES key setter keeps every part of its context that its installation keeps, whether it succeeds or fails. -/
theorem desKeyCommand_keeps {β : Type} {g : DesCtx → β} {c : Nat} {ex : Bytes → Except ErrCode (List Bytes)}
    {f : DesCtx → Schedule → DesCtx} {x y : DesCtx}
    (h : finish s (desKeyCommand s c ex f) = .next t) (hx : s.des[c]? = some x) (hy : t.des[c]? = some y)
    (hg : ∀ z v, g (f z v) = g z) : g y = g x := by
  rcases finish_next h with ⟨e, -, rfl⟩ | ⟨r, ws, u, hok, rfl⟩
  · cases hx.symm.trans hy; rfl
  · obtain ⟨x', k, ks, hx', -, -, -, -, rfl⟩ := desKeyCommand_ok hok
    cases hx.symm.trans hx'
    have hset := List.getElem?_set_self (a := f x (scheduleOf ks)) (List.getElem?_eq_some_iff.1 hx).1
    cases hset.symm.trans hy
    exact hg _ _

/-- A Triple-DES key setter keeps every part of its context that its installation keeps, succeeding or
failing. -/
theorem tdesKeyCommand_keeps {β : Type} {g : TdesCtx → β} {c : Nat} {m : TdesMode}
    {f : TdesCtx → TdesKeys → TdesCtx} {x y : TdesCtx}
    (h : finish s (tdesKeyCommand s c m f) = .next t) (hx : s.tdes[c]? = some x) (hy : t.tdes[c]? = some y)
    (hg : ∀ z v, g (f z v) = g z) : g y = g x := by
  rcases finish_next h with ⟨e, -, rfl⟩ | ⟨r, ws, u, hok, rfl⟩
  · cases hx.symm.trans hy; rfl
  · obtain ⟨x', K, hx', -, -, -, -, rfl⟩ := tdesKeyCommand_ok hok
    cases hx.symm.trans hx'
    have hset := List.getElem?_set_self (a := f x (tdesKeySet m K)) (List.getElem?_eq_some_iff.1 hx).1
    cases hset.symm.trans hy
    exact hg _ _

/-- No command writes an operand register (R33). -/
theorem exec_regs (h : exec i s = .next t) : t.regs = s.regs := by
  rcases exec_next h with ⟨e, -, rfl⟩ | ⟨r, ws, x, -, rfl⟩ <;> simp

/-- A command leaves every byte of BUF outside the addresses its rule stores to as it was, whether it succeeds or
fails. -/
theorem exec_read (h : exec i s = .next t) {a : Nat} (ha : ¬ storesTo i s a) : t.buf.read a = s.buf.read a := by
  rcases exec_next h with ⟨e, -, rfl⟩ | ⟨r, ws, x, hok, rfl⟩
  · rfl
  · exact commandOut_read hok ha
end Contexts

/-- Settles O22: the fields by the two ways a command can end, BUF by `exec_read`, the contexts by what a command that
succeeds installs (`commandOut_installs`). -/
theorem commandFrame : Obligations.CommandFrame := by
  intro i s t h
  have fields : t.bufLog2 = s.bufLog2 ∧ t.coreBase = s.coreBase ∧ t.host = s.host ∧ t.schedule = s.schedule ∧
      t.freeReads = s.freeReads ∧ t.latch = { s.latch with valid := false } ∧ t.status.busy = false ∧
      t.des.length = s.des.length ∧ t.tdes.length = s.tdes.length ∧ t.rc4.length = s.rc4.length := by
    rcases exec_next h with ⟨e, -, rfl⟩ | ⟨r, ws, x, -, rfl⟩ <;> simp [Latch.emptied, statusErr, statusOk]
  obtain ⟨hlog, hbase, hhost, hsched, hfree, hlatch, hbusy, hdes, htdes, hrc4⟩ := fields
  refine ⟨exec_regs h, hlog, hbase, hhost, hsched, hfree, hlatch, hbusy, hdes, htdes, hrc4, fun a => exec_read h,
    exec_des h, exec_tdes h, exec_rc4 h, fun c x y hx hy => ⟨?_, ?_⟩, fun c m x y hx hy => ⟨?_, ?_⟩⟩
  · rintro rfl
    exact Prod.mk.inj (desKeyCommand_keeps (g := fun z => (z.dk, z.dkValid)) h hx hy fun _ _ => rfl)
  · rintro rfl
    exact Prod.mk.inj (desKeyCommand_keeps (g := fun z => (z.ek, z.ekValid)) h hx hy fun _ _ => rfl)
  · rintro rfl
    exact tdesKeyCommand_keeps (g := TdesCtx.d) h hx hy fun _ _ => rfl
  · rintro rfl
    exact tdesKeyCommand_keeps (g := TdesCtx.e) h hx hy fun _ _ => rfl

/-! ## Host accesses and the operand registers (R33) -/

/-- The image of an outcome's next state. -/
def mapNext {α β : Type} (f : α → β) : Host.Outcome α Fault Refusal → Host.Outcome β Fault Refusal
  | .next a => .next (f a)
  | .fault e => .fault e
  | .refused e => .refused e

/-- The machine with other operand registers. -/
def State.withRegs (s : State) (g : OpRegs) : State := { s with regs := g }

/-- Exec reads the latched operands, not the operand registers (R33, R141). -/
theorem commandOut_withRegs (i : Instr) (s : State) (g : OpRegs) : commandOut i (s.withRegs g) = commandOut i s := by
  cases i <;> rfl

/-- The perform step carries other operand registers through. -/
theorem finish_withRegs (s : State) (g : OpRegs) (o : CmdOut) :
    finish (s.withRegs g) o = mapNext (fun t => t.withRegs g) (finish s o) := by
  cases o with
  | err e => rfl
  | ok r ws x => cases x <;> rfl
  | uninit => rfl

/-- Every command does the same whatever the operand registers hold, and leaves them. -/
theorem exec_withRegs (i : Instr) (s : State) (g : OpRegs) :
    exec i (s.withRegs g) = mapNext (fun t => t.withRegs g) (exec i s) := by
  rw [exec_eq_finish, exec_eq_finish, commandOut_withRegs, finish_withRegs]

section Host
variable {s t : State} {w : Width}

/-- A host write that changes an operand register is a 32-bit write. -/
theorem State.busWrite_regs {off : Nat} {v : Word} (h : s.busWrite w off v = .next t) :
    t.regs = s.regs ∨ w = .w32 := by
  rcases State.busWrite_next h with ⟨-, hw, -, -⟩ | ⟨-, -, hw, -, -⟩ | ⟨-, -, rfl⟩ | ⟨-, -, -, -, rfl⟩
  · exact .inr hw
  · exact .inr hw
  · exact .inl rfl
  · exact .inl rfl

/-- A host read changes nothing of the core (R82); the counter of free bytes is the model's own (log 7). -/
theorem State.busRead_state {off : Nat} {v : Word} (h : s.busRead w off = .next (v, t)) :
    t = { s with freeReads := t.freeReads } := by
  rcases State.busRead_next h with ⟨-, -, -, rfl⟩ | ⟨-, -, -, -, rfl⟩ | ⟨-, -, -, -, -, rfl⟩ | ⟨-, -, -, -, -, rfl⟩ <;>
    rfl

/-- A host read statement changes the host and the counter of free bytes alone. -/
theorem State.hostRead_state {addr : Nat} (h : s.hostRead w addr = .next t) :
    t = { s with freeReads := t.freeReads, host := t.host } := by
  obtain ⟨off, v, u, -, hu, rfl⟩ := State.hostRead_next h
  rw [State.busRead_state hu]

/-- The host's turn changes the operand registers by a 32-bit write statement alone. -/
theorem hostTurn_regs (h : hostTurn s = .next t) :
    t.regs = s.regs ∨ ∃ addr v, s.host.prog[s.host.pc]? = some (.write .w32 addr v) := by
  rcases hostTurn_next h with ⟨-, rfl⟩ | ⟨w, addr, v, hst, hw⟩ | ⟨w, addr, -, hr⟩ | ⟨n, target, -, rfl⟩
  · exact .inl rfl
  · obtain ⟨off, -, hoff⟩ := State.hostWrite_next hw
    rcases State.busWrite_regs hoff with hregs | rfl
    · exact .inl hregs
    · exact .inr ⟨addr, v, hst⟩
  · rw [State.hostRead_state hr]; exact .inl rfl
  · exact .inl rfl

/-- The core's turn writes no operand register (R33). -/
theorem coreTurn_regs (h : coreTurn s = .next t) : t.regs = s.regs := by
  rcases coreTurn_next h with ⟨i, -, -, hi⟩ | ⟨e, -, -, rfl⟩ | ⟨-, rfl⟩
  · exact exec_regs hi
  · rfl
  · rfl
end Host

/-- Settles O21: Exec reads the latched operands alone (`exec_withRegs`), and of the agents only a writing host reaches
the operand registers. -/
theorem operandRegistersOnlyHostWritten : Obligations.OperandRegistersOnlyHostWritten := by
  refine ⟨fun i s t => exec_regs, fun s t h hne => ?_, fun s off v h0 hlt hal => ?_⟩
  · refine step_induction (P := fun t => t.regs ≠ s.regs → _) h (fun u hu ht hne => ?_) (fun u hu ht hne => ?_)
      (fun rest hs _ _ => .inl ⟨rest, hs⟩) hne
    · have hregs := coreTurn_regs ht
      rcases hu with rfl | ⟨rest, rfl⟩ <;> exact absurd hregs hne
    · have hregs := hostTurn_regs ht
      rcases hu with rfl | ⟨rest, rfl⟩ <;> exact .inr (hregs.resolve_left hne)
  · have hw : s.busWrite .w32 off v = .next (s.withRegs (s.writeReg off v).regs) := by
      rw [s.busWrite_register v hlt hal (Nat.ne_of_gt h0)]
      exact congrArg _ (s.writeReg_eq off v)
    refine ⟨_, hw, fun i => ⟨fun t ht => ?_, fun f hf => ?_⟩⟩
    · exact (exec_withRegs i s _).trans (by rw [ht]; rfl)
    · exact (exec_withRegs i s _).trans (by rw [hf]; rfl)

/-! ## Host accesses and the contexts (R47) -/

/-- The machine with other contexts. -/
def State.withContexts (s : State) (D : List DesCtx) (T : List TdesCtx) (R : List Rc4Ctx) : State :=
  { s with des := D, tdes := T, rc4 := R }

@[simp] theorem State.withContexts_buf (s : State) (D : List DesCtx) (T : List TdesCtx) (R : List Rc4Ctx) :
    (s.withContexts D T R).buf = s.buf := rfl

/-- The same contexts in two states. -/
def SameContexts (s t : State) : Prop := t.des = s.des ∧ t.tdes = s.tdes ∧ t.rc4 = s.rc4

section Contexts
variable {s t : State} {w : Width} {off : Nat}

section WithContexts
variable {D : List DesCtx} {T : List TdesCtx} {R : List Rc4Ctx}
  (hD : D.length = s.des.length) (hT : T.length = s.tdes.length) (hR : R.length = s.rc4.length)
include hD hT hR

/-- A register read sees the numbers of contexts, in CAPS, and nothing else of them. -/
theorem State.readReg_withContexts : (s.withContexts D T R).readReg off = s.readReg off := by
  have hp : (s.withContexts D T R).params = s.params := by simp [State.withContexts, State.params, *]
  unfold State.readReg
  rw [hp]
  rfl

/-- A host read sees no context, and carries other contexts through. -/
theorem State.busRead_withContexts :
    (s.withContexts D T R).busRead w off = mapNext (fun p => (p.1, p.2.withContexts D T R)) (s.busRead w off) := by
  have hreg := State.readReg_withContexts (off := off) hD hT hR
  unfold State.busRead
  simp only [hreg, State.withContexts_buf, apply_ite (mapNext _)]
  cases s.buf.readBytes (off - Config.windowBase) w.bytes <;> rfl
end WithContexts

/-- A host write changes no context. -/
theorem State.busWrite_contexts {v : Word} (h : s.busWrite w off v = .next t) : SameContexts s t := by
  rcases State.busWrite_next h with ⟨-, -, -, rfl⟩ | ⟨-, -, -, -, rfl⟩ | ⟨-, -, rfl⟩ | ⟨-, -, -, -, rfl⟩ <;>
    simp [SameContexts]

/-- The host's turn changes no context. -/
theorem hostTurn_contexts (h : hostTurn s = .next t) : SameContexts s t := by
  rcases hostTurn_next h with ⟨-, rfl⟩ | ⟨w, addr, v, -, hw⟩ | ⟨w, addr, -, hr⟩ | ⟨n, target, -, rfl⟩
  · exact ⟨rfl, rfl, rfl⟩
  · obtain ⟨off, -, hoff⟩ := State.hostWrite_next hw
    have hsame := State.busWrite_contexts hoff
    exact hsame
  · rw [State.hostRead_state hr]; exact ⟨rfl, rfl, rfl⟩
  · exact ⟨rfl, rfl, rfl⟩

/-- The core's turn keeps the contexts but for what its latched command does to them. -/
theorem coreTurn_contexts (h : coreTurn s = .next t) :
    SameContexts s t ∨ ∃ i, decode s.latch.word = .ok i ∧ exec i s = .next t := by
  rcases coreTurn_next h with ⟨i, -, hd, hi⟩ | ⟨e, -, -, rfl⟩ | ⟨-, rfl⟩
  · exact .inr ⟨i, hd, hi⟩
  · exact .inl ⟨rfl, rfl, rfl⟩
  · exact .inl ⟨rfl, rfl, rfl⟩

/-- A step, the reset event apart, keeps the contexts but for what the latched command does to them. -/
theorem step_contexts (h : step s = .next t) (hreset : ∀ rest, s.schedule ≠ .reset :: rest) :
    SameContexts s t ∨ ∃ i u, decode s.latch.word = .ok i ∧ exec i u = .next t ∧ SameContexts u s := by
  refine step_induction (P := fun t => SameContexts s t ∨
    ∃ i u, decode s.latch.word = .ok i ∧ exec i u = .next t ∧ SameContexts u s) h
    (fun u hu ht => ?_) (fun u hu ht => ?_) (fun rest hs _ => absurd hs (hreset rest))
  · have hcore := coreTurn_contexts ht
    rcases hu with rfl | ⟨rest, rfl⟩ <;>
      exact hcore.imp id fun ⟨i, hd, hi⟩ => ⟨i, _, hd, hi, rfl, rfl, rfl⟩
  · have hhost := hostTurn_contexts ht
    rcases hu with rfl | ⟨rest, rfl⟩ <;> exact .inl hhost
end Contexts

/-- Settles O19: a host read commutes with a change of the contexts (`State.busRead_withContexts`), and a step changes a
context only through its latched command (`step_contexts`). -/
theorem contextsHiddenFromHost : Obligations.ContextsHiddenFromHost := by
  refine ⟨fun s u w off hu hD hT hR => ?_, fun s t w off v => State.busWrite_contexts, fun s t h hreset => ?_⟩
  · have hread := State.busRead_withContexts (w := w) (off := off) hD hT hR
    rw [State.withContexts, ← hu] at hread
    refine ⟨fun v t h => ?_, fun f h => by rw [hread, h]; rfl⟩
    refine ⟨?_, ?_, ?_, by rw [hread, h]; rfl⟩ <;> rw [State.busRead_state h]
  · rcases step_contexts h hreset with ⟨hdes, htdes, hrc4⟩ | ⟨i, u, hi, hex, hdes, htdes, hrc4⟩
    · exact ⟨absurd hdes, absurd htdes, absurd hrc4⟩
    · rw [hi, hdes, htdes, hrc4]
      refine ⟨fun hne => ?_, fun hne => ?_, fun hne => ?_⟩
      · by_contra hno
        exact hne (exec_des hex fun c => not_or.1 fun hc => hno ⟨c, by simpa using hc⟩)
      · by_contra hno
        exact hne (exec_tdes hex fun c m => not_or.1 fun hc => hno ⟨c, m, by simpa using hc⟩)
      · by_contra hno
        exact hne (exec_rc4 hex fun c => not_or.1 fun hc => hno ⟨c, by simpa using hc⟩)

end Sys2Proof.Machine
end

section
/-! SUPPORT. The statements of 20_memory.md: the checks and the reads of every command in their order (R71, R143), the
BUF window with its little-endian lanes (R71, R72), and the register space with its reserved offsets (R43, R73). -/
namespace Sys2Proof.Machine

/-! ## The checks and the reads of a command, in order (R71, R143) -/

/-- What Exec answers for a list of checks and a list of regions it reads after them (R143): the code of the first check
that fails; where all pass and some byte of a region was not written, UNINIT_READ (R71). -/
def ChecksThenReads (s : State) (o : CmdOut) (checks : List (Bool × Byte)) (reads : List (Nat × Nat)) : Prop :=
  (∀ b, firstFailed checks = some b → ∃ e, o = .err e ∧ e.code = b) ∧
  (firstFailed checks = none → (∃ r ∈ reads, s.buf.readBytes r.1 r.2 = none) → o = .uninit)

section ChecksThenReads
variable {s : State} {o : CmdOut} {checks : List (Bool × Byte)} {reads : List (Nat × Nat)}

/-- A part of Exec that makes no check and reads nothing. -/
theorem ChecksThenReads.done : ChecksThenReads s o [] [] := by
  constructor <;> simp [firstFailed]

/-- A check in front. -/
theorem ChecksThenReads.check {p : Prop} [Decidable p] {e : ErrCode} {c : Bool} {b : Byte} (hc : c = true ↔ p)
    (hb : e.code = b) (h : p → ChecksThenReads s o checks reads) :
    ChecksThenReads s (require p e o) ((c, b) :: checks) reads := by
  cases c with
  | true =>
    have hp : p := hc.1 rfl
    rw [require_pos hp]
    exact h hp
  | false =>
    rw [require_neg fun hp => absurd (hc.2 hp) Bool.false_ne_true]
    exact ⟨fun b' hb' => ⟨e, rfl, hb.trans (Option.some.inj hb')⟩, fun hnone => nomatch hnone⟩

/-- Two checks of one code are one check of both conditions. -/
theorem require_and {p q : Prop} [Decidable p] [Decidable q] {e : ErrCode} {k : CmdOut} :
    require (p ∧ q) e k = require p e (require q e k) := by
  by_cases hp : p <;> simp [require, hp]

/-- Two checks of one code in front. -/
theorem ChecksThenReads.check_and {p q : Prop} [Decidable p] [Decidable q] {e : ErrCode} {c d : Bool} {b : Byte}
    (hc : c = true ↔ p) (hd : d = true ↔ q) (hb : e.code = b) (h : ChecksThenReads s o checks reads) :
    ChecksThenReads s (require (p ∧ q) e o) ((c, b) :: (d, b) :: checks) reads := by
  rw [require_and]
  exact .check hc hb fun _ => .check hd hb fun _ => h

/-- The context check in front (R145). -/
theorem ChecksThenReads.context {α : Type} {l : List α} {c n : Nat} {k : α → CmdOut} (hn : l.length = n)
    (h : ∀ x, l[c]? = some x → ChecksThenReads s (k x) checks reads) :
    ChecksThenReads s (withCtx l c k) ((decide (c < n), 2) :: checks) reads := by
  subst hn
  by_cases hc : c < l.length
  · rw [withCtx_some (List.getElem?_eq_getElem hc), decide_eq_true hc]
    exact h _ (List.getElem?_eq_getElem hc)
  · rw [withCtx_none (Nat.le_of_not_lt hc), decide_eq_false hc]
    exact ⟨fun b hb => ⟨.badCtx, rfl, Option.some.inj hb⟩, fun hnone => nomatch hnone⟩

/-- The context check and the check of a key state of the context in front (R145, R330). -/
theorem ChecksThenReads.keyed {α : Type} {l : List α} {c n : Nat} {valid : α → Bool} {key : Bool} {k : α → CmdOut}
    (hn : l.length = n) (hkey : ∀ x, l[c]? = some x → key = valid x) (h : ∀ x, ChecksThenReads s (k x) checks reads) :
    ChecksThenReads s (withCtx l c fun x => require (valid x = true) .keyNotSet (k x))
      ((decide (c < n), 2) :: (key, 3) :: checks) reads :=
  .context hn fun x hx => .check (by rw [hkey x hx]) rfl fun _ => h x

/-- The check of several regions checks them one after the other (R75). -/
theorem requireRegions_cons {r : Nat × Nat} {rs : List (Nat × Nat)} :
    requireRegions s (r :: rs) o = require (r.1 + r.2 ≤ s.bufSize) .addrRange (requireRegions s rs o) := by
  simp only [requireRegions, ← require_and, List.all_cons, Bool.and_eq_true, State.regionValid, decide_eq_true_eq]

/-- The region check in front: one check for each region (R75). -/
theorem ChecksThenReads.regions {rs : List (Nat × Nat)} (h : ChecksThenReads s o checks reads) :
    ChecksThenReads s (requireRegions s rs o) (rs.map (fun r => inBuf s r.1 r.2) ++ checks) reads := by
  induction rs with
  | nil => exact h
  | cons r rs ih => exact requireRegions_cons ▸ .check decide_eq_true_iff rfl fun _ => ih

/-- A region read in front, after the checks (R71). -/
theorem ChecksThenReads.read {a n : Nat} {k : Bytes → CmdOut} (h : ∀ B, ChecksThenReads s (k B) [] reads) :
    ChecksThenReads s (withBytes s a n k) [] ((a, n) :: reads) := by
  refine ⟨fun b hb => (nomatch hb), fun _ hr => ?_⟩
  cases hB : s.buf.readBytes a n with
  | none => exact withBytes_none hB
  | some B =>
    rw [withBytes_some hB]
    refine (h B).2 rfl ?_
    simpa [hB] using hr

/-- The checks and the read of a single-block command. -/
theorem blockCommand_checksThenReads {f : Bytes → Except ErrCode Bytes} :
    ChecksThenReads s (blockCommand s f) [inBuf s s.opSrc 8, inBuf s s.opDst 8] [(s.opSrc, 8)] :=
  .regions (.read fun _ => .done)

/-- The checks and the read of an adapter command. -/
theorem bufferCommand_checksThenReads {g : Bytes → Except ErrCode Bytes} :
    ChecksThenReads s (bufferCommand s g) [inBuf s s.opSrc s.opLen, inBuf s s.opDst s.opLen] [(s.opSrc, s.opLen)] :=
  .regions (.read fun _ => .done)
end ChecksThenReads

/-- There are as many selected contexts as contexts of their kind (R330). -/
theorem cipherList_length (s : State) (k : CipherKind) : (cipherList s k).length = ctxCount s k := by
  cases k <;> exact List.length_map _

/-- The key states of a selected context are those of the context (R330). -/
theorem keyed_of_cipherList {s : State} {k : CipherKind} {c : Nat} {x : BlockCipher}
    (h : (cipherList s k)[c]? = some x) :
    encKeyed s k c = x.encValid ∧ decKeyed s k c = x.decValid := by
  cases k with
  | des =>
    obtain ⟨y, hy, rfl⟩ := Option.map_eq_some_iff.1 (List.getElem?_map.symm.trans h)
    simp [encKeyed, decKeyed, hy, desCipher]
  | tdes =>
    obtain ⟨y, hy, rfl⟩ := Option.map_eq_some_iff.1 (List.getElem?_map.symm.trans h)
    simp [encKeyed, decKeyed, hy, tdesCipher]

/-- Every command makes the checks of its rule in order and reads its regions after them. -/
theorem commandOut_checksThenReads (i : Instr) (s : State) :
    ChecksThenReads s (commandOut i s) (commandChecks i s) (readRegions i s) := by
  have read1 {a n : Nat} {k : Bytes → CmdOut} : ChecksThenReads s (withBytes s a n k) [] [(a, n)] :=
    .read fun _ => .done
  have read2 {a n a' n' : Nat} {k : Bytes → Bytes → CmdOut} :
      ChecksThenReads s (withBytes s a n fun B => withBytes s a' n' (k B)) [] [(a, n), (a', n')] :=
    .read fun _ => read1
  have holds {p : Prop} [Decidable p] : decide p = true ↔ p := decide_eq_true_iff
  cases i
  case nop => exact .done
  case desSetek | desSetdk | tdesSetek | tdesSetdk | rc4Mutate =>
    exact .context rfl fun _ _ => .check holds rfl fun _ => .regions read1
  case desEnc | tdesEnc =>
    exact .keyed rfl (fun _ hx => by simp only [encKeyed, hx]) fun _ => blockCommand_checksThenReads
  case desDec | tdesDec =>
    exact .keyed rfl (fun _ hx => by simp only [decKeyed, hx]) fun _ => blockCommand_checksThenReads
  case desBsize | tdesBsize => exact .context rfl fun _ _ => .done
  case encBytes k _ =>
    exact .keyed (cipherList_length s k) (fun _ hx => (keyed_of_cipherList hx).1) fun _ =>
      .check holds rfl fun _ => bufferCommand_checksThenReads
  case decBytes k _ =>
    exact .keyed (cipherList_length s k) (fun _ hx => (keyed_of_cipherList hx).2) fun _ =>
      .check holds rfl fun _ => bufferCommand_checksThenReads
  case encFile k _ =>
    exact .keyed (cipherList_length s k) (fun _ hx => (keyed_of_cipherList hx).1) fun _ => bufferCommand_checksThenReads
  case decFile k _ =>
    exact .keyed (cipherList_length s k) (fun _ hx => (keyed_of_cipherList hx).2) fun _ => bufferCommand_checksThenReads
  case rc4Encode => exact .keyed rfl (fun _ hx => by simp only [rc4Keyed?, hx]) fun _ => .regions read1
  case permute => exact .regions read2
  case subst | mask => exact .check_and holds holds rfl (.regions read2)
  case rotl | rotr | getbits | swapbits => exact .check (holds.trans (by omega)) rfl fun _ => .regions read1
  case getbit | setbit => exact .check holds rfl fun _ => .regions read1

/-- The inputs of a command are written unless some region it reads gives no bytes (R71). -/
theorem inputsWritten_iff {i : Instr} {s : State} :
    InputsWritten i s ↔ ¬ ∃ r ∈ readRegions i s, s.buf.readBytes r.1 r.2 = none := by
  have region (r : Nat × Nat) :
      (∀ a, r.1 ≤ a → a < r.1 + r.2 → (s.buf.read a).isSome = true) ↔ s.buf.readBytes r.1 r.2 ≠ none :=
    Memory.readBytes_isSome.symm.trans Option.ne_none_iff_exists'.symm
  simp only [InputsWritten, region, not_exists, not_and, ne_eq]

/-- Every command fails as its checks say, and stops where they pass and an input byte was not written (R71, R143,
R146). -/
theorem exec_failsAsChecked (i : Instr) (s : State) : FailsAsChecked i s := by
  obtain ⟨hfails, hstops⟩ := commandOut_checksThenReads i s
  refine ⟨fun b hb => ?_, fun hpass hin => ?_⟩
  · obtain ⟨e, he, rfl⟩ := hfails b hb
    rw [exec_eq_finish, he]
    rfl
  · rw [exec_eq_finish, hstops hpass (not_not.1 fun h => hin (inputsWritten_iff.2 h))]
    rfl

/-! ## Little-endian lanes (R72) -/

/-- Lane t of a value is its bits 8t to 8t + 7 (R72). -/
theorem laneBytes_getElem (n : Nat) (v : Word) (t : Nat) (h : t < (laneBytes n v).length) :
    (laneBytes n v)[t] = v.extractLsb' (8 * t) 8 := by
  induction n generalizing v t with
  | zero => simp [laneBytes] at h
  | succ n ih =>
    cases t with
    | zero => exact BitVec.setWidth_eq_extractLsb' (by decide : 8 ≤ 32)
    | succ t =>
      have hrest : (laneBytes n (v >>> 8))[t]'(by simpa using h) = (v >>> 8).extractLsb' (8 * t) 8 := ih _ _ _
      simp only [laneBytes, List.getElem_cons_succ, hrest]
      ext i hi
      simp [Nat.mul_add, Nat.add_comm, Nat.add_left_comm]

/-- Bit i of a word read is bit i % 8 of its byte i / 8 (R72). -/
theorem laneWord_getLsbD (B : Bytes) (i : Nat) (hi : i < 32) :
    (laneWord B).getLsbD i = (B.getD (i / 8) 0).getLsbD (i % 8) := by
  induction B generalizing i with
  | nil => simp [laneWord]
  | cons b B ih =>
    rw [laneWord, BitVec.getLsbD_or, BitVec.getLsbD_setWidth, BitVec.getLsbD_shiftLeft]
    rcases Nat.lt_or_ge i 8 with hlt | hge
    · simp [hi, hlt, Nat.div_eq_of_lt hlt, Nat.mod_eq_of_lt hlt]
    · have hdiv : i / 8 = (i - 8) / 8 + 1 := by omega
      have hmod : i % 8 = (i - 8) % 8 := by omega
      rw [ih (i - 8) (by omega), hdiv, hmod, List.getD_cons_succ]
      simp [hi, Nat.not_lt.2 hge, BitVec.getLsbD_of_ge b i hge]

/-- Four bytes read in little-endian lanes (R72): the first is the least significant. -/
theorem laneWord_four (b0 b1 b2 b3 : Byte) :
    laneWord [b0, b1, b2, b3] = (b3 ++ b2 ++ b1 ++ b0 : BitVec (8 + 8 + 8 + 8)) := by
  refine BitVec.eq_of_getLsbD_eq fun i hi => ?_
  obtain ⟨lane, t, ht, rfl⟩ : ∃ lane t, t < 8 ∧ i = 8 * lane + t := ⟨i / 8, i % 8, by omega, by omega⟩
  have hdiv : (8 * lane + t) / 8 = lane := by omega
  have hmod : (8 * lane + t) % 8 = t := by omega
  have hlane : lane < 4 := by omega
  rw [laneWord_getLsbD _ _ hi, hdiv, hmod]
  interval_cases lane <;> simp only [List.getD_cons_succ, List.getD_cons_zero, BitVec.getLsbD_append] <;> grind

/-- One byte read is zero-extended (log 17). -/
theorem laneWord_one (b : Byte) : laneWord [b] = b.setWidth 32 := by simp [laneWord]

/-- A byte of the region just written reads as its lane of the value (R72). -/
theorem Memory.read_writeBytes_laneBytes (m : Memory) (a : Nat) {n k : Nat} (v : Word) (hk : k < n) :
    (m.writeBytes a (laneBytes n v)).read (a + k) = some (v.extractLsb' (8 * k) 8) := by
  have hlen : k < (laneBytes n v).length := by rwa [laneBytes_length]
  rw [Memory.read_writeBytes_in m a k _ hlen, laneBytes_getElem]

/-! ## The BUF window (R71, R72) -/

section Window
variable {s t : State} {w : Width} {a : Nat} {v : Word}

/-- A supported access to BUF: 8 bits at any address, or 32 bits at a 4-byte-aligned one (R72). -/
def WindowAccess (w : Width) (a : Nat) : Prop := w = .w8 ∨ (w = .w32 ∧ a % 4 = 0)

theorem bufAccessOk_window : bufAccessOk w (Config.windowBase + a) = true ↔ WindowAccess w a := by
  have hmod : (Config.windowBase + a) % 4 = a % 4 := by unfold Config.windowBase; omega
  rw [bufAccessOk, decide_eq_true_iff, WindowAccess, hmod]

/-- A supported read of BUF by an idle core, all bytes of it written, gives their lanes and changes nothing (R72,
R82). -/
theorem State.busRead_window {B : Bytes} (hidle : s.status.busy = false) (ha : a < s.bufSize) (hw : WindowAccess w a)
    (hB : s.buf.readBytes a w.bytes = some B) : s.busRead w (Config.windowBase + a) = .next (laneWord B, s) := by
  simp [State.busRead, bufAccessOk_window.2 hw, Nat.not_le.2 ha, hidle, hB]

/-- A supported read of BUF by an idle core stops where a byte of it was not written (R71). -/
theorem State.busRead_window_unwritten (hidle : s.status.busy = false) (ha : a < s.bufSize) (hw : WindowAccess w a)
    (hB : s.buf.readBytes a w.bytes = none) : s.busRead w (Config.windowBase + a) = .fault .uninitRead := by
  simp [State.busRead, bufAccessOk_window.2 hw, Nat.not_le.2 ha, hidle, hB]

/-- A supported write of BUF by an idle core stores the lanes of the value (R72). -/
theorem State.busWrite_window (v : Word) (hidle : s.status.busy = false) (ha : a < s.bufSize) (hw : WindowAccess w a) :
    s.busWrite w (Config.windowBase + a) v = .next { s with buf := s.buf.writeBytes a (laneBytes w.bytes v) } := by
  simp [State.busWrite, bufAccessOk_window.2 hw, Nat.not_le.2 ha, hidle]

/-- Every other access at and above the base of the window is HOST_ACCESS, busy or idle (R72). -/
theorem State.busAccess_window_unsupported (v : Word) (hw : ¬ WindowAccess w a) :
    s.busRead w (Config.windowBase + a) = .fault .hostAccess ∧
    s.busWrite w (Config.windowBase + a) v = .fault .hostAccess := by
  have hno := Bool.eq_false_iff.2 fun h => hw (bufAccessOk_window.1 h)
  simp [State.busRead, State.busWrite, hno]

/-- A supported access above BUF reads 0 and ignores writes, busy or idle (R43). -/
theorem State.busAccess_above_buf (v : Word) (ha : s.bufSize ≤ a) (hw : WindowAccess w a) :
    s.busRead w (Config.windowBase + a) = .next (0, s) ∧ s.busWrite w (Config.windowBase + a) v = .next s := by
  simp [State.busRead, State.busWrite, bufAccessOk_window.2 hw, ha]

/-- A write of BUF that completes stores the lanes of its value (R72). -/
theorem State.busWrite_window_next (ha : a < s.bufSize) (h : s.busWrite w (Config.windowBase + a) v = .next t) :
    t = { s with buf := s.buf.writeBytes a (laneBytes w.bytes v) } := by
  have hsub : Config.windowBase + a - Config.windowBase = a := Nat.add_sub_cancel_left _ _
  rcases State.busWrite_next h with ⟨hcmd, -⟩ | ⟨hlt, -⟩ | ⟨-, habove, -⟩ | ⟨-, -, -, -, ht⟩
  · simp [Config.windowBase, Config.offCmd] at hcmd
  · omega
  · omega
  · rw [ht, hsub]
end Window

/-- Settles O18: a command by its checks and reads in order (`exec_failsAsChecked`), a host access by the rules of the
window. -/
theorem unwrittenByteReadFaults : Obligations.UnwrittenByteReadFaults := by
  refine ⟨fun p a => rfl, fun s => ⟨fun i => (exec_failsAsChecked i s).2, fun w a hidle ha hw hk => ?_,
    fun w a v t k ha hwrite hk => ?_⟩⟩
  · obtain ⟨k, hk, hnone⟩ := hk
    refine State.busRead_window_unwritten hidle ha hw (Option.eq_none_iff_forall_ne_some.2 fun B hB => ?_)
    have hwritten := Memory.readBytes_isSome.1 ⟨B, hB⟩ (a + k) (by omega) (by omega)
    rw [hnone] at hwritten
    exact Bool.false_ne_true hwritten
  · rw [State.busWrite_window_next ha hwrite]
    exact Option.isSome_of_eq_some (Memory.read_writeBytes_laneBytes s.buf a v hk)

/-- Settles O15, from the rules of the window and of the lanes. -/
theorem bufWindowAccesses : Obligations.BufWindowAccesses := by
  intro s hidle
  have write {w : Width} {a : Nat} (v : Word) (ha : a < s.bufSize) (hw : WindowAccess w a) :
      s.busWrite w (0x10000 + a) v = .next { s with buf := s.buf.writeBytes a (laneBytes w.bytes v) } :=
    State.busWrite_window v hidle ha hw
  refine ⟨fun a b ha hb => ?_, fun a b ha => ?_, fun a b0 b1 b2 b3 hal ha h0 h1 h2 h3 => ?_, fun a v hal ha => ?_,
    fun a w v ha hw => ?_⟩
  · have hread : s.buf.readBytes a Width.w8.bytes = some [b] := by
      simp [Width.bytes, Memory.readBytes, hb]
    exact ⟨laneWord [b], State.busRead_window hidle ha (.inl rfl) hread, by simp [laneWord_one]⟩
  · refine ⟨_, write _ ha (.inl rfl), rfl, ?_, fun p hp => ?_⟩
    · have hlow : (b.setWidth 32).extractLsb' 0 8 = b := by
        rw [← BitVec.setWidth_eq_extractLsb' (by decide), BitVec.setWidth_setWidth_of_le b (by decide),
          BitVec.setWidth_eq]
      exact (Memory.read_writeBytes_laneBytes s.buf a (b.setWidth 32) Nat.one_pos).trans (congrArg some hlow)
    · exact Memory.read_writeBytes_out _ _ _ _ (by rw [laneBytes_length, Width.bytes]; omega)
  · have hread : s.buf.readBytes a Width.w32.bytes = some [b0, b1, b2, b3] := by
      simp [Width.bytes, Memory.readBytes, h0, h1, h2, h3]
    rw [← laneWord_four]
    exact State.busRead_window hidle ha (.inr ⟨rfl, hal⟩) hread
  · have lane {k : Nat} (hk : k < 4) := Memory.read_writeBytes_laneBytes s.buf a v hk
    refine ⟨_, write v ha (.inr ⟨rfl, hal⟩), rfl, lane (k := 0) (by decide), lane (k := 1) (by decide),
      lane (k := 2) (by decide), lane (k := 3) (by decide), fun p hp => ?_⟩
    exact Memory.read_writeBytes_out _ _ _ _ (by rw [laneBytes_length]; exact hp)
  · refine State.busAccess_window_unsupported v fun hok => ?_
    rcases hw with rfl | ⟨rfl, hne⟩
    · simp [WindowAccess] at hok
    · exact hne (by simpa [WindowAccess] using hok)

/-! ## The register space (R43, R73) -/

section RegisterSpace
variable {s : State} {w : Width} {off : Nat}

/-- Every access of another width or alignment below the window is HOST_ACCESS, busy or idle (R73; log 10). -/
theorem State.busAccess_register_unsupported (v : Word) (hlt : off < Config.windowBase)
    (hno : ¬ (w = .w32 ∧ off % 4 = 0)) :
    s.busRead w off = .fault .hostAccess ∧ s.busWrite w off v = .fault .hostAccess := by
  have hreg : regAccessOk w off = false := decide_eq_false hno
  simp [State.busRead, State.busWrite, hlt, hreg]

/-- A supported write of the register block is never HOST_ACCESS (R73). -/
theorem State.busWrite_register_ne_hostAccess (v : Word) (hlt : off < Config.windowBase) (hal : off % 4 = 0) :
    s.busWrite .w32 off v ≠ .fault .hostAccess := by
  by_cases hcmd : off = Config.offCmd
  · subst hcmd
    cases hbusy : s.status.busy <;> simp [State.busWrite, regAccessOk, Config.offCmd, Config.windowBase, hbusy]
  · rw [s.busWrite_register v hlt hal hcmd]
    exact fun h => nomatch h

/-- The offsets of the registers (R34). -/
def registerOffsets : List Nat :=
  [0x000, 0x004, 0x008, 0x00C, 0x010, 0x020, 0x024, 0x028, 0x02C, 0x030, 0x034, 0x038]

/-- A reserved offset reads 0 (R43). -/
theorem State.readReg_of_not_mem (h : off ∉ registerOffsets) : s.readReg off = 0 := by
  have hne {o : Nat} (ho : o ∈ registerOffsets) : off ≠ o := fun heq => h (heq ▸ ho)
  unfold State.readReg
  repeat rw [if_neg (hne (by decide))]

/-- A supported access at a reserved offset of the register block reads 0 and ignores writes (R43). -/
theorem State.busAccess_register_reserved (v : Word) (hlt : off < Config.windowBase) (hal : off % 4 = 0)
    (h : off ∉ registerOffsets) : s.busRead .w32 off = .next (0, s) ∧ s.busWrite .w32 off v = .next s := by
  have hop : off ∉ operandOffsets := fun hm =>
    h ((by decide : ∀ o ∈ operandOffsets, o ∈ registerOffsets) off hm)
  have hcmd : off ≠ Config.offCmd := fun hc => h (hc ▸ by decide)
  rw [s.busRead_register hlt hal, s.busWrite_register v hlt hal hcmd, State.readReg_of_not_mem h,
    s.writeReg_of_not_mem v hop]
  exact ⟨rfl, rfl⟩

/-- Addresses above the core's 128 KiB are the platform's (R43, R382). -/
theorem State.offsetOf_above {addr : Nat} (h : s.coreBase + Config.coreSpan ≤ addr) : s.offsetOf addr = none :=
  if_neg fun hin => Nat.not_le.2 hin.2 h
end RegisterSpace

/-- Settles O13: offsets below the window by the rules of the register block, those above BUF by the window's. -/
theorem registerSpaceAccesses : Obligations.RegisterSpaceAccesses := by
  refine fun s => ⟨fun w off v hlt => ⟨?_, fun hno => State.busAccess_register_unsupported v hlt hno⟩,
    fun off v hal _ hreg hbuf => ?_, fun addr => State.offsetOf_above⟩
  · rintro ⟨rfl, hal⟩
    exact ⟨s.busRead_register hlt hal, State.busWrite_register_ne_hostAccess v hlt hal⟩
  · rcases Nat.lt_or_ge off 0x10000 with hlt | hge
    · exact State.busAccess_register_reserved v hlt hal hreg
    · obtain ⟨a, rfl⟩ := Nat.exists_eq_add_of_le hge
      exact State.busAccess_above_buf v (by omega) (.inr ⟨rfl, by omega⟩)

end Sys2Proof.Machine
end

section
/-! SUPPORT. The statements of 30_encoding.md: legal words in terms of the word's fields (R100, R108), the decoder of
each row of the opcode map (R103, R106), and decode against encode (R110). -/
namespace Sys2Proof.Machine

/-! ## The fields of a word (R100) -/

section Fields
variable {w : Word}

theorem opcField_toNat (w : Word) : (opcField w).toNat = w.toNat % 256 := by
  simp [opcField, BitVec.extractLsb'_toNat]

theorem ctxField_toNat (w : Word) : (ctxField w).toNat = w.toNat / 256 % 16 := by
  simp [ctxField, BitVec.extractLsb'_toNat, Nat.shiftRight_eq_div_pow]

theorem modField_toNat (w : Word) : (modField w).toNat = w.toNat / 4096 % 16 := by
  simp [modField, BitVec.extractLsb'_toNat, Nat.shiftRight_eq_div_pow]

theorem rsvField_toNat (w : Word) : (rsvField w).toNat = w.toNat / 65536 := by
  have hw : w.toNat < 2 ^ 32 := w.isLt
  simp only [rsvField, BitVec.extractLsb'_toNat, Nat.shiftRight_eq_div_pow]
  omega

/-- A word whose RSV is 0 is assembled from its other fields (R100, R104). -/
theorem assembleWord_fields (hr : rsvField w = 0) :
    assembleWord (opcField w) (ctxField w).toNat (modField w) = w := by
  rw [assembleWord, BitVec.ofNat_toNat, BitVec.setWidth_eq, show 0#16 = rsvField w from hr.symm]
  ext i hi
  simp only [opcField, ctxField, modField, rsvField, BitVec.getElem_append, BitVec.getElem_extractLsb']
  grind

/-- R108 on the fields of the word. -/
theorem legalWord_iff_fields : LegalWord w ↔
    (opcField w).toNat ∈ opcodeNumbers ∧ rsvField w = 0 ∧ (modField w).toNat < modValues (opcField w).toNat ∧
      ((opcField w).toNat = 0x45 → (modField w).toNat % 4 ≠ 3) ∧
      ((opcField w).toNat = 0x00 ∨ 0x41 ≤ (opcField w).toNat → ctxField w = 0) := by
  rw [← BitVec.toNat_inj (x := rsvField w), ← BitVec.toNat_inj (x := ctxField w), opcField_toNat, ctxField_toNat,
    modField_toNat, rsvField_toNat]
  exact Iff.rfl

/-- An opcode whose commands have a context, with the number of values its MOD may take (R102, R103). -/
abbrev ContextOpcode (opc : BitVec 8) (n : Nat) : Prop :=
  opc.toNat ∈ opcodeNumbers ∧ modValues opc.toNat = n ∧ 0x00 < opc.toNat ∧ opc.toNat < 0x41

/-- An opcode other than MASK whose commands have no context, with the number of values its MOD may take. -/
abbrev PlainOpcode (opc : BitVec 8) (n : Nat) : Prop :=
  opc.toNat ∈ opcodeNumbers ∧ modValues opc.toNat = n ∧ (opc.toNat = 0x00 ∨ 0x41 ≤ opc.toNat) ∧ opc.toNat ≠ 0x45

theorem legalWord_iff_of_context {n : Nat} (hr : rsvField w = 0) (h : ContextOpcode (opcField w) n) :
    LegalWord w ↔ (modField w).toNat < n := by
  obtain ⟨hmem, rfl, hpos, hlt⟩ := h
  rw [legalWord_iff_fields]
  exact ⟨fun ⟨_, _, hmod, _⟩ => hmod, fun hmod => ⟨hmem, hr, hmod, by omega, by omega⟩⟩

theorem legalWord_iff_of_plain {n : Nat} (hr : rsvField w = 0) (h : PlainOpcode (opcField w) n) :
    LegalWord w ↔ ctxField w = 0 ∧ (modField w).toNat < n := by
  obtain ⟨hmem, rfl, hno, hmask⟩ := h
  rw [legalWord_iff_fields]
  exact ⟨fun ⟨_, _, hmod, _, hctx⟩ => ⟨hctx hno, hmod⟩,
    fun ⟨hctx, hmod⟩ => ⟨hmem, hr, hmod, fun heq => absurd heq hmask, fun _ => hctx⟩⟩

/-- The legal words of MASK: the OP value 3 is reserved (R108 (d)). -/
theorem legalWord_iff_of_mask (hr : rsvField w = 0) (h : opcField w = 0x45) :
    LegalWord w ↔ ctxField w = 0 ∧ (modField w).toNat < 3 := by
  have hmods : modValues (0x45 : BitVec 8).toNat = 4 := rfl
  rw [legalWord_iff_fields, h, hmods]
  constructor
  · rintro ⟨-, -, hmod, hop, hctx⟩
    have hop := hop rfl
    exact ⟨hctx (.inr (by decide)), by omega⟩
  · rintro ⟨hctx, hmod⟩
    exact ⟨by decide, hr, by omega, fun _ => by omega, fun _ => hctx⟩
end Fields

/-! ## The modifier of every row (R103) -/

theorem modField_no_bits : ∀ m : BitVec 4, m = 0 ↔ m.toNat < 1 := by decide
theorem modField_two_bits : ∀ m : BitVec 4, m.extractLsb' 2 2 = 0 ↔ m.toNat < 4 := by decide
theorem modField_one_bit : ∀ m : BitVec 4, m.extractLsb' 1 3 = 0 ↔ m.toNat < 2 := by decide

theorem modeCode_modeOf : ∀ m : BitVec 4, m.toNat < 4 → modeCode (modeOf (m.extractLsb' 0 2)) = m := by decide
theorem selCode_selOf : ∀ m : BitVec 4, m.toNat < 2 → selCode (selOf (m.getLsbD 0)) = m := by decide
theorem permuteCode_of_bits : ∀ m : BitVec 4, m.toNat < 4 →
    permuteCode (baseOf (m.getLsbD 0)) (orderOf (m.getLsbD 1)) = m := by decide
theorem maskCode_of_bits : ∀ (m : BitVec 4) (k : BitVec 2),
    m.toNat < 4 → m.extractLsb' 0 2 = k → m = k.setWidth 4 := by decide
theorem maskOp_reserved : ∀ m : BitVec 4, m.extractLsb' 0 2 ≠ 0 → m.extractLsb' 0 2 ≠ 1 → m.extractLsb' 0 2 ≠ 2 →
    ¬ m.toNat < 3 := by decide
theorem setbitCode_of_bit : ∀ m : BitVec 4, m.toNat < 2 → (if m.getLsbD 0 then 1 else 0 : BitVec 4) = m := by decide

/-! ## The decoder of each row (R106) -/

/-- An answer of the decoder is right for the word: a command if the word is legal, well formed and with the word as
its encoding; an error if it is not legal (R108, R110). -/
def Denotes (w : Word) : Except DecodeError Instr → Prop
  | .ok i => LegalWord w ∧ i.wf = true ∧ encode i = w
  | .error _ => ¬ LegalWord w

section Rows
variable {w : Word} {opc : BitVec 8}

/-- A well-formed command whose encoding has the fields of a legal word is the right answer for that word. -/
theorem denotes_ok {i : Instr} (hr : rsvField w = 0) (hlegal : LegalWord w) (hwf : i.wf = true)
    (henc : encode i = assembleWord (opcField w) (ctxField w).toNat (modField w)) : Denotes w (.ok i) :=
  ⟨hlegal, hwf, henc.trans (assembleWord_fields hr)⟩

/-- A check of the decoder that every legal word meets. -/
theorem denotes_check {A : Prop} [Decidable (¬ A)] {e : DecodeError} {r : Except DecodeError Instr}
    (hA : LegalWord w → A) (hok : A → Denotes w r) : Denotes w (if ¬ A then .error e else r) := by
  by_cases h : A
  · rw [if_neg (not_not.2 h)]
    exact hok h
  · rw [if_pos h]
    exact fun hl => h (hA hl)

theorem ctxField_fits (w : Word) : decide ((ctxField w).toNat < 16) = true := decide_eq_true (ctxField w).isLt

theorem decodePlain_denotes {i : Instr} (hr : rsvField w = 0) (hopc : opcField w = opc) (hrow : PlainOpcode opc 1)
    (hi : i.wf = true ∧ encode i = assembleWord opc 0 0) : Denotes w (decodePlain w i) := by
  subst hopc
  have hlegal := legalWord_iff_of_plain hr hrow
  exact denotes_check (fun hl => (hlegal.1 hl).1) fun hctx =>
    denotes_check (fun hl => (modField_no_bits _).2 (hlegal.1 hl).2) fun hmod =>
      denotes_ok hr (hlegal.2 ⟨hctx, (modField_no_bits _).1 hmod⟩) hi.1 (by rw [hi.2, hctx, hmod]; rfl)

theorem decodeCtx_denotes {f : Nat → Instr} (hr : rsvField w = 0) (hopc : opcField w = opc)
    (hrow : ContextOpcode opc 1)
    (hf : ∀ c, (f c).wf = decide (c < 16) ∧ encode (f c) = assembleWord opc c 0) : Denotes w (decodeCtx w f) := by
  subst hopc
  have hlegal := legalWord_iff_of_context hr hrow
  exact denotes_check (fun hl => (modField_no_bits _).2 (hlegal.1 hl)) fun hmod =>
    denotes_ok hr (hlegal.2 ((modField_no_bits _).1 hmod)) ((hf _).1.trans (ctxField_fits w))
      (by rw [(hf _).2, hmod])

theorem decodeCtxMode_denotes {f : Nat → TdesMode → Instr} (hr : rsvField w = 0) (hopc : opcField w = opc)
    (hrow : ContextOpcode opc 4)
    (hf : ∀ c m, (f c m).wf = decide (c < 16) ∧ encode (f c m) = assembleWord opc c (modeCode m)) :
    Denotes w (decodeCtxMode w f) := by
  subst hopc
  have hlegal := legalWord_iff_of_context hr hrow
  refine denotes_check (fun hl => (modField_two_bits _).2 (hlegal.1 hl)) fun hmod => ?_
  have hmod := (modField_two_bits _).1 hmod
  exact denotes_ok hr (hlegal.2 hmod) ((hf _ _).1.trans (ctxField_fits w))
    (by rw [(hf _ _).2, modeCode_modeOf _ hmod])

theorem decodeCtxSel_denotes {f : CipherKind → Nat → Instr} (hr : rsvField w = 0) (hopc : opcField w = opc)
    (hrow : ContextOpcode opc 2)
    (hf : ∀ k c, (f k c).wf = decide (c < 16) ∧ encode (f k c) = assembleWord opc c (selCode k)) :
    Denotes w (decodeCtxSel w f) := by
  subst hopc
  have hlegal := legalWord_iff_of_context hr hrow
  refine denotes_check (fun hl => (modField_one_bit _).2 (hlegal.1 hl)) fun hmod => ?_
  have hmod := (modField_one_bit _).1 hmod
  exact denotes_ok hr (hlegal.2 hmod) ((hf _ _).1.trans (ctxField_fits w))
    (by rw [(hf _ _).2, selCode_selOf _ hmod])

theorem decodePermute_denotes (hr : rsvField w = 0) (hopc : opcField w = 0x41) : Denotes w (decodePermute w) := by
  have hlegal : LegalWord w ↔ ctxField w = 0 ∧ (modField w).toNat < 4 :=
    legalWord_iff_of_plain hr (by rw [hopc]; decide)
  refine denotes_check (fun hl => (hlegal.1 hl).1) fun hctx =>
    denotes_check (fun hl => (modField_two_bits _).2 (hlegal.1 hl).2) fun hmod => ?_
  have hmod := (modField_two_bits _).1 hmod
  refine denotes_ok hr (hlegal.2 ⟨hctx, hmod⟩) rfl ?_
  rw [encode, permuteCode_of_bits _ hmod, hctx, hopc]
  rfl

/-- A MASK word with the code of an operation in MOD. -/
theorem mask_denotes {op : MaskOp} (hr : rsvField w = 0) (hopc : opcField w = 0x45) (hctx : ctxField w = 0)
    (hmod : modField w = maskCode op) : Denotes w (.ok (.mask op)) := by
  have hlt : (maskCode op).toNat < 3 := by cases op <;> decide
  refine denotes_ok hr ((legalWord_iff_of_mask hr hopc).2 ⟨hctx, hmod ▸ hlt⟩) rfl ?_
  rw [encode, hmod, hctx, hopc]
  rfl

theorem decodeMask_denotes (hr : rsvField w = 0) (hopc : opcField w = 0x45) : Denotes w (decodeMask w) := by
  have hlegal := legalWord_iff_of_mask hr hopc
  refine denotes_check (fun hl => (hlegal.1 hl).1) fun hctx =>
    denotes_check (fun hl => (modField_two_bits _).2 (Nat.lt_succ_of_lt (hlegal.1 hl).2)) fun hmod => ?_
  have hop k := maskCode_of_bits _ k ((modField_two_bits _).1 hmod)
  dsimp only
  split_ifs with hand hor hxor
  · exact mask_denotes hr hopc hctx (hop 0 hand)
  · exact mask_denotes hr hopc hctx (hop 1 hor)
  · exact mask_denotes hr hopc hctx (hop 2 hxor)
  · exact fun hl => maskOp_reserved _ hand hor hxor (hlegal.1 hl).2

theorem decodeSetbit_denotes (hr : rsvField w = 0) (hopc : opcField w = 0x47) : Denotes w (decodeSetbit w) := by
  have hlegal : LegalWord w ↔ ctxField w = 0 ∧ (modField w).toNat < 2 :=
    legalWord_iff_of_plain hr (by rw [hopc]; decide)
  refine denotes_check (fun hl => (hlegal.1 hl).1) fun hctx =>
    denotes_check (fun hl => (modField_one_bit _).2 (hlegal.1 hl).2) fun hmod => ?_
  have hmod := (modField_one_bit _).1 hmod
  refine denotes_ok hr (hlegal.2 ⟨hctx, hmod⟩) rfl ?_
  rw [encode, setbitCode_of_bit _ hmod, hctx, hopc]
  rfl
end Rows

/-! ## The decoder (R106, R108, R110) -/

section Decoder
variable {w : Word} {i : Instr}

/-- One row of the opcode map: the row's opcode, or one of those that are still to come. -/
theorem denotes_row {opc : BitVec 8} {rest : List Nat} {r r' : Except DecodeError Instr}
    (hopc : LegalWord w → (opcField w).toNat ∈ opc.toNat :: rest) (hrow : opcField w = opc → Denotes w r)
    (hrest : (LegalWord w → (opcField w).toNat ∈ rest) → Denotes w r') :
    Denotes w (if opcField w = opc then r else r') := by
  split_ifs with h
  · exact hrow h
  · exact hrest fun hl => (List.mem_cons.1 (hopc hl)).resolve_left fun heq => h (BitVec.eq_of_toNat_eq heq)

/-- The opcode map, row by row; an opcode of none of the rows is not assigned (R106, R108 (a)). -/
theorem decodeOpcode_denotes (hr : rsvField w = 0) : Denotes w (decodeOpcode w) := by
  have hopc (hl : LegalWord w) : (opcField w).toNat ∈ opcodeNumbers := (legalWord_iff_fields.1 hl).1
  -- NOP
  refine denotes_row hopc (fun h => decodePlain_denotes hr h (by decide) ⟨rfl, rfl⟩) fun hopc => ?_
  -- DES_*
  iterate 5 refine denotes_row hopc (fun h => decodeCtx_denotes hr h (by decide) fun _ => ⟨rfl, rfl⟩) fun hopc => ?_
  -- TDES_*
  iterate 2
    refine denotes_row hopc (fun h => decodeCtxMode_denotes hr h (by decide) fun _ _ => ⟨rfl, rfl⟩) fun hopc => ?_
  iterate 3 refine denotes_row hopc (fun h => decodeCtx_denotes hr h (by decide) fun _ => ⟨rfl, rfl⟩) fun hopc => ?_
  -- the adapter
  iterate 4
    refine denotes_row hopc (fun h => decodeCtxSel_denotes hr h (by decide) fun _ _ => ⟨rfl, rfl⟩) fun hopc => ?_
  -- RC4_*
  iterate 2 refine denotes_row hopc (fun h => decodeCtx_denotes hr h (by decide) fun _ => ⟨rfl, rfl⟩) fun hopc => ?_
  -- the bit primitives
  refine denotes_row hopc (fun h => decodePermute_denotes hr h) fun hopc => ?_
  iterate 3 refine denotes_row hopc (fun h => decodePlain_denotes hr h (by decide) ⟨rfl, rfl⟩) fun hopc => ?_
  refine denotes_row hopc (fun h => decodeMask_denotes hr h) fun hopc => ?_
  refine denotes_row hopc (fun h => decodePlain_denotes hr h (by decide) ⟨rfl, rfl⟩) fun hopc => ?_
  refine denotes_row hopc (fun h => decodeSetbit_denotes hr h) fun hopc => ?_
  iterate 2 refine denotes_row hopc (fun h => decodePlain_denotes hr h (by decide) ⟨rfl, rfl⟩) fun hopc => ?_
  -- every opcode of the map is excluded
  exact fun hl => List.not_mem_nil (hopc hl)

/-- Every answer of the decoder is right for its word. -/
theorem decode_denotes (w : Word) : Denotes w (decode w) :=
  denotes_check (fun hl => (legalWord_iff_fields.1 hl).2.1) decodeOpcode_denotes

theorem decode_ok_sound (h : decode w = .ok i) : LegalWord w ∧ i.wf = true ∧ encode i = w := by
  have hd := decode_denotes w
  rwa [h] at hd

theorem exists_decode_of_legalWord (hl : LegalWord w) : ∃ i, decode w = .ok i := by
  cases h : decode w with
  | ok i => exact ⟨i, rfl⟩
  | error e =>
    have hno : Denotes w (.error e) := h ▸ decode_denotes w
    exact absurd hl hno

/-- The word of a well-formed command fits its row of the opcode table, whatever the command. -/
theorem opcodeTable_statement : ∀ i : Instr, Laws.OpcodeTable.Statement i
  | .nop => Laws.OpcodeTable.nop
  | .desSetek c => Laws.OpcodeTable.desSetek c
  | .desSetdk c => Laws.OpcodeTable.desSetdk c
  | .desEnc c => Laws.OpcodeTable.desEnc c
  | .desDec c => Laws.OpcodeTable.desDec c
  | .desBsize c => Laws.OpcodeTable.desBsize c
  | .tdesSetek c m => Laws.OpcodeTable.tdesSetek c m
  | .tdesSetdk c m => Laws.OpcodeTable.tdesSetdk c m
  | .tdesEnc c => Laws.OpcodeTable.tdesEnc c
  | .tdesDec c => Laws.OpcodeTable.tdesDec c
  | .tdesBsize c => Laws.OpcodeTable.tdesBsize c
  | .encBytes k c => Laws.OpcodeTable.encBytes k c
  | .decBytes k c => Laws.OpcodeTable.decBytes k c
  | .encFile k c => Laws.OpcodeTable.encFile k c
  | .decFile k c => Laws.OpcodeTable.decFile k c
  | .rc4Mutate c => Laws.OpcodeTable.rc4Mutate c
  | .rc4Encode c => Laws.OpcodeTable.rc4Encode c
  | .permute b o => Laws.OpcodeTable.permute b o
  | .subst => Laws.OpcodeTable.subst
  | .rotl => Laws.OpcodeTable.rotl
  | .rotr => Laws.OpcodeTable.rotr
  | .mask op => Laws.OpcodeTable.mask op
  | .getbit => Laws.OpcodeTable.getbit
  | .setbit v => Laws.OpcodeTable.setbit v
  | .getbits => Laws.OpcodeTable.getbits
  | .swapbits => Laws.OpcodeTable.swapbits

theorem decode_encode (hwf : i.wf = true) : decode (encode i) = .ok i := (opcodeTable_statement i hwf).2

theorem decode_eq_ok_iff : decode w = .ok i ↔ i.wf = true ∧ encode i = w :=
  ⟨fun h => (decode_ok_sound h).2, fun ⟨hwf, henc⟩ => henc ▸ decode_encode hwf⟩

end Decoder

/-- Settles O2: the decoder's answers are right row by row, and the opcode table's laws give the other direction. -/
theorem decodeInvertsEncode : Obligations.DecodeInvertsEncode := fun _ _ => decode_eq_ok_iff

/-- Settles O3: a legal word decodes, and by O2 a command that it encodes is the decoded one. -/
theorem legalWordsDecodeToOneCommand : Obligations.LegalWordsDecodeToOneCommand := by
  refine ⟨fun w => ⟨exists_decode_of_legalWord, fun ⟨_, h⟩ => (decode_ok_sound h).1⟩, fun w hl => ?_⟩
  obtain ⟨i, hi⟩ := exists_decode_of_legalWord hl
  refine ⟨i, decode_eq_ok_iff.1 hi, fun j hj => ?_⟩
  exact Except.ok.inj ((decode_eq_ok_iff.2 hj).symm.trans hi)

/-- Settles O1: by O2 it is enough to encode each command. -/
theorem listedWordsDecode : Obligations.ListedWordsDecode := by
  simp only [Obligations.ListedWordsDecode, decode_eq_ok_iff]
  decide

end Sys2Proof.Machine
end

section
/-! SUPPORT. The statements of 40_command_common.md: the issue of a command (R141), the core's turn (R142), the
checks in order and what follows when they pass (R143), failing (R144, R146), and NOP (R150). -/
namespace Sys2Proof.Machine

/-! ## Issue and the core's turn (R141, R142) -/

section Turns
variable {s : State}

theorem State.offsetOf_coreBase (s : State) : s.offsetOf s.coreBase = some Config.offCmd := by
  simp [State.offsetOf, Config.coreSpan, Config.offCmd]

/-- A CMD write of an idle core issues the command (R141). -/
theorem State.busWrite_cmd_idle (w : Word) (hidle : s.status.busy = false) :
    s.busWrite .w32 Config.offCmd w = .next (s.issue w) := by
  simp [State.busWrite, Config.offCmd, Config.windowBase, regAccessOk, hidle]

theorem step_of_schedule_nil (h : s.schedule = []) : step s = takeTurn s s.defaultTurn := by
  rw [step, h]

theorem step_of_schedule_cons {a : Turn} {rest : List Turn} (h : s.schedule = a :: rest) :
    step s = takeTurn { s with schedule := rest } a := by
  rw [step, h]

theorem State.defaultTurn_of_latched (h : s.latch.valid = true) : s.defaultTurn = .core := if_pos h

theorem coreTurn_of_latched (h : s.latch.valid = true) : coreTurn s = performLatched s := if_pos h

theorem coreTurn_of_empty (h : s.latch.valid = false) : coreTurn s = .next s :=
  if_neg (ne_true_of_eq_false h)

/-- A latched command is performed on the default turn. -/
theorem step_of_latched_nil (hv : s.latch.valid = true) (hs : s.schedule = []) : step s = performLatched s := by
  rw [step_of_schedule_nil hs, State.defaultTurn_of_latched hv]
  exact coreTurn_of_latched hv

/-- A latched command is performed on a scheduled turn of the core. -/
theorem step_of_latched_cons {rest : List Turn} (hv : s.latch.valid = true) (hs : s.schedule = .core :: rest) :
    step s = performLatched { s with schedule := rest } :=
  (step_of_schedule_cons hs).trans (coreTurn_of_latched hv)

theorem performLatched_of_decode {i : Instr} (h : decode s.latch.word = .ok i) : performLatched s = exec i s := by
  rw [performLatched, h]

/-- A latched word that is not legal fails with ILLEGAL_CMD (R144): the decoder refuses it (O3). -/
theorem performLatched_of_not_legal (h : ¬ LegalWord s.latch.word) : performLatched s = .next (s.failed 1) := by
  cases hd : decode s.latch.word with
  | ok i => exact absurd (decode_ok_sound hd).1 h
  | error e =>
    rw [performLatched, hd]
    rfl
end Turns

/-- Settles O11: CORE_BASE is the address of CMD, and the write there issues the command. -/
theorem cmdWriteIssues : Obligations.CmdWriteIssues := by
  intro s w hidle
  rw [State.hostWrite, State.offsetOf_coreBase]
  exact State.busWrite_cmd_idle w hidle

/-- Settles O4: one clause for each place the core's turn comes from. -/
theorem coreTurnRunsLatchedCommand : Obligations.CoreTurnRunsLatchedCommand := by
  refine fun s => ⟨fun hv => ⟨step_of_latched_nil hv, fun _ => step_of_latched_cons hv⟩,
    fun i hv hd => ⟨fun hs => ?_, fun rest hs => ?_⟩, fun rest hv hs => ?_⟩
  · exact (step_of_latched_nil hv hs).trans (performLatched_of_decode hd)
  · exact (step_of_latched_cons hv hs).trans (performLatched_of_decode hd)
  · rw [step_of_schedule_cons hs]
    exact coreTurn_of_empty hv

/-- Settles O5: the decoder takes legal words alone, so PERFORM fails the command and nothing else. -/
theorem illegalWordFailsAlone : Obligations.IllegalWordFailsAlone := fun _ => performLatched_of_not_legal

/-! ## NOP (R150) -/

theorem decode_eq_nop_iff {w : Word} : decode w = .ok .nop ↔ w = 0 := by
  have hzero : encode .nop = 0 := rfl
  rw [decode_eq_ok_iff, hzero]
  exact ⟨fun ⟨_, hw⟩ => hw.symm, fun hw => ⟨rfl, hw.symm⟩⟩

/-- The one legal word with opcode 0x00 is 0: R108 (b), (c) and (e) leave no other bit. -/
theorem eq_zero_of_legalWord_of_opcode_zero {w : Word} (hl : LegalWord w) (hopc : w.toNat % 256 = 0) : w = 0 := by
  obtain ⟨-, hrsv, hmod, -, hctx⟩ := hl
  have hctx := hctx (.inl hopc)
  rw [hopc, show modValues 0 = 1 from rfl] at hmod
  exact BitVec.eq_of_toNat_eq (show w.toNat = 0 by omega)

theorem exec_nop (s : State) : exec .nop s = .next (s.completed 0) := rfl

/-- Settles O25: NOP makes no check beyond legality, and its word is the one legal word of its opcode. -/
theorem nopClearsErrors : Obligations.NopClearsErrors :=
  ⟨fun _ => decode_eq_nop_iff, fun _ hopc hne hl => hne (eq_zero_of_legalWord_of_opcode_zero hl hopc), exec_nop⟩

/-! ## A command whose checks pass and whose inputs are written succeeds (R143, R147) -/

/-- What Exec answers where every check of a list passes and every region read after them was written: success. With
`ChecksThenReads` this says which answer Exec gives in each case of R143. -/
def SucceedsAfter (s : State) (o : CmdOut) (checks : List (Bool × Byte)) (reads : List (Nat × Nat)) : Prop :=
  firstFailed checks = none → (∀ r ∈ reads, s.buf.readBytes r.1 r.2 ≠ none) → ∃ r ws u, o = .ok r ws u

theorem firstFailed_cons_eq_none {c : Bool} {b : Byte} {checks : List (Bool × Byte)} :
    firstFailed ((c, b) :: checks) = none ↔ c = true ∧ firstFailed checks = none := by
  cases c <;> simp [firstFailed]

/-- The code of the first failing check is one of the list's codes. -/
theorem mem_of_firstFailed {checks : List (Bool × Byte)} {b : Byte} (h : firstFailed checks = some b) :
    b ∈ checks.map Prod.snd := by
  induction checks with
  | nil => exact nomatch h
  | cons p checks ih =>
    obtain ⟨_ | _, e⟩ := p
    · exact List.mem_cons.2 (.inl (Option.some.inj h).symm)
    · exact List.mem_cons.2 (.inr (ih h))

section SucceedsAfter
variable {s : State} {o : CmdOut} {checks : List (Bool × Byte)} {reads : List (Nat × Nat)}

theorem SucceedsAfter.done {r : Word} {ws : List (Nat × Bytes)} {u : CtxUpdate} :
    SucceedsAfter s (.ok r ws u) [] [] := fun _ _ => ⟨r, ws, u, rfl⟩

/-- A computation that gives a value, at the end (R143 (6)). -/
theorem SucceedsAfter.value {α : Type} {v : Except ErrCode α} {x : α} {r : α → Word}
    {ws : α → List (Nat × Bytes)} {u : α → CtxUpdate} (hv : v = .ok x) :
    SucceedsAfter s (withValue v fun x => .ok (r x) (ws x) (u x)) [] [] := by
  rw [withValue_of_ok hv]
  exact .done

/-- A computation that gives some value, which the laws of the computations describe further. -/
theorem SucceedsAfter.value_of_exists {α : Type} {v : Except ErrCode α} {P : α → Prop} {r : α → Word}
    {ws : α → List (Nat × Bytes)} {u : α → CtxUpdate} (hv : ∃ x, v = .ok x ∧ P x) :
    SucceedsAfter s (withValue v fun x => .ok (r x) (ws x) (u x)) [] [] :=
  have ⟨_, hx, _⟩ := hv
  .value hx

/-- A check in front. -/
theorem SucceedsAfter.check {p : Prop} [Decidable p] {e : ErrCode} {c : Bool} {b : Byte} (hc : c = true ↔ p)
    (h : p → SucceedsAfter s o checks reads) : SucceedsAfter s (require p e o) ((c, b) :: checks) reads := by
  intro hpass hreads
  obtain ⟨hcheck, hpass⟩ := firstFailed_cons_eq_none.1 hpass
  rw [require_pos (hc.1 hcheck)]
  exact h (hc.1 hcheck) hpass hreads

/-- Two checks of one code in front. -/
theorem SucceedsAfter.check_and {p q : Prop} [Decidable p] [Decidable q] {e : ErrCode} {c d : Bool} {b : Byte}
    (hc : c = true ↔ p) (hd : d = true ↔ q) (h : p → q → SucceedsAfter s o checks reads) :
    SucceedsAfter s (require (p ∧ q) e o) ((c, b) :: (d, b) :: checks) reads := by
  rw [require_and]
  exact .check hc fun hp => .check hd (h hp)

/-- The context check in front (R145). -/
theorem SucceedsAfter.context {α : Type} {l : List α} {c n : Nat} {k : α → CmdOut} {b : Byte} (hn : l.length = n)
    (h : ∀ x, l[c]? = some x → SucceedsAfter s (k x) checks reads) :
    SucceedsAfter s (withCtx l c k) ((decide (c < n), b) :: checks) reads := by
  intro hpass hreads
  obtain ⟨hcheck, hpass⟩ := firstFailed_cons_eq_none.1 hpass
  have hx := List.getElem?_eq_getElem (l := l) (hn ▸ of_decide_eq_true hcheck)
  rw [withCtx_some hx]
  exact h _ hx hpass hreads

/-- The context check and the check of a key state of the context in front (R145, R330). -/
theorem SucceedsAfter.keyed {α : Type} {l : List α} {c n : Nat} {valid : α → Bool} {key : Bool} {k : α → CmdOut}
    (hn : l.length = n) (hkey : ∀ x, l[c]? = some x → key = valid x)
    (h : ∀ x, l[c]? = some x → SucceedsAfter s (k x) checks reads) :
    SucceedsAfter s (withCtx l c fun x => require (valid x = true) .keyNotSet (k x))
      ((decide (c < n), 2) :: (key, 3) :: checks) reads :=
  .context hn fun x hx => .check (by rw [hkey x hx]) fun _ => h x hx

/-- The region check in front: one check for each region (R75). -/
theorem SucceedsAfter.regions {rs : List (Nat × Nat)} (h : SucceedsAfter s o checks reads) :
    SucceedsAfter s (requireRegions s rs o) (rs.map (fun r => inBuf s r.1 r.2) ++ checks) reads := by
  induction rs with
  | nil => exact h
  | cons r rs ih => exact requireRegions_cons ▸ .check decide_eq_true_iff fun _ => ih

/-- A region read in front, after the checks: it gives as many bytes as the region has (R20). -/
theorem SucceedsAfter.read {a n : Nat} {k : Bytes → CmdOut}
    (h : ∀ B, B.length = n → SucceedsAfter s (k B) [] reads) :
    SucceedsAfter s (withBytes s a n k) [] ((a, n) :: reads) := by
  intro hpass hreads
  obtain ⟨hregion, hreads⟩ := List.forall_mem_cons.1 hreads
  obtain ⟨B, hB⟩ := Option.ne_none_iff_exists'.1 hregion
  rw [withBytes_some hB]
  exact h B (Memory.readBytes_length hB) hpass hreads

/-- A single-block command succeeds for every block function. -/
theorem blockCommand_succeedsAfter {f : Bytes → Except ErrCode Bytes} (hf : BlockFn f) :
    SucceedsAfter s (blockCommand s f) [inBuf s s.opSrc 8, inBuf s s.opDst 8] [(s.opSrc, 8)] :=
  .regions (.read fun B _ => .value_of_exists (hf B))

/-- An adapter command succeeds for every buffer function that answers on LEN bytes. -/
theorem bufferCommand_succeedsAfter {g : Bytes → Except ErrCode Bytes} {P : Bytes → Bytes → Prop}
    (hg : ∀ D, D.length = s.opLen → ∃ O, g D = .ok O ∧ P D O) :
    SucceedsAfter s (bufferCommand s g) [inBuf s s.opSrc s.opLen, inBuf s s.opDst s.opLen] [(s.opSrc, s.opLen)] :=
  .regions (.read fun D hD => .value_of_exists (hg D hD))

/-- A rotation command succeeds for every rotation that answers on a window inside the input (R192, R193). -/
theorem cmdRotate_succeedsAfter {rot : Bytes → Nat → Nat → Except ErrCode Bytes} {P : Bytes → Bytes → Prop}
    (hrot : ∀ B, (B.length = 0 ∨ s.opAux0 = 0 ∨ s.opAux0 ≤ nbits B) →
      ∃ O, rot B s.opAux0 s.opAux1 = .ok O ∧ P B O) :
    SucceedsAfter s (cmdRotate rot s) (commandChecks .rotl s) [(s.opSrc, s.opLen)] :=
  .check (decide_eq_true_iff.trans (by omega)) fun hwin => .regions <| .read fun B hB =>
    .value_of_exists (hrot B (by rwa [nbits, hB]))
end SucceedsAfter

/-- No command's computation fails once its checks have passed and its inputs are read (R143 (6), R360). -/
theorem commandOut_succeedsAfter (i : Instr) (s : State) :
    SucceedsAfter s (commandOut i s) (commandChecks i s) (readRegions i s) := by
  have holds {p : Prop} [Decidable p] : decide p = true ↔ p := decide_eq_true_iff
  have cipher {k : CipherKind} {c : Nat} {x : BlockCipher} (hx : (cipherList s k)[c]? = some x) :
      BlockFn x.enc ∧ BlockFn x.dec := blockFn_cipherList (List.mem_of_getElem? hx)
  cases i
  case nop => exact .done
  case desSetek =>
    exact .context rfl fun _ _ => .check holds fun _ => .regions <| .read fun k _ => .value (engineSetEnc_des k)
  case desSetdk =>
    exact .context rfl fun _ _ => .check holds fun _ => .regions <| .read fun k _ => .value (engineSetDec_des k)
  case tdesSetek | tdesSetdk | rc4Mutate =>
    exact .context rfl fun _ _ => .check holds fun _ => .regions (.read fun _ _ => .done)
  case desEnc =>
    exact .keyed rfl (fun _ hx => by simp only [encKeyed, hx]) fun x _ =>
      blockCommand_succeedsAfter (blockFn_desCore x.ek)
  case desDec =>
    exact .keyed rfl (fun _ hx => by simp only [decKeyed, hx]) fun x _ =>
      blockCommand_succeedsAfter (blockFn_desCore x.dk)
  case tdesEnc =>
    exact .keyed rfl (fun _ hx => by simp only [encKeyed, hx]) fun x _ =>
      blockCommand_succeedsAfter (blockFn_tdesEncWith x.e)
  case tdesDec =>
    exact .keyed rfl (fun _ hx => by simp only [decKeyed, hx]) fun x _ =>
      blockCommand_succeedsAfter (blockFn_tdesDecWith x.d)
  case desBsize | tdesBsize => exact .context rfl fun _ _ => .done
  case encBytes k _ =>
    exact .keyed (cipherList_length s k) (fun _ hx => (keyed_of_cipherList hx).1) fun _ hx =>
      .check holds fun hlen => bufferCommand_succeedsAfter fun D hD => ecbF_ok (cipher hx).1 D (hD ▸ hlen)
  case decBytes k _ =>
    exact .keyed (cipherList_length s k) (fun _ hx => (keyed_of_cipherList hx).2) fun _ hx =>
      .check holds fun hlen => bufferCommand_succeedsAfter fun D hD => ecbF_ok (cipher hx).2 D (hD ▸ hlen)
  case encFile k _ =>
    exact .keyed (cipherList_length s k) (fun _ hx => (keyed_of_cipherList hx).1) fun _ hx =>
      bufferCommand_succeedsAfter fun D _ => chunkF_ok (cipher hx).1 D
  case decFile k _ =>
    exact .keyed (cipherList_length s k) (fun _ hx => (keyed_of_cipherList hx).2) fun _ hx =>
      bufferCommand_succeedsAfter fun D _ => chunkF_ok (cipher hx).2 D
  case rc4Encode =>
    exact .keyed rfl (fun _ hx => by simp only [rc4Keyed?, hx]) fun _ _ => .regions (.read fun _ _ => .done)
  case permute => exact .regions (.read fun _ _ => .read fun _ _ => .done)
  case subst =>
    exact .check_and holds holds fun hn hm => .regions <| .read fun B _ => .read fun SB _ =>
      .value_of_exists (substF_ok B SB _ _ hn hm)
  case rotl => exact cmdRotate_succeedsAfter fun B => rotLF_ok B _ _
  case rotr => exact cmdRotate_succeedsAfter fun B => rotRF_ok B _ _
  case mask op =>
    exact .check_and holds holds fun hB hM => .regions <| .read fun B hlB => .read fun M hlM =>
      .value_of_exists (maskF_ok B M _ op (by rwa [nbits, hlB]) (by rwa [nbits, hlM]))
  case getbit =>
    exact .check holds fun hbit => .regions <| .read fun B hB =>
      .value (getBitF_ok B _ (by rwa [nbits, hB]))
  case setbit v =>
    exact .check holds fun hbit => .regions <| .read fun B hB =>
      .value_of_exists (setBitF_ok B _ v (by rwa [nbits, hB]))
  case getbits =>
    exact .check (holds.trans (by omega)) fun hbits => .regions <| .read fun B hB =>
      .value_of_exists (getBitsF_ok B _ _ (by rwa [nbits, hB]))
  case swapbits =>
    exact .check (holds.trans (by omega)) fun hbits => .regions <| .read fun B hB =>
      .value_of_exists (swapBitsF_ok B _ _ (by rwa [nbits, hB]))

section Outcomes
variable {i : Instr} {s t : State}

/-- A command whose checks pass and whose inputs are written succeeds (R143, R147). -/
theorem commandOut_of_checks_pass (hpass : firstFailed (commandChecks i s) = none) (hin : InputsWritten i s) :
    ∃ r ws u, commandOut i s = .ok r ws u :=
  commandOut_succeedsAfter i s hpass fun r hr hnone => inputsWritten_iff.1 hin ⟨r, hr, hnone⟩

/-- A code that Exec answers is that of the first failing check: where all pass it succeeds or stops (R143). -/
theorem firstFailed_of_commandOut_err {e : ErrCode} (h : commandOut i s = .err e) :
    firstFailed (commandChecks i s) = some e.code := by
  obtain ⟨hfails, hstops⟩ := commandOut_checksThenReads i s
  cases hf : firstFailed (commandChecks i s) with
  | some b =>
    obtain ⟨e', he', rfl⟩ := hfails b hf
    rw [CmdOut.err.inj (h.symm.trans he')]
  | none =>
    by_cases hin : InputsWritten i s
    · obtain ⟨r, ws, u, hok⟩ := commandOut_of_checks_pass hf hin
      exact nomatch h.symm.trans hok
    · exact nomatch h.symm.trans (hstops hf (not_not.1 fun hno => hin (inputsWritten_iff.2 hno)))

/-- A command that ends with ERR = 1 has failed as a whole, with the code of the first failing check (R146). -/
theorem exec_next_err (h : exec i s = .next t) (herr : t.status.err = true) :
    ∃ e : ErrCode, t = s.fail e ∧ firstFailed (commandChecks i s) = some e.code := by
  obtain ⟨e, hout, rfl⟩ | ⟨r, ws, u, -, rfl⟩ := exec_next h
  · exact ⟨e, rfl, firstFailed_of_commandOut_err hout⟩
  · exact nomatch herr

/-- The checks of a command do not depend on BUF (R143). -/
theorem commandChecks_withBuf (i : Instr) (s : State) (m : Memory) :
    commandChecks i { s with buf := m } = commandChecks i s := by
  cases i <;> rfl
end Outcomes

/-- Settles O23: the state of a failure is `State.fail`, and its code is that of the first failing check. -/
theorem failedCommandChangesOnlyStatus : Obligations.FailedCommandChangesOnlyStatus := by
  intro i s t h herr
  obtain ⟨e, rfl, hfirst⟩ := exec_next_err h herr
  exact ⟨rfl, mem_of_firstFailed hfirst⟩

/-- Settles O24: `exec_failsAsChecked` gives the failures and the stop, `commandOut_of_checks_pass` the success. -/
theorem firstFailedCheckDecides : Obligations.FirstFailedCheckDecides := by
  refine fun s => ⟨fun hl _ => performLatched_of_not_legal hl, fun i hd =>
    ⟨fun e he m => ?_, fun hpass hin => ?_, ?_⟩⟩
  · have hd : decode ({ s with buf := m } : State).latch.word = .ok i := hd
    rw [performLatched_of_decode hd]
    exact (exec_failsAsChecked i _).1 e (commandChecks_withBuf i s m ▸ he)
  · obtain ⟨r, ws, u, hout⟩ := commandOut_of_checks_pass hpass hin
    rw [performLatched_of_decode hd, exec_eq_finish, hout]
    exact ⟨_, rfl, rfl⟩
  · rw [performLatched_of_decode hd]
    exact (exec_failsAsChecked i s).2

end Sys2Proof.Machine
end

section
/-! SUPPORT. The statements of 41_bit_primitives.md, section 1: every bit of each function's result (R170 to R176), and
the laws of the functions (R177). -/
namespace Sys2Proof.Machine

/-! ## Bits of parts and of changed strings -/

/-- The bits of the first n bits of a byte sequence. -/
theorem getD_take_unpack {B : Bytes} {n k : Nat} (h : k < n) : ((unpack B).take n).getD k false = bitAt B k := by
  rw [← unpack_getD]
  simp [List.getD_eq_getElem?_getD, List.getElem?_take_of_lt h]

/-- The bits of the rest of a bit string. -/
theorem getD_drop (s : Bits) (i k : Nat) : (s.drop i).getD k false = s.getD (i + k) false := by
  simp [List.getD_eq_getElem?_getD]

theorem getD_set_self {s : Bits} {i : Nat} (b : Bool) (h : i < s.length) : (s.set i b).getD i false = b := by
  simp [h]

/-- The storage bits of a packed bit string are 0 (R17). -/
theorem bitAt_pack_of_le {s : Bits} {k : Nat} (h : s.length ≤ k) : bitAt (pack s) k = false := by
  rw [bitAt_pack, List.getD_eq_default _ _ h]

/-- `unpack` undoes `pack` on a window (R17). -/
theorem take_unpack_pack {s : Bits} {n : Nat} (h : s.length = n) : (unpack (pack s)).take n = s :=
  h ▸ unpack_pack_take s

/-- Every bit of a packed string of computed bits. -/
theorem bitAt_pack_range {n k : Nat} (f : Nat → Bool) (h : k < n) : bitAt (pack ((List.range n).map f)) k = f k := by
  rw [bitAt_pack]
  simp [h]

/-! ## PermuteF (R170) -/

section Permute
variable {B : Bytes} {T : List Nat} {o : BitOrder} {b : IndexBase} {i t : Nat}

theorem bitAt_permuteF (h : T[i]? = some t) : bitAt (permuteF B T o b) i = permuteBit B o b t := by
  rw [permuteF, bitAt_pack]
  simp [List.getD_eq_getElem?_getD, h]

theorem permuteBit_outside (h : t < baseNum b ∨ nbits B ≤ t - baseNum b) : permuteBit B o b t = false := by
  unfold permuteBit
  by_cases hneg : t < baseNum b
  · exact if_pos hneg
  · rw [if_neg hneg]
    exact if_pos (h.resolve_left hneg)

theorem permuteBit_be (hb : baseNum b ≤ t) (h : t - baseNum b < nbits B) :
    permuteBit B .be b t = bitAt B (t - baseNum b) := by
  simp [permuteBit, Nat.not_lt.2 hb, Nat.not_le.2 h]

theorem permuteBit_le (hb : baseNum b ≤ t) (h : t - baseNum b < nbits B) :
    permuteBit B .le b t = bitAt B (nbits B - 1 - (t - baseNum b)) := by
  simp [permuteBit, Nat.not_lt.2 hb, Nat.not_le.2 h]
end Permute

/-- Settles O40: the rules of one table entry, with the entry less the base read as an integer. -/
theorem permuteOutputBits : Obligations.PermuteOutputBits := by
  intro B T o b
  refine ⟨permuteF_length B T o b, fun i hi => bitAt_pack_of_le (by simpa using hi), fun i t hT src hsrc => ?_⟩
  have hsrc : src = (t : Int) - baseNum b := by rw [hsrc]; cases b <;> rfl
  rw [bitAt_permuteF hT]
  refine ⟨fun hout => permuteBit_outside (by unfold nbits; omega), fun hnn hlt => ?_⟩
  have hb : baseNum b ≤ t := by omega
  have hin : t - baseNum b < nbits B := by unfold nbits; omega
  have hidx : src.toNat = t - baseNum b := by omega
  rw [hidx]
  cases o with
  | be => exact permuteBit_be hb hin
  | le => exact permuteBit_le hb hin

/-! ## SubstF (R171) -/

section Subst
variable {B SB : Bytes} {n m : Nat}

theorem substF_sboxSize (h : 8 < n ∨ 8 < m) : substF B SB n m = .error .sboxSize := if_pos h

theorem substF_zero_in (hm : m ≤ 8) : substF B SB 0 m = .ok B := by
  simp [substF, hm]

theorem substF_zero_out (hn0 : n ≠ 0) (hn : n ≤ 8) : substF B SB n 0 = .ok [] := by
  simp [substF, hn, hn0]

theorem substF_groups (hn0 : n ≠ 0) (hn : n ≤ 8) (hm0 : m ≠ 0) (hm : m ≤ 8) :
    substF B SB n m = .ok (pack (substGroups SB n m (nbits B / n) (unpack B))) := by
  simp [substF, hn, hm, hn0, hm0]

/-- Bit t of the entry that group q selects. -/
theorem substGroups_getD_group {g q t : Nat} (s : Bits) (hq : q < g) (ht : t < m) :
    (substGroups SB n m g s).getD (q * m + t) false =
      ((SB.getD (bitsInt ((s.drop (q * n)).take n)) 0).toNat).testBit (m - 1 - t) := by
  induction g generalizing q s with
  | zero => omega
  | succ g ih =>
    rw [substGroups]
    cases q with
    | zero =>
      rw [Nat.zero_mul, Nat.zero_add, List.getD_append _ _ _ _ (by simpa using ht), bitsOf_getD _ _ _ ht]
      simp
    | succ q =>
      rw [List.getD_append_right _ _ _ _ (by rw [bitsOf_length, Nat.succ_mul]; omega), bitsOf_length,
        show (q + 1) * m + t - m = q * m + t by rw [Nat.succ_mul]; omega, ih _ (by omega), List.drop_drop,
        show n + q * n = (q + 1) * n by rw [Nat.succ_mul]; omega]

/-- The bits after the last group are copied through. -/
theorem substGroups_getD_rest (g t : Nat) (s : Bits) :
    (substGroups SB n m g s).getD (g * m + t) false = s.getD (g * n + t) false := by
  induction g generalizing s with
  | zero => simp [substGroups]
  | succ g ih =>
    rw [substGroups, List.getD_append_right _ _ _ _ (by rw [bitsOf_length, Nat.succ_mul]; omega), bitsOf_length,
      show (g + 1) * m + t - m = g * m + t by rw [Nat.succ_mul]; omega, ih, getD_drop,
      show n + (g * n + t) = (g + 1) * n + t by rw [Nat.succ_mul]; omega]
end Subst

/-- Settles O41: the groups and the rest by the recursion over the groups; after the rest the input has no bits. -/
theorem substOutputBits : Obligations.SubstOutputBits := by
  refine fun B SB n m _ => ⟨substF_sboxSize, fun hn hm => hn ▸ substF_zero_in hm,
    fun hn0 hn hm => hm ▸ substF_zero_out hn0 hn, fun hn0 hn hm0 hm g r hg hr => ?_⟩
  have hrest (t : Nat) : bitAt (pack (substGroups SB n m g (unpack B))) (g * m + t) = bitAt B (g * n + t) := by
    rw [bitAt_pack, substGroups_getD_rest, unpack_getD]
  obtain ⟨O, hO, hlen⟩ := substF_ok B SB n m hn hm
  obtain rfl : pack (substGroups SB n m g (unpack B)) = O := by
    subst hg
    exact Except.ok.inj ((substF_groups hn0 hn hm0 hm).symm.trans hO)
  refine ⟨_, hO, ?_, fun q t hq ht => ?_, fun t _ => hrest t, fun k hk => ?_⟩
  · rw [hlen, substBits, if_neg hn0, if_neg hm0, ← hg, ← hr]
    rfl
  · rw [bitAt_pack, substGroups_getD_group _ hq ht]
  · obtain ⟨t, rfl⟩ := Nat.exists_eq_add_of_le (Nat.le_of_add_right_le hk)
    have hbits : g * n + r = nbits B := by rw [hg, hr, nbits, Nat.mul_comm, Nat.div_add_mod]
    rw [hrest, bitAt_of_le _ _ (by omega)]

/-! ## RotLF and RotRF (R172) -/

section Rotate
variable {B : Bytes} {n k : Nat}

theorem rotLF_empty (h : B = [] ∨ n = 0) : rotLF B n k = .ok [] := if_pos (h.imp_left (congrArg List.length))

theorem rotRF_empty (h : B = [] ∨ n = 0) : rotRF B n k = .ok [] := if_pos (h.imp_left (congrArg List.length))

theorem rot_bitRange (hB : B ≠ []) (hn : n ≠ 0) (h : nbits B < n) :
    rotLF B n k = .error .bitRange ∧ rotRF B n k = .error .bitRange := by
  simp [rotLF, rotRF, hB, hn, h]

theorem rotLF_window (hn : n ≠ 0) (h : n ≤ nbits B) :
    rotLF B n k = .ok (pack (rotateBitsLeft ((unpack B).take n) k)) := by
  have hB : B.length ≠ 0 := by unfold nbits at h; omega
  rw [rotLF, if_neg (not_or.2 ⟨hB, hn⟩), if_neg (Nat.not_lt.2 h)]

theorem rotRF_window (hn : n ≠ 0) (h : n ≤ nbits B) :
    rotRF B n k = .ok (pack (rotateBitsRight ((unpack B).take n) k)) := by
  have hB : B.length ≠ 0 := by unfold nbits at h; omega
  rw [rotRF, if_neg (not_or.2 ⟨hB, hn⟩), if_neg (Nat.not_lt.2 h)]

theorem rotateBitsLeft_getD {w : Bits} {t : Nat} (h : t < w.length) :
    (rotateBitsLeft w k).getD t false = w.getD ((t + k % w.length) % w.length) false := by
  simp [rotateBitsLeft, h]

theorem rotateBitsRight_getD {w : Bits} {t : Nat} (h : t < w.length) :
    (rotateBitsRight w k).getD t false = w.getD ((t + w.length - k % w.length) % w.length) false := by
  simp [rotateBitsRight, h]

theorem window_length (h : n ≤ nbits B) : ((unpack B).take n).length = n := by
  simpa using h
end Rotate

/-- Settles O42: the two rotations of a window, bit by bit. -/
theorem rotateOutputBits : Obligations.RotateOutputBits := by
  refine fun B n k => ⟨fun h => ⟨rotLF_empty h, rotRF_empty h⟩, rot_bitRange, fun _ hn h => ?_⟩
  have hw : ((unpack B).take n).length = n := window_length h
  have hpos : 0 < n := Nat.pos_of_ne_zero hn
  refine ⟨_, _, rotLF_window hn h, rotRF_window hn h, ?_, ?_, fun t ht => ⟨?_, ?_⟩, fun t ht => ⟨?_, ?_⟩⟩
  · rw [pack_length, rotateBitsLeft_length, hw]; rfl
  · rw [pack_length, rotateBitsRight_length, hw]; rfl
  · rw [bitAt_pack, rotateBitsLeft_getD (hw.symm ▸ ht), hw, getD_take_unpack (Nat.mod_lt _ hpos)]
  · rw [bitAt_pack, rotateBitsRight_getD (hw.symm ▸ ht), hw, getD_take_unpack (Nat.mod_lt _ hpos)]
  · exact bitAt_pack_of_le (by rwa [rotateBitsLeft_length, hw])
  · exact bitAt_pack_of_le (by rwa [rotateBitsRight_length, hw])

/-! ## MaskF (R173) -/

/-- Every bit of a MaskF that answers, in the input or beyond it. -/
theorem maskF_bitAt {B M O : Bytes} {mb k : Nat} {op : MaskOp} (h : maskF B M mb op = .ok O) :
    bitAt O k = if k < mb then maskBit op (bitAt B k) (bitAt M k) else bitAt B k := by
  unfold maskF at h
  split at h
  · exact nomatch h
  next hmb =>
    cases h
    by_cases hk : k < nbits B
    · exact bitAt_pack_range _ hk
    · rw [if_neg (by omega), bitAt_of_le B k (by omega)]
      exact bitAt_pack_of_le (by simpa using hk)

/-- Settles O43: `maskF_bitAt` below and from the bound on. -/
theorem maskOutputBits : Obligations.MaskOutputBits := by
  refine fun B M mb op => ⟨fun h => if_pos h, fun hB hM => ?_⟩
  obtain ⟨O, hO, hlen⟩ := maskF_ok B M mb op hB hM
  refine ⟨O, hO, hlen, fun k hk => ?_, fun k hk => ?_⟩
  · rw [maskF_bitAt hO, if_pos hk]
    cases op <;> rfl
  · rw [maskF_bitAt hO, if_neg (Nat.not_lt.2 hk)]

/-! ## GetBitF, SetBitF, GetBitsF and SwapBitsF (R174 to R176) -/

section BitAccess
variable {B : Bytes} {i j k : Nat} {v : Bool}

theorem getBitF_bitRange (h : nbits B ≤ k) : getBitF B k = .error .bitRange := if_pos h

theorem setBitF_bitRange (h : nbits B ≤ k) : setBitF B k v = .error .bitRange := if_pos h

theorem setBitF_inside (h : k < nbits B) : setBitF B k v = .ok (pack ((unpack B).set k v)) :=
  if_neg (Nat.not_le.2 h)

theorem getBitsF_empty (h : j < i) : getBitsF B i j = .ok [] := if_pos h

theorem getBitsF_bitRange (hij : i ≤ j) (h : nbits B ≤ j) : getBitsF B i j = .error .bitRange := by
  rw [getBitsF, if_neg (Nat.not_lt.2 hij), if_pos h]

theorem getBitsF_inside (hij : i ≤ j) (h : j < nbits B) :
    getBitsF B i j = .ok (pack (((unpack B).drop i).take (j - i + 1))) := by
  rw [getBitsF, if_neg (Nat.not_lt.2 hij), if_neg (Nat.not_le.2 h)]

theorem swapBitsF_same (h : i = j ∨ B = []) : swapBitsF B i j = .ok B :=
  if_pos (h.imp_right (congrArg List.length))

theorem swapBitsF_bitRange (hij : i ≠ j) (hB : B ≠ []) (h : nbits B ≤ i ∨ nbits B ≤ j) :
    swapBitsF B i j = .error .bitRange := by
  simp [swapBitsF, hij, hB, h]

theorem swapBitsF_inside (hij : i ≠ j) (hi : i < nbits B) (hj : j < nbits B) :
    swapBitsF B i j = .ok (pack (((unpack B).set i (bitAt B j)).set j (bitAt B i))) := by
  have hB : B.length ≠ 0 := by unfold nbits at hi; omega
  rw [swapBitsF, if_neg (not_or.2 ⟨hij, hB⟩), if_neg (by omega)]

/-- A rewritten bit string of a byte sequence packs into as many bytes. -/
theorem pack_length_of_length_eq {s : Bits} (h : s.length = nbits B) : (pack s).length = B.length := by
  rw [pack_length, h, nbits, ceil8_mul_eight]
end BitAccess

/-- Settles O44, function by function: the errors and the special cases in order, then every bit. -/
theorem bitAccessFunctions : Obligations.BitAccessFunctions := by
  refine fun B => ⟨fun k v => ⟨fun h => ⟨getBitF_bitRange h, setBitF_bitRange h⟩, fun h => ⟨getBitF_ok B k h, ?_⟩⟩,
    fun i j => ⟨getBitsF_empty, getBitsF_bitRange, fun hij hj => ?_⟩,
    fun i j => ⟨swapBitsF_same, swapBitsF_bitRange, fun hij _ hi hj => ?_⟩⟩
  · refine ⟨_, setBitF_inside h, pack_length_of_length_eq (by simp), ?_, fun p hp => ?_⟩
    · rw [bitAt_pack, getD_set_self v (by rwa [unpack_length])]
    · rw [bitAt_pack, getD_set_ne v hp.symm, unpack_getD]
  · have hlen : (((unpack B).drop i).take (j - i + 1)).length = j - i + 1 := by
      simp [nbits]; omega
    refine ⟨_, getBitsF_inside hij hj, by rw [pack_length, hlen]; rfl, fun t ht => ?_, fun t ht => ?_⟩
    · rw [bitAt_pack, ← unpack_getD, ← getD_drop]
      simp [List.getD_eq_getElem?_getD, List.getElem?_take_of_lt (Nat.lt_succ_of_le ht)]
    · exact bitAt_pack_of_le (by omega)
  · refine ⟨_, swapBitsF_inside hij hi hj, pack_length_of_length_eq (by simp), ?_, ?_, fun p hpi hpj => ?_⟩
    · rw [bitAt_pack, getD_set_ne _ hij.symm, getD_set_self _ (by rwa [unpack_length])]
    · rw [bitAt_pack, getD_set_self _ (by rwa [List.length_set, unpack_length])]
    · rw [bitAt_pack, getD_set_ne _ hpj.symm, getD_set_ne _ hpi.symm, unpack_getD]

/-! ## The laws (R177) -/

theorem rotateBitsLeft_eq_rotate (w : Bits) (k : Nat) : rotateBitsLeft w k = w.rotate k := by
  apply List.ext_getElem (by simp)
  intro t ht _
  have hpos : 0 < w.length := by rw [rotateBitsLeft_length] at ht; omega
  simp [rotateBitsLeft, List.getElem_rotate, Nat.mod_lt _ hpos]

theorem rotateBitsRight_eq_rotate (w : Bits) (k : Nat) :
    rotateBitsRight w k = w.rotate (w.length - k % w.length) := by
  apply List.ext_getElem (by simp)
  intro t ht _
  have hpos : 0 < w.length := by rw [rotateBitsRight_length] at ht; omega
  have hk : k % w.length < w.length := Nat.mod_lt _ hpos
  simp [rotateBitsRight, List.getElem_rotate, Nat.mod_lt _ hpos, Nat.add_sub_assoc hk.le]

/-- A right rotation by less than the window, then the left one by as much: a whole turn. -/
theorem rotateBitsLeft_rotateBitsRight {w : Bits} {k : Nat} (h : k < w.length) :
    rotateBitsLeft (rotateBitsRight w k) k = w := by
  rw [rotateBitsLeft_eq_rotate, rotateBitsRight_eq_rotate, List.rotate_rotate, Nat.mod_eq_of_lt h,
    Nat.sub_add_cancel h.le, List.rotate_length]

/-- R177 (c) on byte sequences: the right rotation keeps the window's bits, so the left one finds them all. -/
theorem rotLF_rotRF {B : Bytes} {n k : Nat} (hk : k < n) (h : n ≤ nbits B) :
    ∃ R, rotRF B n k = .ok R ∧ rotLF R n k = .ok (pack ((unpack B).take n)) := by
  have hn : n ≠ 0 := by omega
  have hw : (rotateBitsRight ((unpack B).take n) k).length = n := by rw [rotateBitsRight_length, window_length h]
  refine ⟨_, rotRF_window hn h, ?_⟩
  rw [rotLF_window hn (by simp only [nbits, pack_length, hw, ceil8]; omega)]
  rw [take_unpack_pack hw, rotateBitsLeft_rotateBitsRight (by rwa [window_length h])]

/-- The S-box of 256 entries with entry v at v (R177 (e)). -/
theorem identitySbox_getD {v : Nat} (h : v < 256) :
    (((List.range 256).map (BitVec.ofNat 8)).getD v 0).toNat = v := by
  rw [List.getD_eq_getElem?_getD, List.getElem?_map, List.getElem?_range h]
  simpa using h

theorem substGroups_identity {n : Nat} (hn : n ≤ 8) (g : Nat) (s : Bits) (h : g * n ≤ s.length) :
    substGroups ((List.range 256).map (BitVec.ofNat 8)) n n g s = s := by
  induction g generalizing s with
  | zero => rfl
  | succ g ih =>
    rw [Nat.succ_mul] at h
    have hgroup : (s.take n).length = n := List.length_take_of_le (by omega)
    have hentry : bitsInt (s.take n) < 256 :=
      calc bitsInt (s.take n) < 2 ^ (s.take n).length := bitsInt_lt _
        _ ≤ 2 ^ 8 := Nat.pow_le_pow_right (by decide) (hgroup.symm ▸ hn)
    have hbits : bitsOf n (bitsInt (s.take n)) = s.take n := by
      simpa only [hgroup] using bitsOf_bitsInt (s.take n)
    rw [substGroups, identitySbox_getD hentry, hbits, ih _ (by rw [List.length_drop]; omega), List.take_append_drop]

theorem substF_identity (B : Bytes) {n : Nat} (hn : n ≤ 8) :
    substF B ((List.range 256).map (BitVec.ofNat 8)) n n = .ok B := by
  by_cases hn0 : n = 0
  · subst hn0
    exact substF_zero_in hn
  · rw [substF_groups hn0 hn hn0 hn,
      substGroups_identity hn _ _ (by rw [unpack_length]; exact Nat.div_mul_le_self _ _), pack_unpack]

theorem bitAt_permuteF_zero {B : Bytes} {T : List Nat} {k t : Nat} (hT : T[k]? = some t) (ht : t < nbits B) :
    bitAt (permuteF B T .be .zero) k = bitAt B t ∧
      bitAt (permuteF B T .le .zero) k = bitAt B (nbits B - 1 - t) := by
  rw [bitAt_permuteF hT, bitAt_permuteF hT]
  exact ⟨permuteBit_be (Nat.zero_le t) ht, permuteBit_le (Nat.zero_le t) ht⟩

/-- Settles O45, law by law. -/
theorem bitPrimitiveLaws : Obligations.BitPrimitiveLaws := by
  refine ⟨fun B => ?_, fun B k hk => ⟨?_, ?_⟩, fun B n k hk h => ?_, fun B n hn => substF_identity B hn⟩
  · have hlen : (permuteF B (List.range (8 * B.length)) .be .zero).length = B.length := by
      rw [permuteF_length, List.length_range, ceil8_mul_eight]
    refine bytes_ext hlen fun k hk => ?_
    rw [nbits, hlen] at hk
    exact (bitAt_permuteF_zero (List.getElem?_range hk) hk).1
  · have hT : (List.range (8 * B.length)).reverse[k]? = some (8 * B.length - 1 - k) := by
      rw [List.getElem?_reverse (by simpa using hk), List.length_range, List.getElem?_range (by omega)]
    exact (bitAt_permuteF_zero hT (by unfold nbits; omega)).1
  · exact (bitAt_permuteF_zero (List.getElem?_range hk) hk).2
  · obtain ⟨R, hR, hL⟩ := rotLF_rotRF hk h
    refine ⟨R, hR, hL, fun hn => hL.trans ?_⟩
    rw [List.take_of_length_le (by rw [unpack_length, hn, nbits]), pack_unpack]

end Sys2Proof.Machine
end

section
/-! SUPPORT. The statements of 41_bit_primitives.md, section 2: the nine commands on BUF (R190 to R198). -/
namespace Sys2Proof.Machine

section Success
variable {i : Instr} {s : State} {r : Word}

/-- A command that answers one store and no context completes with that store (R147). -/
theorem exec_of_store {a : Nat} {O : Bytes} (h : commandOut i s = .ok r [(a, O)] .unchanged) :
    exec i s = .next { s.completed r with buf := s.buf.writeBytes a O } := by
  rw [exec_eq_finish, h]
  rfl

/-- A command that answers no store and no context completes with its result alone (R147). -/
theorem exec_of_result (h : commandOut i s = .ok r [] .unchanged) : exec i s = .next (s.completed r) := by
  rw [exec_eq_finish, h]
  rfl

theorem requireRegions_nil {k : CmdOut} : requireRegions s [] k = k := requireRegions_pos (by simp)

/-- A region inside BUF passes, and the check goes on with the others (R75). -/
theorem requireRegions_inside {a n : Nat} {rs : List (Nat × Nat)} {k : CmdOut} (h : a + n ≤ s.bufSize) :
    requireRegions s ((a, n) :: rs) k = requireRegions s rs k := by
  rw [requireRegions_cons, require_pos h]
end Success

/-! ## What Exec answers where a command's checks pass and its inputs are written -/

section Arms
variable {s : State} {B O : Bytes}

theorem cmdPermute_eq {b : IndexBase} {o : BitOrder} {T : Bytes} (hsrc : s.opSrc + s.opLen ≤ s.bufSize)
    (hkey : s.opKey + 2 * s.opKlen ≤ s.bufSize) (hdst : s.opDst + ceil8 s.opKlen ≤ s.bufSize)
    (hB : s.buf.readBytes s.opSrc s.opLen = some B) (hT : s.buf.readBytes s.opKey (2 * s.opKlen) = some T) :
    cmdPermute b o s =
      .ok (resultWord s.opKlen) [(s.opDst, permuteF B (tableEntries s.opKlen T) o b)] .unchanged := by
  rw [cmdPermute, requireRegions_inside hsrc, requireRegions_inside hkey, requireRegions_inside hdst,
    requireRegions_nil, withBytes_some hB, withBytes_some hT]

theorem cmdSubst_eq {SB : Bytes} (hn : s.opAux0 ≤ 8) (hm : s.opAux1 ≤ 8) (hsrc : s.opSrc + s.opLen ≤ s.bufSize)
    (hkey : s.opKey + 256 ≤ s.bufSize)
    (hdst : s.opDst + ceil8 (substBits s.opLen s.opAux0 s.opAux1) ≤ s.bufSize)
    (hB : s.buf.readBytes s.opSrc s.opLen = some B) (hSB : s.buf.readBytes s.opKey 256 = some SB)
    (hO : substF B SB s.opAux0 s.opAux1 = .ok O) :
    cmdSubst s = .ok (resultWord (substBits s.opLen s.opAux0 s.opAux1)) [(s.opDst, O)] .unchanged := by
  rw [cmdSubst, require_pos ⟨hn, hm⟩, requireRegions_inside hsrc, requireRegions_inside hkey,
    requireRegions_inside hdst, requireRegions_nil, withBytes_some hB, withBytes_some hSB, withValue_of_ok hO]

theorem cmdRotate_eq {rot : Bytes → Nat → Nat → Except ErrCode Bytes}
    (hwin : s.opLen = 0 ∨ s.opAux0 = 0 ∨ s.opAux0 ≤ 8 * s.opLen) (hsrc : s.opSrc + s.opLen ≤ s.bufSize)
    (hdst : s.opDst + ceil8 (rotBits s.opLen s.opAux0) ≤ s.bufSize)
    (hB : s.buf.readBytes s.opSrc s.opLen = some B) (hO : rot B s.opAux0 s.opAux1 = .ok O) :
    cmdRotate rot s = .ok (resultWord (rotBits s.opLen s.opAux0)) [(s.opDst, O)] .unchanged := by
  rw [cmdRotate, require_pos hwin, requireRegions_inside hsrc, requireRegions_inside hdst, requireRegions_nil,
    withBytes_some hB, withValue_of_ok hO]

theorem cmdMask_eq {op : MaskOp} {M : Bytes} (hbits : s.opAux0 ≤ 8 * s.opLen) (hmask : s.opAux0 ≤ 8 * s.opKlen)
    (hsrc : s.opSrc + s.opLen ≤ s.bufSize) (hkey : s.opKey + s.opKlen ≤ s.bufSize)
    (hdst : s.opDst + s.opLen ≤ s.bufSize) (hB : s.buf.readBytes s.opSrc s.opLen = some B)
    (hM : s.buf.readBytes s.opKey s.opKlen = some M) (hO : maskF B M s.opAux0 op = .ok O) :
    cmdMask op s = .ok (resultWord (8 * s.opLen)) [(s.opDst, O)] .unchanged := by
  rw [cmdMask, require_pos ⟨hbits, hmask⟩, requireRegions_inside hsrc, requireRegions_inside hkey,
    requireRegions_inside hdst, requireRegions_nil, withBytes_some hB, withBytes_some hM, withValue_of_ok hO]

theorem cmdGetbit_eq {v : Bool} (hbit : s.opAux0 < 8 * s.opLen) (hsrc : s.opSrc + s.opLen ≤ s.bufSize)
    (hB : s.buf.readBytes s.opSrc s.opLen = some B) (hv : getBitF B s.opAux0 = .ok v) :
    cmdGetbit s = .ok (resultWord v.toNat) [] .unchanged := by
  rw [cmdGetbit, require_pos hbit, requireRegions_inside hsrc, requireRegions_nil, withBytes_some hB,
    withValue_of_ok hv]

theorem cmdSetbit_eq {v : Bool} (hbit : s.opAux0 < 8 * s.opLen) (hsrc : s.opSrc + s.opLen ≤ s.bufSize)
    (hB : s.buf.readBytes s.opSrc s.opLen = some B) (hO : setBitF B s.opAux0 v = .ok O) :
    cmdSetbit v s = .ok 0 [(s.opSrc, O)] .unchanged := by
  rw [cmdSetbit, require_pos hbit, requireRegions_inside hsrc, requireRegions_nil, withBytes_some hB,
    withValue_of_ok hO]

theorem cmdGetbits_eq (hrange : s.opAux1 < s.opAux0 ∨ s.opAux1 < 8 * s.opLen)
    (hsrc : s.opSrc + s.opLen ≤ s.bufSize) (hdst : s.opDst + ceil8 (getBitsLen s.opAux0 s.opAux1) ≤ s.bufSize)
    (hB : s.buf.readBytes s.opSrc s.opLen = some B) (hO : getBitsF B s.opAux0 s.opAux1 = .ok O) :
    cmdGetbits s = .ok (resultWord (getBitsLen s.opAux0 s.opAux1)) [(s.opDst, O)] .unchanged := by
  rw [cmdGetbits, require_pos hrange, requireRegions_inside hsrc, requireRegions_inside hdst, requireRegions_nil,
    withBytes_some hB, withValue_of_ok hO]

theorem cmdSwapbits_eq
    (hrange : s.opAux0 = s.opAux1 ∨ s.opLen = 0 ∨ (s.opAux0 < 8 * s.opLen ∧ s.opAux1 < 8 * s.opLen))
    (hsrc : s.opSrc + s.opLen ≤ s.bufSize) (hB : s.buf.readBytes s.opSrc s.opLen = some B)
    (hO : swapBitsF B s.opAux0 s.opAux1 = .ok O) : cmdSwapbits s = .ok 0 [(s.opSrc, O)] .unchanged := by
  rw [cmdSwapbits, require_pos hrange, requireRegions_inside hsrc, requireRegions_nil, withBytes_some hB,
    withValue_of_ok hO]
end Arms

/-! ## Words and operands -/

theorem encode_permute : ∀ p ∈ [(IndexBase.zero, 0), (.one, 1)], ∀ q ∈ [(BitOrder.be, 0), (.le, 1)],
    encode (.permute p.1 q.1) =
      0x00000041 ||| (BitVec.ofNat 32 p.2 <<< 12) ||| (BitVec.ofNat 32 q.2 <<< 13) := by decide

theorem encode_mask : ∀ p ∈ [(MaskOp.and, 0), (.or, 1), (.xor, 2)],
    encode (.mask p.1) = 0x00000045 ||| (BitVec.ofNat 32 p.2 <<< 12) := by decide

/-- OP = 3 is reserved (R108 (d)). -/
theorem not_legalWord_of_maskOp_three {w : Word} (hopc : w.toNat % 256 = 0x45) (hop : w.toNat / 4096 % 4 = 3) :
    ¬ LegalWord w := by
  rintro ⟨-, -, -, hmask, -⟩
  exact hmask hopc (by omega)

/-- The table of PERMUTE, entry by entry (R80). -/
theorem tableEntries_eq_map (n : Nat) (T : Bytes) :
    tableEntries n T = (List.range n).map fun e => 256 * (T.getD (2 * e) 0).toNat + (T.getD (2 * e + 1) 0).toNat := by
  apply List.ext_getElem (by simp)
  intro e he _
  rw [tableEntries_length] at he
  simpa [List.getD_eq_getElem?_getD, he] using tableEntries_getD n T e he

theorem nbits_of_readBytes {m : Memory} {a n : Nat} {B : Bytes} (h : m.readBytes a n = some B) :
    nbits B = 8 * n := by
  rw [nbits, Memory.readBytes_length h]

/-! ## The commands -/

/-- Settles O34: the answer of PERMUTE's arm, with the table written out entry by entry. -/
theorem permuteCommandPermutes : Obligations.PermuteCommandPermutes := by
  refine fun s b o base order hb ho => ⟨encode_permute (b, base) hb (o, order) ho, exec_failsAsChecked _ s,
    fun B T hsrc hkey hdst hB hT => ?_⟩
  rw [← tableEntries_eq_map]
  exact exec_of_store (cmdPermute_eq hsrc hkey hdst hB hT)

/-- Settles O35: SubstF answers for widths up to 8 (`substF_ok`), and the arm stores its answer. -/
theorem substCommandSubstitutes : Obligations.SubstCommandSubstitutes := by
  rintro s n m ob rfl rfl rfl
  refine ⟨by decide, exec_failsAsChecked _ s, fun B SB hn hm hsrc hkey hdst hB hSB => ?_⟩
  obtain ⟨O, hO, hlen⟩ := substF_ok B SB _ _ hn hm
  exact ⟨O, hO, Memory.readBytes_length hB ▸ hlen, exec_of_store (cmdSubst_eq hn hm hsrc hkey hdst hB hSB hO)⟩

/-- Settles O36: the two rotations answer on a window inside the input, and their common arm stores the answer. -/
theorem rotateCommandsRotateWindow : Obligations.RotateCommandsRotateWindow := by
  rintro s n ob rfl rfl
  refine ⟨by decide, by decide, exec_failsAsChecked _ s, exec_failsAsChecked _ s, fun B hwin hsrc hdst hB => ?_⟩
  have hl := Memory.readBytes_length hB
  have hwinB : B.length = 0 ∨ s.opAux0 = 0 ∨ s.opAux0 ≤ nbits B := by rwa [nbits, hl]
  constructor
  · obtain ⟨O, hO, hlen⟩ := rotLF_ok B s.opAux0 s.opAux1 hwinB
    exact ⟨O, hO, hl ▸ hlen, exec_of_store (cmdRotate_eq hwin hsrc hdst hB hO)⟩
  · obtain ⟨O, hO, hlen⟩ := rotRF_ok B s.opAux0 s.opAux1 hwinB
    exact ⟨O, hO, hl ▸ hlen, exec_of_store (cmdRotate_eq hwin hsrc hdst hB hO)⟩

/-- Settles O37: MaskF answers for a range inside both regions, and the arm stores its answer. -/
theorem maskCommandCombines : Obligations.MaskCommandCombines := by
  refine fun s op code hop => ⟨encode_mask (op, code) hop, fun w => not_legalWord_of_maskOp_three,
    exec_failsAsChecked _ s, fun B M hbits hmask hsrc hkey hdst hB hM => ?_⟩
  obtain ⟨O, hO, hlen⟩ := maskF_ok B M s.opAux0 op ((nbits_of_readBytes hB).symm ▸ hbits)
    ((nbits_of_readBytes hM).symm ▸ hmask)
  exact ⟨O, hO, hlen.trans (Memory.readBytes_length hB),
    exec_of_store (cmdMask_eq hbits hmask hsrc hkey hdst hB hM hO)⟩

/-- Settles O38: the bit is inside the region read, so GetBitF and SetBitF answer. -/
theorem singleBitCommands : Obligations.SingleBitCommands := by
  refine fun s v => ⟨by decide, by cases v <;> decide, exec_failsAsChecked _ s, exec_failsAsChecked _ s,
    fun B hbit hsrc hB => ?_⟩
  have hbitB : s.opAux0 < nbits B := (nbits_of_readBytes hB).symm ▸ hbit
  constructor
  · rw [exec_of_result (i := .getbit) (cmdGetbit_eq hbit hsrc hB (getBitF_ok B _ hbitB))]
    cases bitAt B s.opAux0 <;> rfl
  · obtain ⟨O, hO, hlen⟩ := setBitF_ok B s.opAux0 v hbitB
    exact ⟨O, hO, hlen.trans (Memory.readBytes_length hB), exec_of_store (cmdSetbit_eq hbit hsrc hB hO)⟩

/-- Settles O39: where the range check passes GetBitsF and SwapBitsF answer, and the arms store their answers. -/
theorem bitRangeAndSwapCommands : Obligations.BitRangeAndSwapCommands := by
  rintro s i j ob rfl rfl rfl
  refine ⟨by decide, by decide, exec_failsAsChecked _ s, exec_failsAsChecked _ s,
    fun B hsrc hB => ⟨fun hrange hdst => ?_, fun hrange => ?_⟩⟩
  all_goals have hl := Memory.readBytes_length hB
  · obtain ⟨O, hO, hlen⟩ := getBitsF_ok B s.opAux0 s.opAux1 (by rwa [nbits, hl])
    exact ⟨O, hO, hlen, exec_of_store (cmdGetbits_eq hrange hsrc hdst hB hO)⟩
  · obtain ⟨O, hO, hlen⟩ := swapBitsF_ok B s.opAux0 s.opAux1 (by rwa [nbits, hl])
    exact ⟨O, hO, hlen.trans hl, exec_of_store (cmdSwapbits_eq hrange hsrc hB hO)⟩

end Sys2Proof.Machine
end

section
/-! SUPPORT. The statements of 42_feistel_engine.md: the engine computes the recurrence of R226 on the halves, and under
the reversed schedule the same loop undoes it (R227). -/
namespace Sys2Proof.Machine

/-! ## The rounds, one round key at a time (R226) -/

section Rounds

variable {F : Bytes → Bytes → Bytes} {h : Nat}

@[simp] theorem feistelRounds_nil (L R : Bytes) : feistelRounds F h [] L R = .ok (L, R) := rfl

theorem feistelRounds_cons {k R : Bytes} (hw : (F R k).length = h) (ks : List Bytes) (L : Bytes) :
    feistelRounds F h (k :: ks) L R = feistelRounds F h ks R (xorBytes L (F R k)) :=
  if_neg (not_not_intro hw)

theorem feistelRounds_cons_error {k R : Bytes} (hw : (F R k).length ≠ h) (ks : List Bytes) (L : Bytes) :
    feistelRounds F h (k :: ks) L R = .error .fatalInvariant :=
  if_pos hw

theorem feistelRounds_append {ks : List Bytes} {L R L' R' : Bytes} (hks : feistelRounds F h ks L R = .ok (L', R'))
    (ks' : List Bytes) : feistelRounds F h (ks ++ ks') L R = feistelRounds F h ks' L' R' := by
  induction ks generalizing L R with
  | nil => cases hks; rfl
  | cons k ks ih =>
    by_cases hw : (F R k).length = h
    · rw [feistelRounds_cons hw] at hks
      rw [List.cons_append, feistelRounds_cons hw, ih hks]
    · rw [feistelRounds_cons_error hw] at hks
      cases hks

end Rounds

/-! ## The recurrence of the halves (R226) -/

/-- The recurrence of R226: round r takes the halves `(L r, R r)` to `(R r, L r ⊕ F(R r, k_r))`. -/
def HalvesFollow (F : Bytes → Bytes → Bytes) (ks : List Bytes) (L R : Nat → Bytes) : Prop :=
  ∀ r, r < ks.length → L (r + 1) = R r ∧ R (r + 1) = xorBytes (L r) (F (R r) (ks.getD r []))

section Recurrence

variable {F : Bytes → Bytes → Bytes} {h : Nat} {k : Bytes} {ks : List Bytes} {L R : Nat → Bytes}

theorem HalvesFollow.head (hrec : HalvesFollow F (k :: ks) L R) :
    L 1 = R 0 ∧ R 1 = xorBytes (L 0) (F (R 0) k) :=
  hrec 0 (Nat.succ_pos _)

theorem HalvesFollow.tail (hrec : HalvesFollow F (k :: ks) L R) :
    HalvesFollow F ks (fun r => L (r + 1)) (fun r => R (r + 1)) :=
  fun r hr => hrec (r + 1) (Nat.succ_lt_succ hr)

/-- A first round of the right width leaves the rounds that follow, from the second halves on. -/
theorem HalvesFollow.first_round (hrec : HalvesFollow F (k :: ks) L R) (hw : (F (R 0) k).length = h) :
    feistelRounds F h (k :: ks) (L 0) (R 0) = feistelRounds F h ks (L 1) (R 1) := by
  obtain ⟨hL, hR⟩ := hrec.head
  rw [feistelRounds_cons hw, hL, hR]

theorem HalvesFollow.rounds_ok (hrec : HalvesFollow F ks L R)
    (hw : ∀ r, r < ks.length → (F (R r) (ks.getD r [])).length = h) :
    feistelRounds F h ks (L 0) (R 0) = .ok (L ks.length, R ks.length) := by
  induction ks generalizing L R with
  | nil => rfl
  | cons k ks ih =>
    rw [hrec.first_round (hw 0 (Nat.succ_pos _))]
    exact ih hrec.tail fun r hr => hw (r + 1) (Nat.succ_lt_succ hr)

theorem HalvesFollow.rounds_error (hrec : HalvesFollow F ks L R)
    (hbad : ∃ r, r < ks.length ∧ (F (R r) (ks.getD r [])).length ≠ h) :
    feistelRounds F h ks (L 0) (R 0) = .error .fatalInvariant := by
  induction ks generalizing L R with
  | nil => obtain ⟨r, hr, -⟩ := hbad; exact absurd hr (Nat.not_lt_zero r)
  | cons k ks ih =>
    by_cases hw : (F (R 0) k).length = h
    · rw [hrec.first_round hw]
      obtain ⟨_ | r, hr, hr'⟩ := hbad
      · exact absurd hw hr'
      · exact ih hrec.tail ⟨r, Nat.lt_of_succ_lt_succ hr, hr'⟩
    · exact feistelRounds_cons_error hw ks (L 0)

end Recurrence

/-! ## The rounds undone (R227) -/

section Inversion

variable {F : Bytes → Bytes → Bytes} {h : Nat}

/-- On two half blocks a round function that keeps the half's length (R221) never has the wrong width. -/
theorem feistelRounds_halves (hF : ∀ half k, half.length = h → (F half k).length = h) (ks : List Bytes) {L R : Bytes}
    (hL : L.length = h) (hR : R.length = h) :
    ∃ L' R', feistelRounds F h ks L R = .ok (L', R') ∧ L'.length = h ∧ R'.length = h := by
  induction ks generalizing L R with
  | nil => exact ⟨L, R, rfl, hL, hR⟩
  | cons k ks ih =>
    have hw : (F R k).length = h := hF R k hR
    rw [feistelRounds_cons hw]
    exact ih hR (by rw [xorBytes_length, hL, hw, Nat.min_self])

/-- The rounds with the keys reversed, begun with the halves exchanged, give the first halves back, exchanged: a round
applied to `(L ⊕ F(R, k), R)` with its own key k gives `(R, L)`. -/
theorem feistelRounds_reverse (hF : ∀ half k, half.length = h → (F half k).length = h) {ks : List Bytes}
    {L R L' R' : Bytes} (hL : L.length = h) (hR : R.length = h) (hks : feistelRounds F h ks L R = .ok (L', R')) :
    feistelRounds F h ks.reverse R' L' = .ok (R, L) := by
  induction ks generalizing L R with
  | nil => cases hks; rfl
  | cons k ks ih =>
    have hw : (F R k).length = h := hF R k hR
    rw [feistelRounds_cons hw] at hks
    have hback : feistelRounds F h ks.reverse R' L' = .ok (xorBytes L (F R k), R) :=
      ih hR (by rw [xorBytes_length, hL, hw, Nat.min_self]) hks
    rw [List.reverse_cons, feistelRounds_append hback, feistelRounds_cons hw, feistelRounds_nil,
      xorBytes_cancel _ _ (hL.trans hw.symm).le]

end Inversion

/-! ## FeistelF (R226) -/

section Engine

variable {rounds : Nat} {F : Bytes → Bytes → Bytes} {sched : List Bytes} {X L R : Bytes}

theorem feistelF_odd (hodd : X.length % 2 = 1) : feistelF rounds F sched X = .error .lengthAlign :=
  if_pos (by omega)

theorem feistelF_even (heven : X.length % 2 = 0) (hs : rounds ≤ sched.length) :
    feistelF rounds F sched X =
      (feistelRounds F (X.length / 2) (sched.take rounds) (X.take (X.length / 2)) (X.drop (X.length / 2))).map
        fun p => p.2 ++ p.1 := by
  simp only [feistelF, heven, Nat.not_lt.2 hs, ne_eq, not_true_eq_false, if_false]
  cases feistelRounds F (X.length / 2) (sched.take rounds) (X.take (X.length / 2)) (X.drop (X.length / 2)) <;> rfl

/-- FeistelF on a block given by its two halves, with exactly the keys it uses. -/
theorem feistelF_append {A B : Bytes} (hAB : A.length = B.length) (hs : sched.length = rounds)
    (hr : feistelRounds F A.length sched A B = .ok (L, R)) : feistelF rounds F sched (A ++ B) = .ok (R ++ L) := by
  have hhalf : (A ++ B).length / 2 = A.length := by rw [List.length_append, ← hAB]; omega
  rw [feistelF_even (by rw [List.length_append, ← hAB]; omega) hs.ge, hhalf, List.take_left, List.drop_left,
    List.take_of_length_le hs.le, hr]
  rfl

/-- The inversion law (R227), for a round function that keeps the length of the block's halves: the output is right
then left, so the engine run again starts from the exchanged halves, from which the reversed keys undo the rounds. -/
theorem feistelF_inverts (hF : ∀ half k, half.length = X.length / 2 → (F half k).length = X.length / 2)
    (hs : sched.length = rounds) (heven : X.length % 2 = 0) :
    ∃ Y, feistelF rounds F sched X = .ok Y ∧ Y.length = X.length ∧ feistelF rounds F sched.reverse Y = .ok X := by
  have hA : (X.take (X.length / 2)).length = X.length / 2 := by rw [List.length_take]; omega
  have hB : (X.drop (X.length / 2)).length = X.length / 2 := by rw [List.length_drop]; omega
  obtain ⟨L, R, hfwd, hL, hR⟩ := feistelRounds_halves hF sched hA hB
  have hback := feistelRounds_reverse hF hA hB hfwd
  refine ⟨R ++ L, ?_, ?_, ?_⟩
  · rw [feistelF_even heven hs.ge, List.take_of_length_le hs.le, hfwd]
    rfl
  · rw [List.length_append, hL, hR]; omega
  · rw [feistelF_append (hR.trans hL.symm) (sched.length_reverse.trans hs) (hR.symm ▸ hback), List.take_append_drop]

end Engine

/-- Settles O46: the rounds use the first keys of the schedule, on which the given sequences follow the recurrence. -/
theorem feistelRoundsFollowRule : Obligations.FeistelRoundsFollowRule := by
  intro rounds F sched X L R hs hL hR hrec
  have hlen : (sched.take rounds).length = rounds := List.length_take_of_le hs
  have hkey : ∀ r, r < rounds → (sched.take rounds).getD r [] = sched.getD r [] := fun r hr => by
    simp [List.getElem?_take_of_lt hr]
  have hfollow : HalvesFollow F (sched.take rounds) L R := fun r hr => by
    rw [hlen] at hr
    rw [hkey r hr]
    exact hrec r hr
  refine ⟨feistelF_odd, fun heven hw => ?_, fun heven ⟨r, hr, hbad⟩ => ?_⟩
  · have hok := hfollow.rounds_ok (h := X.length / 2) fun r hr => by
      rw [hlen] at hr
      rw [hkey r hr]
      exact hw r hr
    rw [feistelF_even heven hs, ← hL, ← hR, hok, hlen]
    rfl
  · have herr := hfollow.rounds_error (h := X.length / 2) ⟨r, by rwa [hlen], by rwa [hkey r hr]⟩
    rw [feistelF_even heven hs, ← hL, ← hR, herr]
    rfl

/-- Settles O47: a round function that keeps every length keeps that of the block's halves. -/
theorem feistelInvertsWithReversedSchedule : Obligations.FeistelInvertsWithReversedSchedule :=
  fun _ _ _ _ hF hs heven => feistelF_inverts (fun half k hh => (hF half k).trans hh) hs heven

end Sys2Proof.Machine
end

section
/-! SUPPORT. The statements of 43_des.md, sections 1 to 3: the permutation tables (R240 to R245), key expansion (R250),
the round function (R252), and the block transform with its inverse (R253, R254). -/
namespace Sys2Proof.Machine

/-! ## A table applied to a byte sequence (R178) -/

section Tables
variable {T U : List Nat} {B X : Bytes}

/-- Where its entry lies inside the input, an output bit is the input bit that the one-based entry numbers. -/
theorem bitAt_desPermute {i t : Nat} (hT : T[i]? = some t) (h1 : 1 ≤ t) (ht : t ≤ nbits B) :
    bitAt (desPermute T B) i = bitAt B (t - 1) := by
  rw [desPermute, bitAt_permuteF hT]
  exact permuteBit_be (b := .one) h1 (show t - 1 < nbits B by omega)

/-- The output depends only on the input bits that the table's entries number. -/
theorem desPermute_congr (hl : X.length = B.length) (hbits : ∀ t ∈ T, bitAt X (t - 1) = bitAt B (t - 1)) :
    desPermute T X = desPermute T B := by
  refine congrArg pack (List.map_congr_left fun t ht => ?_)
  have hn : nbits X = nbits B := congrArg (8 * ·) hl
  have hbit : bitAt X (t - baseNum .one) = bitAt B (t - baseNum .one) := hbits t ht
  simp only [permuteBit, hn, hbit]

/-- The entries of U number the bits of a 64-bit block, and entry i of U numbers the entry i + 1 of T. -/
def UndoneBy (T U : List Nat) : Prop :=
  ∀ i < 64, 1 ≤ U.getD i 0 ∧ U.getD i 0 ≤ 64 ∧ T.getD (U.getD i 0 - 1) 0 = i + 1

/-- A table of 64 entries is undone by the table of the positions of its entries. -/
theorem desPermute_desPermute (hT : T.length = 64) (hU : U.length = 64) (hTU : UndoneBy T U) (hX : X.length = 8) :
    desPermute U (desPermute T X) = X := by
  have hTX : nbits (desPermute T X) = 64 := by simp [nbits, hT, ceil8]
  refine bytes_ext (by simp [hU, hX, ceil8]) fun i hi => ?_
  have hi : i < 64 := by simpa [nbits, hU, ceil8] using hi
  obtain ⟨h1, h64, hback⟩ := hTU i hi
  have hUi : U[i]? = some (U.getD i 0) := by simp [hU, hi]
  have hidx : U.getD i 0 - 1 < T.length := by omega
  have hTi : T[U.getD i 0 - 1]? = some (i + 1) := by
    rw [← hback, List.getD_eq_getElem T 0 hidx]
    exact List.getElem?_eq_getElem hidx
  calc bitAt (desPermute U (desPermute T X)) i
      = bitAt (desPermute T X) (U.getD i 0 - 1) := bitAt_desPermute hUi h1 (hTX.symm ▸ h64)
    _ = bitAt X i := bitAt_desPermute hTi (Nat.succ_pos i) (by rw [nbits, hX]; omega)

end Tables

theorem tableIP_undoneBy_tableFP : UndoneBy tableIP tableFP := by unfold UndoneBy; decide
theorem tableFP_undoneBy_tableIP : UndoneBy tableFP tableIP := by unfold UndoneBy; decide

theorem tableFP_tableIP {X : Bytes} (hX : X.length = 8) : desPermute tableFP (desPermute tableIP X) = X :=
  desPermute_desPermute tableIP_length tableFP_length tableIP_undoneBy_tableFP hX

theorem tableIP_tableFP {X : Bytes} (hX : X.length = 8) : desPermute tableIP (desPermute tableFP X) = X :=
  desPermute_desPermute tableFP_length tableIP_length tableFP_undoneBy_tableIP hX

/-- Settles O48: each of the two tables lists the positions of the other's entries. -/
theorem finalPermutationInvertsInitial : Obligations.FinalPermutationInvertsInitial :=
  ⟨fun i hi => have ⟨_, _, hback⟩ := tableIP_undoneBy_tableFP i hi; hback,
    fun _ hX => ⟨tableFP_tableIP hX, tableIP_tableFP hX⟩⟩

/-! ## Key expansion (R250, R255) -/

section KeyExpansion
variable {C D : Bits}

/-- On a 28-bit half the rotation of R250 is a cyclic shift. -/
theorem rotateHalf_eq_rotate (hC : C.length = 28) (n : Nat) : rotateHalf n C = C.rotate n := by
  have hwin : 28 ≤ nbits (pack C) := by simp [nbits, hC, ceil8]
  have hlen : (C.rotate n).length = 28 := by rw [List.length_rotate, hC]
  rw [rotateHalf, rotLF_window (by decide) hwin, take_unpack_pack hC, rotateBitsLeft_eq_rotate]
  exact take_unpack_pack hlen

/-- The rotations of the key loop accumulate: round r has both halves rotated by the amounts of rounds 0 to r
(90_conflicts.md C2). -/
theorem desRoundKeys_eq_map (hC : C.length = 28) (hD : D.length = 28) (ns : List Nat) :
    desRoundKeys ns C D = (List.range ns.length).map fun r =>
      desPermute tablePC2 (pack (C.rotate (ns.take (r + 1)).sum ++ D.rotate (ns.take (r + 1)).sum)) := by
  induction ns generalizing C D with
  | nil => rfl
  | cons n ns ih =>
    have hC' : (C.rotate n).length = 28 := by rw [List.length_rotate, hC]
    have hD' : (D.rotate n).length = 28 := by rw [List.length_rotate, hD]
    rw [desRoundKeys, rotateHalf_eq_rotate hC, rotateHalf_eq_rotate hD, ih hC' hD']
    simp [List.range_succ_eq_map, List.rotate_rotate, Function.comp_def]

end KeyExpansion

theorem unpack_tablePC1_length (key : Bytes) : (unpack (desPermute tablePC1 key)).length = 56 := by
  simp [nbits, tablePC1_length, ceil8]

/-- Settles O49: the key loop starts from the two 28-bit halves of PC1's output. -/
theorem roundKeysRotateCumulatively : Obligations.RoundKeysRotateCumulatively := by
  rintro key cd rot - rfl hrot
  have hcd : (unpack (permuteF key tablePC1 .be .one)).length = 56 := unpack_tablePC1_length key
  have hC : ((unpack (permuteF key tablePC1 .be .one)).take 28).length = 28 := by rw [List.length_take, hcd]; rfl
  have hD : ((unpack (permuteF key tablePC1 .be .one)).drop 28).length = 28 := by rw [List.length_drop, hcd]
  have hrotate : ∀ w : Bits, w.length = 28 → ∀ n, rot w n = w.rotate n := fun w hw n => by
    rw [hrot, List.rotate_eq_drop_append_take_mod, hw]
  refine ⟨?_, fun k hk => desKS_key_length hk⟩
  simp only [hrotate _ hC, hrotate _ hD]
  rw [desKS, desPermute, List.take_of_length_le hD.le, desRoundKeys_eq_map hC hD]
  rfl

/-- PC1 passes over the eight parity bits (R244). -/
theorem tablePC1_no_parity : ∀ t ∈ tablePC1, t - 1 < 64 ∧ (t - 1) % 8 ≠ 7 := by decide

/-- Keys that agree on all but the parity bits have one schedule (R255). -/
theorem desKS_eq_of_agree {k l : Bytes} (hkl : k.length = l.length)
    (h : ∀ p, p < 64 → p % 8 ≠ 7 → bitAt k p = bitAt l p) : desKS k = desKS l := by
  have hpc1 : desPermute tablePC1 k = desPermute tablePC1 l := desPermute_congr hkl fun t ht =>
    have ⟨hlt, hparity⟩ := tablePC1_no_parity t ht
    h (t - 1) hlt hparity
  rw [desKS, desKS, hpc1]

/-- Settles O52: key expansion always gives 16 round keys, and reads the key through PC1 alone. -/
theorem parityBitsIgnored : Obligations.ParityBitsIgnored :=
  fun k _ hk hl => ⟨engineSetEnc_des k, engineSetDec_des k, desKS_eq_of_agree (hk.trans hl.symm)⟩

/-! ## The round function (R252) -/

/-- Box g works on the g-th group of 6 bits. -/
theorem desSubst_eq_flatMap (boxes : List (List (List Nat))) (x : Bits) :
    desSubst boxes x = (List.range boxes.length).flatMap fun g =>
      bitsOf 4 (denseEntry (boxes.getD g []) (bitsInt ((x.drop (6 * g)).take 6))) := by
  induction boxes generalizing x with
  | nil => rfl
  | cons box boxes ih =>
    simp [desSubst, ih, List.range_succ_eq_map, List.flatMap_map, Nat.mul_succ, Nat.add_comm]

/-- Settles O50: the groups of the substitution written out; the tables are the model's row by row. -/
theorem roundFunctionFollowsRule : Obligations.RoundFunctionFollowsRule := by
  refine ⟨?_, rfl, rfl, rfl, rfl, rfl, rfl, rfl, by decide⟩
  rintro R K x - - rfl
  exact ⟨congrArg (desPermute tableP ∘ pack) (desSubst_eq_flatMap sboxes _), desF_length R K⟩

/-! ## The block transform (R253, R254) -/

theorem tableIP_apply_length (X : Bytes) : (desPermute tableIP X).length = 8 := by
  rw [desPermute_length, tableIP_length]; rfl

/-- DesCore is the Feistel engine between the two permutations. -/
theorem desCore_of_feistelF {sched : List Bytes} {X Y : Bytes}
    (h : feistelF 16 desF sched (desPermute tableIP X) = .ok Y) : desCore sched X = .ok (desPermute tableFP Y) := by
  simp only [desCore, wrapF, desEngine, h]

/-- Settles O51: the rounds are those of R226 on the halves of IP's output. -/
theorem desCoreFollowsRule : Obligations.DesCoreFollowsRule := by
  intro sched X L R hs _ hL hR hrec
  have hlen := tableIP_apply_length X
  obtain ⟨-, hrounds, -⟩ := feistelRoundsFollowRule 16 desF sched (desPermute tableIP X) L R hs.ge
    (by rw [hlen]; exact hL) (by rw [hlen]; exact hR) hrec
  exact desCore_of_feistelF (hrounds (by rw [hlen]) fun r _ => by rw [desF_length, hlen])

/-- The block transform undoes itself under the reversed schedule: FP and IP cancel between the two passes, and so do
the rounds (R227). -/
theorem desCore_reverse {sched : List Bytes} {X : Bytes} (hs : sched.length = 16) (hX : X.length = 8) :
    ∃ Y, desCore sched X = .ok Y ∧ Y.length = 8 ∧ desCore sched.reverse Y = .ok X := by
  have hlen := tableIP_apply_length X
  obtain ⟨Z, hfwd, hZ, hback⟩ := feistelF_inverts (F := desF) (X := desPermute tableIP X)
    (fun R K _ => by rw [desF_length, hlen]) hs (by rw [hlen])
  refine ⟨desPermute tableFP Z, desCore_of_feistelF hfwd, by simp [tableFP_length, ceil8], ?_⟩
  rw [← tableIP_tableFP (hZ.trans hlen)] at hback
  rw [desCore_of_feistelF hback, tableFP_tableIP hX]

/-- Settles O53: the backward schedule is the forward one reversed. -/
theorem desDecryptInvertsEncrypt : Obligations.DesDecryptInvertsEncrypt :=
  fun k _ hX => desCore_reverse (desKS_length k) hX

end Sys2Proof.Machine
end

section
/-! SUPPORT. The statements of 43_des.md, section 4: the five DES commands (R256 to R260), and with DES_BSIZE the one of
Triple-DES (R290). -/
namespace Sys2Proof.Machine

/-- The word of a command that has a context and no modifier (R100). -/
theorem assembleWord_context {c : Nat} (hc : c < 16) (opc : BitVec 8) :
    assembleWord opc c 0 = opc.setWidth 32 ||| (BitVec.ofNat 32 c <<< 8) := by
  obtain ⟨ctx, rfl⟩ : ∃ ctx : BitVec 4, ctx.toNat = c := ⟨BitVec.ofNat 4 c, Nat.mod_eq_of_lt hc⟩
  rw [assembleWord, BitVec.ofNat_toNat, BitVec.ofNat_toNat, BitVec.setWidth_eq]
  ext i hi
  simp only [BitVec.getElem_append, BitVec.getElem_or, BitVec.getElem_setWidth, BitVec.getElem_shiftLeft,
    BitVec.getElem_zero]
  grind

section Arms
variable {s : State} {c : Nat}

/-- A command that answers a new value of a DES context and no store completes with that value (R147). -/
theorem exec_of_desCtx {i : Instr} {r : Word} {x : DesCtx} (h : commandOut i s = .ok r [] (.des c x)) :
    exec i s = .next { s.completed r with des := s.des.set c x } := by
  rw [exec_eq_finish, h]
  rfl

theorem desKeyCommand_eq {ex : Bytes → Except ErrCode (List Bytes)} {f : DesCtx → Schedule → DesCtx} {x : DesCtx}
    {k : Bytes} {ks : List Bytes} (hx : s.des[c]? = some x) (hklen : s.opKlen = 8) (hkey : s.opKey + 8 ≤ s.bufSize)
    (hk : s.buf.readBytes s.opKey 8 = some k) (hks : ex k = .ok ks) :
    desKeyCommand s c ex f = .ok 0 [] (.des c (f x (scheduleOf ks))) := by
  rw [desKeyCommand, withCtx_some hx, require_pos hklen, requireRegions_inside hkey, requireRegions_nil,
    withBytes_some hk, withValue_of_ok hks]

theorem blockCommand_eq {f : Bytes → Except ErrCode Bytes} {X O : Bytes} (hsrc : s.opSrc + 8 ≤ s.bufSize)
    (hdst : s.opDst + 8 ≤ s.bufSize) (hX : s.buf.readBytes s.opSrc 8 = some X) (hO : f X = .ok O) :
    blockCommand s f = .ok 0 [(s.opDst, O)] .unchanged := by
  rw [blockCommand, requireRegions_inside hsrc, requireRegions_inside hdst, requireRegions_nil, withBytes_some hX,
    withValue_of_ok hO]

/-- A context whose key is set passes the context check and the key check (R145, R330). -/
theorem withCtx_keyed {α : Type} {l : List α} {x : α} {valid : α → Bool} {k : α → CmdOut} (hx : l[c]? = some x)
    (hvalid : valid x = true) : (withCtx l c fun y => require (valid y = true) .keyNotSet (k y)) = k x := by
  rw [withCtx_some hx, require_pos hvalid]

end Arms

/-- Settles O26: both setters run one arm, which installs the round keys the engine expands, as they are. -/
theorem desKeySettersInstallSchedules : Obligations.DesKeySettersInstallSchedules := by
  refine fun s c => ⟨fun hc => ⟨assembleWord_context hc 0x01, assembleWord_context hc 0x02⟩,
    exec_failsAsChecked _ s, exec_failsAsChecked _ s, fun x k hx hklen hkey hk => ⟨?_, ?_⟩⟩
  · exact ⟨_, scheduleBytes_desKS k, exec_of_desCtx (i := .desSetek c)
      (desKeyCommand_eq (f := fun x v => { x with ek := v, ekValid := true }) hx hklen hkey hk (engineSetEnc_des k))⟩
  · exact ⟨_, scheduleBytes_desKS_reverse k, exec_of_desCtx (i := .desSetdk c)
      (desKeyCommand_eq (f := fun x v => { x with dk := v, dkValid := true }) hx hklen hkey hk (engineSetDec_des k))⟩

/-- Settles O27: under either schedule DesCore answers 8 bytes, and the arm stores them. -/
theorem desBlockCommandsTransform : Obligations.DesBlockCommandsTransform := by
  refine fun s c => ⟨fun hc => ⟨assembleWord_context hc 0x03, assembleWord_context hc 0x04⟩,
    exec_failsAsChecked _ s, exec_failsAsChecked _ s,
    fun x X hx hsrc hdst hX => ⟨fun hkeyed => ?_, fun hkeyed => ?_⟩⟩
  · obtain ⟨O, hO, hlen⟩ := blockFn_desCore x.ek X
    exact ⟨O, hO, hlen, exec_of_store (i := .desEnc c)
      ((withCtx_keyed hx hkeyed).trans (blockCommand_eq hsrc hdst hX hO))⟩
  · obtain ⟨O, hO, hlen⟩ := blockFn_desCore x.dk X
    exact ⟨O, hO, hlen, exec_of_store (i := .desDec c)
      ((withCtx_keyed hx hkeyed).trans (blockCommand_eq hsrc hdst hX hO))⟩

/-- Settles O28: past the context check the two commands answer 8. -/
theorem blockSizeCommandsGiveEight : Obligations.BlockSizeCommandsGiveEight :=
  fun s c => ⟨fun hc => ⟨assembleWord_context hc 0x05, assembleWord_context hc 0x15⟩,
    exec_failsAsChecked _ s, exec_failsAsChecked _ s,
    fun hc => exec_of_result (i := .desBsize c) (withCtx_some (List.getElem?_eq_getElem hc)),
    fun hc => exec_of_result (i := .tdesBsize c) (withCtx_some (List.getElem?_eq_getElem hc))⟩

end Sys2Proof.Machine
end

section
/-! SUPPORT. The statements of 44_triple_des.md, section 1: the three stages of each direction (R282, R283), that the two
directions undo each other (R284), and the EDE family with equal keys (R285). -/
namespace Sys2Proof.Machine

/-! ## Stages in a row -/

section Stages
variable {f g h f' g' h' : Bytes → Except ErrCode Bytes}

theorem stage_assoc (r : Except ErrCode Bytes) (f g : Bytes → Except ErrCode Bytes) :
    stage (stage r f) g = stage r fun X => stage (f X) g := by cases r <;> rfl

/-- Three block functions in a row, with the block after each (R282, R283). -/
theorem stages_of_blockFn (hf : BlockFn f) (hg : BlockFn g) (hh : BlockFn h) (X : Bytes) :
    ∃ a b c, f X = .ok a ∧ g a = .ok b ∧ h b = .ok c ∧ stage (stage (f X) g) h = .ok c := by
  obtain ⟨a, ha, -⟩ := hf X
  obtain ⟨b, hb, -⟩ := hg a
  obtain ⟨c, hc, -⟩ := hh b
  exact ⟨a, b, c, ha, hb, hc, by simp only [ha, stage, hb, hc]⟩

/-- `g` gives back every block that `f` was given (R254, R284). -/
def InvertedBy (f g : Bytes → Except ErrCode Bytes) : Prop :=
  ∀ X, X.length = 8 → ∃ Y, f X = .ok Y ∧ Y.length = 8 ∧ g Y = .ok X

/-- The inverse of two stages applies their inverses in the reverse order. -/
theorem InvertedBy.then_stage (hf : InvertedBy f f') (hg : InvertedBy g g') :
    InvertedBy (fun X => stage (f X) g) fun Y => stage (g' Y) f' := by
  intro X hX
  obtain ⟨Y, hY, hlenY, hback⟩ := hf X hX
  obtain ⟨Z, hZ, hlenZ, hbackZ⟩ := hg Y hlenY
  exact ⟨Z, by simp only [hY, stage, hZ], hlenZ, by simp only [hbackZ, stage, hback]⟩

/-- The inverse of three stages, in the shape of R282 and R283. -/
theorem InvertedBy.three_stages (hf : InvertedBy f f') (hg : InvertedBy g g') (hh : InvertedBy h h') :
    InvertedBy (fun X => stage (stage (f X) g) h) fun Y => stage (stage (h' Y) g') f' := by
  simp only [stage_assoc _ g' f']
  exact (hf.then_stage hg).then_stage hh

/-- A stage, its inverse and the stage again are the one stage (R285). -/
theorem InvertedBy.stage_undo_redo {X : Bytes} (hfg : InvertedBy f g) (hX : X.length = 8) :
    stage (stage (f X) g) f = f X := by
  obtain ⟨Y, hY, -, hback⟩ := hfg X hX
  simp only [hY, stage, hback]

end Stages

theorem desEnc_invertedBy_desDec (k : Bytes) : InvertedBy (desEnc k) (desDec k) := desDecryptInvertsEncrypt k

/-- Reversing the schedule twice gives the forward one, so encryption undoes decryption as well. -/
theorem desDec_invertedBy_desEnc (k : Bytes) : InvertedBy (desDec k) (desEnc k) := by
  intro X hX
  have hback := desCore_reverse (sched := (desKS k).reverse) (by simp) hX
  rwa [List.reverse_reverse] at hback

/-- Settles O54: each stage is a single-DES pass, which answers a block for every key. -/
theorem tdesStagesInOrder : Obligations.TdesStagesInOrder := by
  intro m k1 k2 k3 X
  cases m
  case eee3 | eee2 =>
    exact ⟨stages_of_blockFn (desEnc_ok k1) (desEnc_ok k2) (desEnc_ok k3) X,
      stages_of_blockFn (desDec_ok k3) (desDec_ok k2) (desDec_ok k1) X⟩
  case ede3 | ede2 =>
    exact ⟨stages_of_blockFn (desEnc_ok k1) (desDec_ok k2) (desEnc_ok k3) X,
      stages_of_blockFn (desDec_ok k3) (desEnc_ok k2) (desDec_ok k1) X⟩

/-- Triple-DES decryption undoes encryption in every mode (R284). -/
theorem tdesEncF_invertedBy_tdesDecF (m : TdesMode) (k1 k2 k3 : Bytes) :
    InvertedBy (tdesEncF m k1 k2 k3) (tdesDecF m k1 k2 k3) := by
  have h1 := desEnc_invertedBy_desDec k1
  have h3 := desEnc_invertedBy_desDec k3
  cases m
  case eee3 | eee2 => exact h1.three_stages (desEnc_invertedBy_desDec k2) h3
  case ede3 | ede2 => exact h1.three_stages (desDec_invertedBy_desEnc k2) h3

/-- Settles O55: with equal keys the middle stage of the EDE family undoes the first. -/
theorem tdesDecryptInvertsEncrypt : Obligations.TdesDecryptInvertsEncrypt := by
  refine ⟨tdesEncF_invertedBy_tdesDecF, fun m k X hm hX => ?_⟩
  have henc := (desEnc_invertedBy_desDec k).stage_undo_redo hX
  have hdec := (desDec_invertedBy_desEnc k).stage_undo_redo hX
  rcases hm with rfl | rfl
  · exact ⟨henc, hdec⟩
  · exact ⟨henc, hdec⟩

end Sys2Proof.Machine
end

section
/-! SUPPORT. The statements of 44_triple_des.md, section 2: the two key setters and the two block commands (R286 to R289);
TDES_BSIZE stands with DES_BSIZE. -/
namespace Sys2Proof.Machine

/-! ## Words and keys -/

/-- The word of a command that has a context and a modifier (R100). -/
theorem assembleWord_context_modifier {c : Nat} (hc : c < 16) (opc : BitVec 8) (m : BitVec 4) :
    assembleWord opc c m = opc.setWidth 32 ||| (BitVec.ofNat 32 c <<< 8) ||| (m.setWidth 32 <<< 12) := by
  rw [← assembleWord_context hc]
  ext i hi
  simp only [assembleWord, BitVec.getElem_append, BitVec.getElem_or, BitVec.getElem_setWidth,
    BitVec.getElem_shiftLeft, BitVec.getElem_zero]
  grind

/-- The code and the key length of each mode (R280). -/
theorem tdesMode_code_keyLen : ∀ p ∈ [(TdesMode.eee3, 0, 24), (.ede3, 1, 24), (.eee2, 2, 16), (.ede2, 3, 16)],
    (modeCode p.1).setWidth 32 = BitVec.ofNat 32 p.2.1 ∧ tdesKeyLen p.1 = p.2.2 := by decide

/-- The three keys of a key of the mode's length, each kept as it is (R281). -/
theorem tdesKeySet_keys {m : TdesMode} {K : Bytes} (hK : K.length = tdesKeyLen m) :
    (tdesKeySet m K).k1.toList = K.take 8 ∧ (tdesKeySet m K).k2.toList = (K.drop 8).take 8 ∧
      (tdesKeySet m K).k3.toList = if tdesKeyLen m = 24 then (K.drop 16).take 8 else K.take 8 := by
  have part (a : Nat) (ha : a + 8 ≤ tdesKeyLen m) :
      (vecOfList 8 0 ((K.drop a).take 8)).toList = (K.drop a).take 8 :=
    vecOfList_toList _ _ (by rw [List.length_take, List.length_drop]; omega)
  cases m
  case eee3 | ede3 => exact ⟨part 0 (by decide), part 8 (by decide), part 16 (by decide)⟩
  case eee2 | ede2 => exact ⟨part 0 (by decide), part 8 (by decide), part 0 (by decide)⟩

/-! ## The commands -/

section Arms
variable {s : State} {c : Nat}

/-- A command that answers no store completes with its context's new value (R147). -/
theorem exec_of_ctxUpdate {i : Instr} {r : Word} {u : CtxUpdate} (h : commandOut i s = .ok r [] u) :
    exec i s = .next ((s.completed r).putCtx u) := by
  rw [exec_eq_finish, h]
  cases u <;> rfl

theorem tdesKeyCommand_eq {m : TdesMode} {f : TdesCtx → TdesKeys → TdesCtx} {x : TdesCtx} {K : Bytes}
    (hx : s.tdes[c]? = some x) (hklen : s.opKlen = tdesKeyLen m) (hkey : s.opKey + s.opKlen ≤ s.bufSize)
    (hK : s.buf.readBytes s.opKey s.opKlen = some K) :
    tdesKeyCommand s c m f = .ok 0 [] (.tdes c (f x (tdesKeySet m K))) := by
  rw [tdesKeyCommand, withCtx_some hx, require_pos hklen, requireRegions_inside hkey, requireRegions_nil,
    withBytes_some hK]

theorem cmdTdesEnc_of_keyed {x : TdesCtx} (hx : s.tdes[c]? = some x) (hkeyed : x.e.valid = true) :
    cmdTdesEnc c s = blockCommand s (tdesEncWith x.e) := by
  rw [cmdTdesEnc, withCtx_some hx, require_pos hkeyed]

theorem cmdTdesDec_of_keyed {x : TdesCtx} (hx : s.tdes[c]? = some x) (hkeyed : x.d.valid = true) :
    cmdTdesDec c s = blockCommand s (tdesDecWith x.d) := by
  rw [cmdTdesDec, withCtx_some hx, require_pos hkeyed]

end Arms

/-- Settles O29: both setters run one arm, which installs the key set of R281 in one direction. -/
theorem tdesKeySettersInstallKeys : Obligations.TdesKeySettersInstallKeys := by
  intro s c m code len hm
  obtain ⟨hcode : (modeCode m).setWidth 32 = BitVec.ofNat 32 code, rfl : tdesKeyLen m = len⟩ :=
    tdesMode_code_keyLen _ hm
  rw [← hcode]
  refine ⟨fun hc => ⟨assembleWord_context_modifier hc 0x11 _, assembleWord_context_modifier hc 0x12 _⟩,
    exec_failsAsChecked _ s, exec_failsAsChecked _ s, fun x K hx hklen hkey hK => ?_⟩
  obtain ⟨hk1, hk2, hk3⟩ := tdesKeySet_keys ((Memory.readBytes_length hK).trans hklen)
  exact ⟨_, _, _, hk1, hk2, hk3,
    exec_of_ctxUpdate (i := .tdesSetek c m)
      (tdesKeyCommand_eq (f := fun x t => { x with e := t }) hx hklen hkey hK),
    exec_of_ctxUpdate (i := .tdesSetdk c m)
      (tdesKeyCommand_eq (f := fun x t => { x with d := t }) hx hklen hkey hK)⟩

/-- Settles O30: under either key set Triple-DES answers 8 bytes, and the arm stores them. -/
theorem tdesBlockCommandsTransform : Obligations.TdesBlockCommandsTransform := by
  refine fun s c => ⟨fun hc => ⟨assembleWord_context hc 0x13, assembleWord_context hc 0x14⟩,
    exec_failsAsChecked _ s, exec_failsAsChecked _ s,
    fun x X hx hsrc hdst hX => ⟨fun hkeyed => ?_, fun hkeyed => ?_⟩⟩
  · obtain ⟨O, hO, hlen⟩ := blockFn_tdesEncWith x.e X
    exact ⟨O, hO, hlen, exec_of_store (i := .tdesEnc c)
      ((cmdTdesEnc_of_keyed hx hkeyed).trans (blockCommand_eq hsrc hdst hX hO))⟩
  · obtain ⟨O, hO, hlen⟩ := blockFn_tdesDecWith x.d X
    exact ⟨O, hO, hlen, exec_of_store (i := .tdesDec c)
      ((cmdTdesDec_of_keyed hx hkeyed).trans (blockCommand_eq hsrc hdst hX hO))⟩

end Sys2Proof.Machine
end

section
/-! SUPPORT. The statements of 45_rc4.md, section 1: key scheduling (R310), the keystream (R311, R312) and its laws
(R313). -/
namespace Sys2Proof.Machine

/-! ## The permutation S, entry by entry -/

/-- The entries after a swap. -/
theorem sAt_sSwap (S : Vector Byte 256) (p q k : Byte) :
    sAt (sSwap S p q) k = if k = p then sAt S q else if k = q then sAt S p else sAt S k := by
  simp only [sAt, sSwap, Vector.get_eq_getElem, Vector.getElem_swap, BitVec.toNat_inj]

theorem sAt_sIdentity (p : Byte) : sAt sIdentity p = p := by
  simp [sAt, sIdentity, Vector.get_eq_getElem]

theorem sIdentity_toList : sIdentity.toList = (List.range 256).map (BitVec.ofNat 8) := by
  rw [sIdentity, Vector.toList_mk, List.toList_toArray]

/-- S is its 256 entries. -/
theorem sAt_ext {S T : Vector Byte 256} (h : ∀ q, sAt S q = sAt T q) : S = T := by
  ext n hn : 1
  simpa [sAt, Vector.get_eq_getElem, Nat.mod_eq_of_lt hn] using h (BitVec.ofNat 8 n)

/-- The rule's clause for an exchange of two entries says the model's swap. -/
theorem eq_sSwap {S T : Vector Byte 256} {p q : Byte}
    (h : ∀ k, sAt T k = if k = p then sAt S q else if k = q then sAt S p else sAt S k) : T = sSwap S p q :=
  sAt_ext fun k => (h k).trans (sAt_sSwap S p q k).symm

/-! ## Key scheduling -/

/-- The loop over n positions in a row goes n places forward in sequences that follow its recurrence (R310). -/
theorem ksaLoop_range' {key : Bytes} {S : Nat → Vector Byte 256} {a : Nat → Byte} {m : Nat}
    (ha : ∀ p, p < m → a (p + 1) = a p + sAt (S p) (BitVec.ofNat 8 p) + key.getD (p % key.length) 0)
    (hS : ∀ p, p < m → S (p + 1) = sSwap (S p) (BitVec.ofNat 8 p) (a (p + 1))) (n p : Nat) (h : p + n ≤ m) :
    ksaLoop key (List.range' p n) (S p) (a p) = S (p + n) := by
  induction n generalizing p with
  | zero => rfl
  | succ n ih =>
    have hp : p < m := by omega
    rw [List.range'_succ, ksaLoop, ← ha p hp, ← hS p hp, ih (p + 1) (by omega), Nat.add_right_comm, Nat.add_assoc]

/-- Settles O56: the sequences start from the identity, and the loop runs along them over all 256 positions. -/
theorem rc4KeySchedulingFollowsRule : Obligations.Rc4KeySchedulingFollowsRule := by
  intro key S a _ hS0 ha0 ha hS
  have hstart : S 0 = sIdentity := sAt_ext fun q => (hS0 q).trans (sAt_sIdentity q).symm
  have hloop : ksaPerm key = S 256 := by
    rw [ksaPerm, List.range_eq_range', ← hstart, ← ha0]
    exact ksaLoop_range' ha (fun p hp => eq_sSwap (hS p hp)) 256 0 le_rfl
  refine ⟨(rc4KSA_S key).trans hloop, rc4KSA_i key, rc4KSA_j key, ?_⟩
  rw [rc4KSA_S, ← sIdentity_toList]
  exact ksaPerm_perm key

/-! ## The keystream -/

section Keystream
variable (t : Rc4St)

@[simp] theorem rc4Step_i : (rc4Step t).1.i = t.i + 1 := rfl

@[simp] theorem rc4Xor_nil : rc4Xor t [] = (t, []) := rfl

@[simp] theorem rc4Xor_cons (d : Byte) (D : Bytes) :
    rc4Xor t (d :: D) = ((rc4Xor (rc4Step t).1 D).1, (d ^^^ (rc4Step t).2) :: (rc4Xor (rc4Step t).1 D).2) := rfl

/-- The state after n bytes is the n-th iterate of the step (R312). -/
theorem rc4Xor_state (D : Bytes) : (rc4Xor t D).1 = (fun x => (rc4Step x).1)^[D.length] t := by
  induction D generalizing t with
  | nil => rfl
  | cons d D ih => rw [rc4Xor_cons, ih, List.length_cons, Function.iterate_succ_apply]

/-- Output byte n is input byte n under the keystream byte of step n (R312). -/
theorem rc4Xor_getD {D : Bytes} {n : Nat} (h : n < D.length) : (rc4Xor t D).2.getD n 0 =
    D.getD n 0 ^^^ (rc4Step ((fun x => (rc4Step x).1)^[n] t)).2 := by
  induction D generalizing t n with
  | nil => exact absurd h (Nat.not_lt_zero n)
  | cons d D ih =>
    cases n with
    | zero => rfl
    | succ n => simpa using ih (rc4Step t).1 (Nat.lt_of_succ_lt_succ h)

/-- The second piece goes on where the first left the state (R313 (a)). -/
theorem rc4Xor_append (C D : Bytes) :
    rc4Xor t (C ++ D) = ((rc4Xor (rc4Xor t C).1 D).1, (rc4Xor t C).2 ++ (rc4Xor (rc4Xor t C).1 D).2) := by
  induction C generalizing t with
  | nil => rfl
  | cons c C ih => simp [ih]

/-- The same keystream a second time gives the data back (R313 (b)). -/
theorem rc4Xor_output (D : Bytes) : (rc4Xor t (rc4Xor t D).2).2 = D := by
  induction D generalizing t with
  | nil => rfl
  | cons d D ih => simp [ih]

/-- Each byte moves the first cursor by one (R313 (d)). -/
theorem rc4Xor_cursor (D : Bytes) : (rc4Xor t D).1.i = t.i + BitVec.ofNat 8 D.length := by
  induction D generalizing t with
  | nil => simp
  | cons d D ih =>
    simp only [rc4Xor_cons, ih, rc4Step_i, List.length_cons, BitVec.ofNat_add]
    ac_rfl

end Keystream

/-- Settles O57: the step is the rule with its swap written out, and its bytes are used in order. -/
theorem rc4KeystreamFollowsRule : Obligations.Rc4KeystreamFollowsRule := by
  refine ⟨?_, fun t D => ⟨rc4Xor_state t D, rc4Xor_length t D, fun n hn => rc4Xor_getD t hn⟩⟩
  rintro t u z ⟨⟩
  exact ⟨rfl, rfl, sAt_sSwap _ _ _, rfl⟩

/-- Settles O58: the laws hold from every state, with a fresh state's first cursor at 0. -/
theorem rc4KeystreamLaws : Obligations.Rc4KeystreamLaws := by
  refine ⟨rc4Xor_append, fun k D => rc4Xor_output (rc4KSA k) D, fun k D => ?_⟩
  simp [rc4Xor_cursor]

end Sys2Proof.Machine
end

section
/-! SUPPORT. The statements of 45_rc4.md, section 2: the two RC4 commands (R315, R316). -/
namespace Sys2Proof.Machine

section Arms
variable {s : State} {c : Nat}

theorem cmdRc4Mutate_eq {k : Bytes} (hc : c < s.rc4.length) (hklen : s.opKlen ≠ 0)
    (hkey : s.opKey + s.opKlen ≤ s.bufSize) (hk : s.buf.readBytes s.opKey s.opKlen = some k) :
    cmdRc4Mutate c s = .ok 0 [] (.rc4 c (rc4Keyed (rc4KSA k))) := by
  rw [cmdRc4Mutate, withCtx_some (List.getElem?_eq_getElem hc), require_pos hklen, requireRegions_inside hkey,
    requireRegions_nil, withBytes_some hk]

theorem cmdRc4Encode_eq {x : Rc4Ctx} {D O : Bytes} {t : Rc4St} (hx : s.rc4[c]? = some x) (hkeyed : x.valid = true)
    (hsrc : s.opSrc + s.opLen ≤ s.bufSize) (hdst : s.opDst + s.opLen ≤ s.bufSize)
    (hD : s.buf.readBytes s.opSrc s.opLen = some D) (hO : rc4Xor (rc4StOf x) D = (t, O)) :
    cmdRc4Encode c s = .ok 0 [(s.opDst, O)] (.rc4 c (rc4Keyed t)) := by
  rw [cmdRc4Encode, withCtx_keyed hx hkeyed, requireRegions_inside hsrc, requireRegions_inside hdst,
    requireRegions_nil, withBytes_some hD, hO]

/-- A command that answers one store and a new value of an RC4 context completes with both (R147). -/
theorem exec_of_store_rc4Ctx {i : Instr} {r : Word} {a : Nat} {O : Bytes} {x : Rc4Ctx}
    (h : commandOut i s = .ok r [(a, O)] (.rc4 c x)) :
    exec i s = .next { s.completed r with buf := s.buf.writeBytes a O, rc4 := s.rc4.set c x } := by
  rw [exec_eq_finish, h]
  rfl

end Arms

/-- Settles O33: the new state is keyed in either command; its output has the length of the data read (`rc4Xor_length`). -/
theorem rc4CommandsKeyAndEncode : Obligations.Rc4CommandsKeyAndEncode := by
  refine fun s c => ⟨fun hc => ⟨assembleWord_context hc 0x31, assembleWord_context hc 0x32⟩,
    exec_failsAsChecked _ s, exec_failsAsChecked _ s, fun k hc hklen hkey hk => ?mutate,
    fun x D t O hx hkeyed hsrc hdst hD hO => ⟨?length, ?encode⟩⟩
  case mutate => exact exec_of_ctxUpdate (i := .rc4Mutate c) (cmdRc4Mutate_eq hc hklen hkey hk)
  case length =>
    have hlen := rc4Xor_length { S := x.S, i := x.i, j := x.j } D
    rwa [hO, Memory.readBytes_length hD] at hlen
  case encode => exact exec_of_store_rc4Ctx (i := .rc4Encode c) (cmdRc4Encode_eq hx hkeyed hsrc hdst hD hO)

end Sys2Proof.Machine
end

section
/-! SUPPORT. The statements of 46_block_adapter.md, section 1: both forms block by block (R331, R332), the split of a
buffer, and the round trip under every key set (R333). -/
namespace Sys2Proof.Machine

section Blocks
variable {f g : Bytes → Except ErrCode Bytes} {q : Nat} {C D O P T X o : Bytes}

/-! ## A row of blocks -/

@[simp] theorem mapBlocks_zero : mapBlocks f 0 D = .ok [] := rfl

theorem mapBlocks_succ_eq_ok : mapBlocks f (q + 1) D = .ok O ↔
    ∃ o P, f (D.take 8) = .ok o ∧ mapBlocks f q (D.drop 8) = .ok P ∧ o ++ P = O := by
  rw [mapBlocks]
  cases f (D.take 8) <;> cases mapBlocks f q (D.drop 8) <;> simp

/-- A first block before a row of blocks. -/
theorem mapBlocks_cons (hX : X.length = 8) (ho : f X = .ok o) (hO : mapBlocks f q D = .ok O) :
    mapBlocks f (q + 1) (X ++ D) = .ok (o ++ O) :=
  mapBlocks_succ_eq_ok.2 ⟨o, O, by rwa [List.take_left' hX], by rwa [List.drop_left' hX], rfl⟩

/-- A row of blocks is transformed in two pieces as in one. -/
theorem mapBlocks_append {r : Nat} (hC : C.length = 8 * q) (hO : mapBlocks f q C = .ok O)
    (hP : mapBlocks f r D = .ok P) : mapBlocks f (q + r) (C ++ D) = .ok (O ++ P) := by
  induction q generalizing C O with
  | zero =>
    obtain rfl : C = [] := List.length_eq_zero_iff.1 hC
    obtain rfl : [] = O := Except.ok.inj hO
    simpa using hP
  | succ q ih =>
    obtain ⟨o, Q, ho, hQ, rfl⟩ := mapBlocks_succ_eq_ok.1 hO
    have hhead : (C.take 8).length = 8 := by rw [List.length_take]; omega
    have htail : (C.drop 8).length = 8 * q := by rw [List.length_drop]; omega
    have hrow := mapBlocks_cons hhead ho (ih htail hQ)
    rwa [← List.append_assoc, ← List.append_assoc, List.take_append_drop, Nat.add_right_comm] at hrow

/-- Block t of the output is the block function's value on block t of the input. -/
theorem mapBlocks_eq_flatMap {v : Bytes → Bytes} (hf : ∀ X, f X = .ok (v X)) (q : Nat) (D : Bytes) :
    mapBlocks f q D = .ok ((List.range q).flatMap fun t => v ((D.drop (8 * t)).take 8)) := by
  induction q generalizing D with
  | zero => rfl
  | succ q ih =>
    refine mapBlocks_succ_eq_ok.2 ⟨_, _, hf _, ih _, ?_⟩
    simp [List.range_succ_eq_map, List.flatMap_map, Nat.mul_succ, Nat.add_comm]

/-- Where `g` undoes `f` on every block, it does so on a row of blocks. -/
theorem InvertedBy.mapBlocks (hfg : InvertedBy f g) (hD : D.length = 8 * q) :
    ∃ O, mapBlocks f q D = .ok O ∧ O.length = 8 * q ∧ mapBlocks g q O = .ok D := by
  induction q generalizing D with
  | zero => exact ⟨[], rfl, rfl, congrArg Except.ok (List.length_eq_zero_iff.1 hD).symm⟩
  | succ q ih =>
    obtain ⟨o, ho, hlen, hback⟩ := hfg (D.take 8) (by rw [List.length_take]; omega)
    obtain ⟨O, hO, hlenO, hbackO⟩ := ih (D := D.drop 8) (by rw [List.length_drop]; omega)
    refine ⟨o ++ O, mapBlocks_succ_eq_ok.2 ⟨o, O, ho, hO, rfl⟩, by rw [List.length_append]; omega, ?_⟩
    rw [mapBlocks_cons hlen hback hbackO, List.take_append_drop]

/-! ## The two forms -/

theorem ecbF_lengthAlign (h : D.length % 8 ≠ 0) : ecbF f D = .error .lengthAlign := if_pos h

theorem ecbF_whole (h : D.length % 8 = 0) : ecbF f D = mapBlocks f (D.length / 8) D := if_neg (not_not.2 h)

theorem chunkF_of_mapBlocks (h : mapBlocks f (D.length / 8) D = .ok O) :
    chunkF f D = .ok (O ++ D.drop (8 * (D.length / 8))) := by rw [chunkF, h]

theorem chunkF_eq_ok :
    chunkF f D = .ok P ↔ ∃ O, mapBlocks f (D.length / 8) D = .ok O ∧ O ++ D.drop (8 * (D.length / 8)) = P := by
  rw [chunkF]
  cases mapBlocks f (D.length / 8) D <;> simp

/-- Less than one block is copied through (R332). -/
theorem chunkF_partial (hT : T.length < 8) : chunkF f T = .ok T := by
  have hq : T.length / 8 = 0 := Nat.div_eq_of_lt hT
  rw [chunkF_of_mapBlocks (O := []) (by rw [hq, mapBlocks_zero]), hq]
  rfl

/-- A buffer may be split after a whole number of blocks (R333 (c)). -/
theorem chunkF_append (hC : C.length % 8 = 0) (hO : ecbF f C = .ok O) (hP : chunkF f D = .ok P) :
    chunkF f (C ++ D) = .ok (O ++ P) := by
  obtain ⟨Q, hQ, rfl⟩ := chunkF_eq_ok.1 hP
  rw [ecbF_whole hC] at hO
  have hq : (C ++ D).length / 8 = C.length / 8 + D.length / 8 := by rw [List.length_append]; omega
  have hlen : 8 * (C.length / 8 + D.length / 8) = C.length + 8 * (D.length / 8) := by omega
  have hrow := mapBlocks_append (by omega) hO hQ
  rw [chunkF_of_mapBlocks (hq ▸ hrow), hq, hlen, List.drop_length_add_append, List.append_assoc]

/-- The round trip of the whole-buffer form (R333 (a)). -/
theorem InvertedBy.ecbF (hfg : InvertedBy f g) (hD : D.length % 8 = 0) :
    ∃ O, ecbF f D = .ok O ∧ O.length = D.length ∧ ecbF g O = .ok D := by
  obtain ⟨O, hO, hlen, hback⟩ := hfg.mapBlocks (D := D) (q := D.length / 8) (by omega)
  have hlen : O.length = D.length := by omega
  exact ⟨O, (ecbF_whole hD).trans hO, hlen, by rw [ecbF_whole (by rw [hlen, hD]), hlen, hback]⟩

/-- The round trip of the chunked form: split off the trailing partial block, which either pass copies (R333 (a)). -/
theorem InvertedBy.chunkF (hfg : InvertedBy f g) (D : Bytes) :
    ∃ O, chunkF f D = .ok O ∧ O.length = D.length ∧ chunkF g O = .ok D := by
  obtain ⟨C, T, hC, hT, rfl⟩ : ∃ C T : Bytes, C.length % 8 = 0 ∧ T.length < 8 ∧ C ++ T = D :=
    ⟨D.take (8 * (D.length / 8)), D.drop (8 * (D.length / 8)), by rw [List.length_take]; omega,
      by rw [List.length_drop]; omega, List.take_append_drop _ _⟩
  obtain ⟨O, hO, hlen, hback⟩ := hfg.ecbF hC
  exact ⟨O ++ T, chunkF_append hC hO (chunkF_partial hT), by rw [List.length_append, List.length_append, hlen],
    chunkF_append (by rw [hlen, hC]) hback (chunkF_partial hT)⟩

end Blocks

/-- Settles O59: both forms run the one row of whole blocks. -/
theorem adapterWorksBlockByBlock : Obligations.AdapterWorksBlockByBlock :=
  fun _ _ D hf => ⟨ecbF_lengthAlign, fun h => (ecbF_whole h).trans (mapBlocks_eq_flatMap hf _ D),
    chunkF_of_mapBlocks (mapBlocks_eq_flatMap hf _ D)⟩

/-- Settles O60: decryption undoes encryption on every block (R254, R284), hence on every row of blocks. -/
theorem adapterRoundTripAndSplitting : Obligations.AdapterRoundTripAndSplitting := by
  refine ⟨fun t D => ?_, fun k => (desEnc_invertedBy_desDec k).chunkF, fun f C D O P => chunkF_append⟩
  have hinv : InvertedBy (tdesEncWith t) (tdesDecWith t) := tdesEncF_invertedBy_tdesDecF t.mode _ _ _
  exact ⟨hinv.chunkF D, hinv.ecbF⟩

end Sys2Proof.Machine
end

section
/-! SUPPORT. The statements of 46_block_adapter.md, section 2: the four adapter commands (R334 to R338). -/
namespace Sys2Proof.Machine

/-- The code of each selector (R330). -/
theorem selCode_setWidth : ∀ p ∈ [(CipherKind.des, 0), (.tdes, 1)],
    (selCode p.1).setWidth 32 = BitVec.ofNat 32 p.2 := by decide

theorem cipherList_des {s : State} {c : Nat} {x : DesCtx} (hx : s.des[c]? = some x) :
    (cipherList s .des)[c]? = some (desCipher x) := by rw [cipherList, List.getElem?_map, hx]; rfl

theorem cipherList_tdes {s : State} {c : Nat} {x : TdesCtx} (hx : s.tdes[c]? = some x) :
    (cipherList s .tdes)[c]? = some (tdesCipher x) := by rw [cipherList, List.getElem?_map, hx]; rfl

/-- The command completes with RESULT 0, and the computation's LEN bytes stand at DST. -/
def StoresAtDst (i : Instr) (s : State) (v : Except ErrCode Bytes) : Prop :=
  ∃ O, v = .ok O ∧ O.length = s.opLen ∧ exec i s = .next { s.completed 0 with buf := s.buf.writeBytes s.opDst O }

/-- The regions of an adapter command lie inside BUF, and D stands in the first (R334, R337). -/
structure Transfers (s : State) (D : Bytes) : Prop where
  src : s.opSrc + s.opLen ≤ s.bufSize
  dst : s.opDst + s.opLen ≤ s.bufSize
  read : s.buf.readBytes s.opSrc s.opLen = some D

section Arms
variable {s : State} {D : Bytes}

theorem bufferCommand_eq {g : Bytes → Except ErrCode Bytes} {O : Bytes} (hD : Transfers s D) (hO : g D = .ok O) :
    bufferCommand s g = .ok 0 [(s.opDst, O)] .unchanged := by
  rw [bufferCommand, requireRegions_inside hD.src, requireRegions_inside hD.dst, requireRegions_nil,
    withBytes_some hD.read, withValue_of_ok hO]

/-- What a buffer function that keeps the length computes is stored at DST. -/
theorem storesAtDst_of_bufferCommand {i : Instr} {g : Bytes → Except ErrCode Bytes} (hD : Transfers s D)
    (hi : commandOut i s = bufferCommand s g) (hg : ∃ O, g D = .ok O ∧ O.length = D.length) :
    StoresAtDst i s (g D) := by
  obtain ⟨O, hO, hlen⟩ := hg
  exact ⟨O, hO, hlen.trans (Memory.readBytes_length hD.read), exec_of_store (hi.trans (bufferCommand_eq hD hO))⟩

variable {k : CipherKind} {c : Nat} {x : BlockCipher}

theorem encBytes_storesAtDst (hD : Transfers s D) (hx : (cipherList s k)[c]? = some x) (hkeyed : x.encValid = true)
    (hlen : s.opLen % 8 = 0) : StoresAtDst (.encBytes k c) s (ecbF x.enc D) :=
  storesAtDst_of_bufferCommand hD ((withCtx_keyed hx hkeyed).trans (require_pos hlen))
    (ecbF_ok (blockFn_cipherList (List.mem_of_getElem? hx)).1 D (Memory.readBytes_length hD.read ▸ hlen))

theorem decBytes_storesAtDst (hD : Transfers s D) (hx : (cipherList s k)[c]? = some x) (hkeyed : x.decValid = true)
    (hlen : s.opLen % 8 = 0) : StoresAtDst (.decBytes k c) s (ecbF x.dec D) :=
  storesAtDst_of_bufferCommand hD ((withCtx_keyed hx hkeyed).trans (require_pos hlen))
    (ecbF_ok (blockFn_cipherList (List.mem_of_getElem? hx)).2 D (Memory.readBytes_length hD.read ▸ hlen))

theorem encFile_storesAtDst (hD : Transfers s D) (hx : (cipherList s k)[c]? = some x) (hkeyed : x.encValid = true) :
    StoresAtDst (.encFile k c) s (chunkF x.enc D) :=
  storesAtDst_of_bufferCommand hD (withCtx_keyed hx hkeyed)
    (chunkF_ok (blockFn_cipherList (List.mem_of_getElem? hx)).1 D)

theorem decFile_storesAtDst (hD : Transfers s D) (hx : (cipherList s k)[c]? = some x) (hkeyed : x.decValid = true) :
    StoresAtDst (.decFile k c) s (chunkF x.dec D) :=
  storesAtDst_of_bufferCommand hD (withCtx_keyed hx hkeyed)
    (chunkF_ok (blockFn_cipherList (List.mem_of_getElem? hx)).2 D)

end Arms

/-- Settles O31: a context of either kind is a block cipher whose block functions answer 8 bytes (R330). -/
theorem bufferCommandsTransformBlocks : Obligations.BufferCommandsTransformBlocks := by
  refine fun s c => ⟨fun k sel hk => ?words, fun D hlen hsrc hdst hread => ?stores⟩
  case words =>
    rw [← selCode_setWidth _ hk]
    exact ⟨fun hc => ⟨assembleWord_context_modifier hc 0x21 _, assembleWord_context_modifier hc 0x22 _⟩,
      exec_failsAsChecked _ s, exec_failsAsChecked _ s⟩
  case stores =>
    have hD : Transfers s D := ⟨hsrc, hdst, hread⟩
    exact ⟨fun x hx hkeyed => encBytes_storesAtDst hD (cipherList_des hx) hkeyed hlen,
      fun x hx hkeyed => decBytes_storesAtDst hD (cipherList_des hx) hkeyed hlen,
      fun x hx hkeyed => encBytes_storesAtDst hD (cipherList_tdes hx) hkeyed hlen,
      fun x hx hkeyed => decBytes_storesAtDst hD (cipherList_tdes hx) hkeyed hlen⟩

/-- Settles O32: as O31, with no check on LEN. -/
theorem fileCommandsTransformChunks : Obligations.FileCommandsTransformChunks := by
  refine fun s c => ⟨fun k sel hk => ?words, fun D hsrc hdst hread => ?stores⟩
  case words =>
    rw [← selCode_setWidth _ hk]
    exact ⟨fun hc => ⟨assembleWord_context_modifier hc 0x23 _, assembleWord_context_modifier hc 0x24 _⟩,
      exec_failsAsChecked _ s, exec_failsAsChecked _ s⟩
  case stores =>
    have hD : Transfers s D := ⟨hsrc, hdst, hread⟩
    exact ⟨fun x hx hkeyed => encFile_storesAtDst hD (cipherList_des hx) hkeyed,
      fun x hx hkeyed => decFile_storesAtDst hD (cipherList_des hx) hkeyed,
      fun x hx hkeyed => encFile_storesAtDst hD (cipherList_tdes hx) hkeyed,
      fun x hx hkeyed => decFile_storesAtDst hD (cipherList_tdes hx) hkeyed⟩

end Sys2Proof.Machine
end

section
/-! SUPPORT. The statements of 70_reset_and_hazards.md: the reset turn (R390, R391), host accesses to a busy core
(R401 to R403), and the end of a poll loop (R411). -/
namespace Sys2Proof.Machine

/-! ## Reset (R390, R391) -/

theorem State.resetCore_withSchedule (s : State) (rest : List Turn) :
    State.resetCore { s with schedule := rest } =
      { State.resetWith s.params with freeReads := s.freeReads, host := s.host, schedule := rest } := rfl

/-- Settles O8: the scheduled turn is the reset input's, which looks at nothing of the core but its parameters. -/
theorem resetTurnResetsCore : Obligations.ResetTurnResetsCore := by
  intro s rest hs
  rw [step_of_schedule_cons hs, takeTurn, State.resetCore_withSchedule]

/-! ## Host accesses to a busy core (R401 to R403) -/

section Busy
variable {s t : State} {w : Width} {a : Nat}

/-- A CMD write of a busy core is HOST_HAZARD (R401). -/
theorem State.busWrite_cmd_busy (v : Word) (hbusy : s.status.busy = true) :
    s.busWrite .w32 Config.offCmd v = .fault .hostHazard := by
  simp [State.busWrite, Config.offCmd, Config.windowBase, regAccessOk, hbusy]

/-- A supported write of BUF while busy is HOST_HAZARD (R402). -/
theorem State.busWrite_window_busy (v : Word) (hbusy : s.status.busy = true) (ha : a < s.bufSize)
    (hw : WindowAccess w a) : s.busWrite w (Config.windowBase + a) v = .fault .hostHazard := by
  simp [State.busWrite, bufAccessOk_window.2 hw, Nat.not_le.2 ha, hbusy]

/-- A supported read of BUF while busy draws free bytes, and looks at no byte of BUF (R402; log 7). -/
theorem State.busRead_window_busy (hbusy : s.status.busy = true) (ha : a < s.bufSize) (hw : WindowAccess w a) :
    s.busRead w (Config.windowBase + a) =
      .next (laneWord (freeBytes s.freeReads w.bytes), { s with freeReads := s.freeReads + w.bytes }) := by
  simp [State.busRead, bufAccessOk_window.2 hw, Nat.not_le.2 ha, hbusy]

/-- A write of a busy core that completes changes the operand registers at most: an issue and a BUF write are hazards
(R401 to R403). -/
theorem State.busWrite_next_of_busy {off : Nat} {v : Word} (hbusy : s.status.busy = true)
    (h : s.busWrite w off v = .next t) : t = { s with regs := t.regs } := by
  rcases State.busWrite_next h with ⟨-, -, hidle, -⟩ | ⟨-, -, -, -, rfl⟩ | ⟨-, -, rfl⟩ | ⟨-, -, -, hidle, -⟩
  · exact nomatch hbusy.symm.trans hidle
  · exact s.writeReg_eq off v
  · rfl
  · exact nomatch hbusy.symm.trans hidle
end Busy

/-- Settles O16, from the three rules of accesses to a busy core. -/
theorem busyHazards : Obligations.BusyHazards :=
  fun _ hbusy => ⟨fun v => State.busWrite_cmd_busy v hbusy, fun _ _ v ha hw =>
    ⟨State.busWrite_window_busy v hbusy ha hw, _, _, State.busRead_window_busy hbusy ha hw⟩⟩

/-- The machine with another STATUS. -/
def State.withStatus (s : State) (x : Status) : State := { s with status := x }

section WithStatus
variable (s : State) (x : Status) {off : Nat}

/-- A register write does not look at STATUS, and carries it through. -/
theorem State.writeReg_withStatus (v : Word) :
    (s.withStatus x).writeReg off v = (s.writeReg off v).withStatus x := by
  unfold State.writeReg
  simp only [apply_ite (State.withStatus · x)]
  rfl

/-- STATUS is read at its own offset alone. -/
theorem State.readReg_withStatus (h : off ≠ Config.offStatus) : (s.withStatus x).readReg off = s.readReg off := by
  unfold State.readReg
  rw [if_neg h, if_neg h]
  rfl
end WithStatus

/-- Settles O17: the idle state differs in STATUS alone, which a register write ignores (`State.writeReg_withStatus`),
and a write that completes while busy changes operand registers at most (`State.busWrite_next_of_busy`). -/
theorem registerAccessWhileBusy : Obligations.RegisterAccessWhileBusy := by
  rintro s _ hbusy rfl
  refine ⟨fun off v h0 hlt hal => ⟨(s.writeReg off v).regs, ?_, ?_⟩,
    fun off hlt hal => ⟨s.busRead_register hlt hal, ?_⟩, fun w off v t h => ?_⟩
  · rw [s.busWrite_register v hlt hal (Nat.ne_of_gt h0)]
    exact congrArg _ (s.writeReg_eq off v)
  · rw [State.busWrite_register _ v hlt hal (Nat.ne_of_gt h0)]
    exact congrArg _ ((s.writeReg_withStatus _ v).trans (congrArg (State.withStatus · _) (s.writeReg_eq off v)))
  · exact fun hoff => (s.readReg_withStatus _ hoff).symm
  · rw [State.busWrite_next_of_busy hbusy h]
    exact ⟨rfl, rfl, rfl⟩

/-! ## Several steps -/

section RunSteps
variable {s t : State}

theorem runSteps_of_step (k : Nat) (h : step s = .next t) : runSteps (k + 1) s = runSteps k t := by
  rw [runSteps, h]

/-- Steps that answer a next state are followed by more steps from there. -/
theorem runSteps_add {j : Nat} (k : Nat) (h : runSteps j s = .next t) : runSteps (j + k) s = runSteps k t := by
  induction j generalizing s with
  | zero => cases h; rw [Nat.zero_add]
  | succ j ih =>
    rw [runSteps] at h
    split at h
    next r hr => rw [Nat.add_right_comm, runSteps_of_step _ hr, ih h]
    next => nomatch h
    next => nomatch h
end RunSteps

/-! ## The core under another host and another order of turns -/

/-- The machine with another host and other turns to come. -/
def State.withAgents (s : State) (h : HostAgent) (q : List Turn) : State := { s with host := h, schedule := q }

section WithAgents
variable (s : State) (h : HostAgent) (q : List Turn)
@[simp] theorem State.withAgents_host : (s.withAgents h q).host = h := rfl
@[simp] theorem State.withAgents_latch : (s.withAgents h q).latch = s.latch := rfl

/-- A scheduled turn of the host. -/
theorem step_withAgents_host : step (s.withAgents h (.host :: q)) = hostTurn (s.withAgents h q) :=
  step_of_schedule_cons (s := s.withAgents h (.host :: q)) rfl

/-- Exec looks at neither the host nor the turns to come. -/
theorem commandOut_withAgents (i : Instr) : commandOut i (s.withAgents h q) = commandOut i s := by
  cases i <;> rfl

/-- The perform step carries the host and the turns through. -/
theorem finish_withAgents (o : CmdOut) :
    finish (s.withAgents h q) o = mapNext (State.withAgents · h q) (finish s o) := by
  cases o with
  | err e => rfl
  | ok r ws x => cases x <;> rfl
  | uninit => rfl

/-- PERFORM does the same whatever the host and the turns to come are, and leaves them (R142, R410). -/
theorem performLatched_withAgents :
    performLatched (s.withAgents h q) = mapNext (State.withAgents · h q) (performLatched s) := by
  cases hd : decode s.latch.word with
  | ok i =>
    rw [performLatched_of_decode hd, performLatched_of_decode (s := s.withAgents h q) hd, exec_eq_finish,
      exec_eq_finish, commandOut_withAgents, finish_withAgents]
  | error e => simp only [performLatched, State.withAgents_latch, hd]; rfl
end WithAgents

/-- A perform step that answers leaves an idle core with an empty latch (R142), and CORE_BASE as it was. -/
theorem performLatched_next {s u : State} (h : performLatched s = .next u) :
    u.latch.valid = false ∧ u.status.busy = false ∧ u.coreBase = s.coreBase := by
  unfold performLatched at h
  split at h
  · rcases exec_next h with ⟨e, -, rfl⟩ | ⟨r, ws, x, -, rfl⟩
    · exact ⟨rfl, rfl, rfl⟩
    · exact ⟨rfl, rfl, s.putCtx_coreBase x⟩
  · cases h
    exact ⟨rfl, rfl, rfl⟩

/-! ## The statements of a poll loop (R120, R411) -/

section PollLoop
variable {s : State} {h : HostAgent} {q : List Turn} {p : Nat}

/-- The address of STATUS is the core's (R34, R43). -/
theorem State.offsetOf_status (s : State) : s.offsetOf (s.coreBase + 4) = some Config.offStatus := by
  simp [State.offsetOf, Config.coreSpan, Config.offStatus]

/-- The host's turn executes the statement at its position (R120). -/
theorem hostTurn_withAgents {st : HostStmt} (hst : h.prog[h.pc]? = some st) :
    hostTurn (s.withAgents h q) = hostStatement (s.withAgents h q) st := by
  rw [hostTurn, State.withAgents_host, hst]

/-- The host's turn at a STATUS read keeps the word for the next BIT, busy or idle (R120, R403). -/
theorem hostTurn_readStatus (hst : h.prog[h.pc]? = some (.read .w32 (s.coreBase + 4))) :
    hostTurn (s.withAgents h q) = .next (s.withAgents { h with pc := h.pc + 1, last := s.status.word } q) := by
  have hoff : (s.withAgents h q).advanceHost.offsetOf (s.coreBase + 4) = some Config.offStatus := s.offsetOf_status
  rw [hostTurn_withAgents hst, hostStatement, State.hostRead, hoff]
  rfl

/-- The host's turn at a BIT branches where the bit of the last value read is 1 (R120). -/
theorem hostTurn_bit {n target : Nat} (hst : h.prog[h.pc]? = some (.bit n target)) :
    hostTurn (s.withAgents h q) =
      .next (s.withAgents { h with pc := if h.last.getLsbD n then target else h.pc + 1 } q) := by
  rw [hostTurn_withAgents hst, hostStatement, State.withAgents_host]
  split <;> rfl

/-- A host in a poll loop at p for STATUS at an address: it is to read STATUS, or it has read BUSY = 1 and is to
branch back. -/
structure PollsAt (addr p : Nat) (h : HostAgent) : Prop where
  read : h.prog[p]? = some (.read .w32 addr)
  branch : h.prog[p + 1]? = some (.bit 0 p)
  place : h.pc = p ∨ h.pc = p + 1 ∧ h.last.getLsbD 0 = true

/-- A polling host's turn while the core is busy leaves it polling, and the core as it was. -/
theorem hostTurn_polls_busy (hbusy : s.status.busy = true) (hp : PollsAt (s.coreBase + 4) p h) :
    ∃ h', PollsAt (s.coreBase + 4) p h' ∧ hostTurn (s.withAgents h q) = .next (s.withAgents h' q) := by
  obtain ⟨hread, hbranch, hpc | ⟨hpc, hlast⟩⟩ := hp
  · refine ⟨_, ?_, hostTurn_readStatus (hpc ▸ hread)⟩
    exact ⟨hread, hbranch, .inr ⟨congrArg (· + 1) hpc, s.status.word_getLsbD_zero.trans hbusy⟩⟩
  · refine ⟨_, ?_, hostTurn_bit (hpc ▸ hbranch)⟩
    exact ⟨hread, hbranch, .inl (if_pos hlast)⟩

/-- While the core is busy, every number of host turns leaves the host polling. -/
theorem runSteps_polls_busy (hbusy : s.status.busy = true) (n : Nat) (hp : PollsAt (s.coreBase + 4) p h) :
    ∃ h', PollsAt (s.coreBase + 4) p h' ∧
      runSteps n (s.withAgents h (List.replicate n .host)) = .next (s.withAgents h' []) := by
  induction n generalizing h with
  | zero => exact ⟨h, hp, rfl⟩
  | succ n ih =>
    obtain ⟨h₁, hp₁, hturn⟩ := hostTurn_polls_busy (q := List.replicate n .host) hbusy hp
    obtain ⟨h₂, hp₂, hrun⟩ := ih hp₁
    have hstep : step (s.withAgents h (List.replicate (n + 1) .host)) =
        .next (s.withAgents h₁ (List.replicate n .host)) := (step_withAgents_host s h _).trans hturn
    exact ⟨h₂, hp₂, (runSteps_of_step n hstep).trans hrun⟩

section Idle
variable (hidle : s.status.busy = false) (hempty : s.latch.valid = false)
include hempty

/-- With an empty latch and no turns listed, the host moves (log 6). -/
theorem step_withAgents_idle : step (s.withAgents h []) = hostTurn (s.withAgents h []) := by
  rw [step_of_schedule_nil rfl, State.defaultTurn, State.withAgents_latch, hempty]
  rfl

include hidle

/-- A host at the head of its poll loop leaves it in two steps once the core is idle. -/
theorem runSteps_leaves_from_read (hp : PollsAt (s.coreBase + 4) p h) (hpc : h.pc = p) :
    ∃ h', h'.pc = p + 2 ∧ runSteps 2 (s.withAgents h []) = .next (s.withAgents h' []) := by
  subst hpc
  have hread := (step_withAgents_idle hempty).trans (hostTurn_readStatus hp.read)
  have hbit := (step_withAgents_idle hempty).trans
    (hostTurn_bit (s := s) (h := { h with pc := h.pc + 1, last := s.status.word }) hp.branch)
  have hgoes : s.status.word.getLsbD 0 = false := s.status.word_getLsbD_zero.trans hidle
  exact ⟨_, if_neg (ne_true_of_eq_false hgoes), (runSteps_of_step 1 hread).trans (runSteps_of_step 0 hbit)⟩

/-- A polling host leaves its loop within three steps once the core is idle: it may first branch back on BUSY = 1 that
it read before. -/
theorem runSteps_leaves_poll_loop (hp : PollsAt (s.coreBase + 4) p h) :
    ∃ k h', k ≤ 3 ∧ h'.pc = p + 2 ∧ runSteps k (s.withAgents h []) = .next (s.withAgents h' []) := by
  rcases hp.place with hpc | ⟨hpc, hlast⟩
  · obtain ⟨h', hpc', hrun⟩ := runSteps_leaves_from_read hidle hempty hp hpc
    exact ⟨2, h', by decide, hpc', hrun⟩
  · have hback := (step_withAgents_idle hempty).trans (hostTurn_bit (s := s) (hpc ▸ hp.branch))
    rw [if_pos hlast] at hback
    obtain ⟨h', hpc', hrun⟩ := runSteps_leaves_from_read hidle hempty (h := { h with pc := p })
      ⟨hp.read, hp.branch, .inl rfl⟩ rfl
    exact ⟨3, h', Nat.le_refl 3, hpc', (runSteps_of_step 2 hback).trans hrun⟩
end Idle
end PollLoop

/-- Settles O6 in three parts: the scheduled host turns leave the host polling a busy core, the core then performs its
latch whatever the host did meanwhile (`performLatched_withAgents`), and the host finds it idle. -/
theorem pollLoopEnds : Obligations.PollLoopEnds := by
  intro s u n p hsched hvalid hbusy hpc hread hbranch hperform
  obtain ⟨hempty, hidle, hbase⟩ := performLatched_next hperform
  obtain ⟨h, hp, hpolls⟩ := runSteps_polls_busy hbusy n (h := s.host) ⟨hread, hbranch, .inl hpc⟩
  have hcore : step (s.withAgents h []) = .next (u.withAgents h []) := by
    rw [step_of_latched_nil (s := s.withAgents h []) hvalid rfl, performLatched_withAgents, hperform, mapNext]
  obtain ⟨k, h', hk, hpc', hleaves⟩ := runSteps_leaves_poll_loop hidle hempty (hbase ▸ hp)
  refine ⟨n + (k + 1), u.withAgents h' [], by omega, ?_, hpc', rfl, hidle, rfl, rfl, rfl, rfl, rfl⟩
  calc runSteps (n + (k + 1)) s
      = runSteps (n + (k + 1)) (s.withAgents s.host (List.replicate n .host)) := by rw [← hsched]; rfl
    _ = runSteps (k + 1) (s.withAgents h []) := runSteps_add (k + 1) hpolls
    _ = runSteps k (u.withAgents h []) := runSteps_of_step k hcore
    _ = .next (u.withAgents h' []) := hleaves

end Sys2Proof.Machine
end

section
/-! SUPPORT. The invariant of the machine (`State.Inv`): that it holds after reset (R53), and that every step keeps it.
Each clause speaks of one part of the core; a command reaches the clauses about BUF and the contexts by what it stores
and installs alone (`commandOut_ok`), and a host access by issuing or by storing inside BUF. -/
namespace Sys2Proof.Machine

/-! ## The contexts (R44 to R46, R281) -/

/-- What the invariant asks of an RC4 context (R46). -/
def Rc4Ctx.wf (x : Rc4Ctx) : Prop := x.valid = true → x.S.toList.Perm sIdentity.toList

theorem State.rc4Wf_iff {s : State} : s.rc4Wf ↔ ∀ x ∈ s.rc4, x.wf := Iff.rfl

/-- What the invariant asks of a Triple-DES context (R281). -/
def TdesCtx.wf (x : TdesCtx) : Prop := x.e.wf ∧ x.d.wf

theorem State.tdesWf_iff {s : State} : s.tdesWf ↔ ∀ x ∈ s.tdes, x.wf := Iff.rfl

theorem DesCtx.unkeyed_wf : DesCtx.unkeyed.wf := ⟨nofun, nofun⟩
theorem TdesCtx.unkeyed_wf : TdesCtx.unkeyed.wf := ⟨nofun, nofun⟩
theorem Rc4Ctx.unkeyed_wf : Rc4Ctx.unkeyed.wf := nofun

section Install
variable {x : DesCtx} {k : Bytes}

/-- Installing the forward schedule of a key (R256). -/
theorem DesCtx.wf.installEk (hx : x.wf) (hk : k.length = 8) :
    DesCtx.wf { x with ek := scheduleOf (desKS k), ekValid := true } :=
  ⟨fun _ => ⟨k, hk, scheduleBytes_desKS k⟩, hx.2⟩

/-- Installing the backward schedule of a key (R257). -/
theorem DesCtx.wf.installDk (hx : x.wf) (hk : k.length = 8) :
    DesCtx.wf { x with dk := scheduleOf (desKS k).reverse, dkValid := true } :=
  ⟨hx.1, fun _ => ⟨k, hk, scheduleBytes_desKS_reverse k⟩⟩
end Install

/-- A two-key mode takes its third key from the first (R281). -/
theorem tdesKeySet_wf (m : TdesMode) (K : Bytes) : (tdesKeySet m K).wf := by
  rintro - (rfl | rfl)
  · rfl
  · rfl

/-- What the invariant asks of the context an update installs. -/
def CtxUpdate.wf : CtxUpdate → Prop
  | .unchanged => True
  | .des _ x => x.wf
  | .tdes _ x => x.wf
  | .rc4 _ x => x.wf

/-- A command that succeeds installs a well-formed context where its contexts were well formed. -/
theorem commandOut_ctxUpdate_wf {i : Instr} {s : State} {r : Word} {ws : List (Nat × Bytes)} {u : CtxUpdate}
    (hdes : s.desWf) (htdes : s.tdesWf) (hrc4 : s.rc4Wf) (h : commandOut i s = .ok r ws u) : u.wf := by
  rcases (commandOut_ok h).2 with rfl | ⟨c, x, k, hx, hu, hk⟩ | ⟨c, m, x, K, hx, hu, -⟩ | ⟨c, x, t, hx, rfl, ht⟩
  · trivial
  · have hxwf := hdes x (List.mem_of_getElem? hx)
    have hlen := Memory.readBytes_length hk
    rcases hu with ⟨-, rfl⟩ | ⟨-, rfl⟩
    · exact hxwf.installEk hlen
    · exact hxwf.installDk hlen
  · obtain ⟨he, hd⟩ := htdes x (List.mem_of_getElem? hx)
    rcases hu with ⟨-, rfl⟩ | ⟨-, rfl⟩
    · exact ⟨tdesKeySet_wf m K, hd⟩
    · exact ⟨he, tdesKeySet_wf m K⟩
  · intro _
    rcases ht with ⟨-, hperm⟩ | ⟨-, hvalid, hperm⟩
    · exact hperm
    · exact hperm.trans (hrc4 x (List.mem_of_getElem? hx) hvalid)

/-- A property of all contexts of a kind is kept by installing one that has it. -/
theorem forall_mem_set {α : Type} {P : α → Prop} {l : List α} {y : α} (hl : ∀ x ∈ l, P x) (hy : P y) (c : Nat) :
    ∀ x ∈ l.set c y, P x := fun x hx =>
  (List.mem_or_eq_of_mem_set hx).elim (hl x) fun h => h ▸ hy

section PutCtx
variable {s : State} {u : CtxUpdate} (hu : u.wf)
include hu

theorem State.desWf.putCtx (h : s.desWf) : (s.putCtx u).desWf := by
  cases u with
  | des c x => exact forall_mem_set h hu c
  | unchanged | tdes | rc4 => exact h

theorem State.tdesWf.putCtx (h : s.tdesWf) : (s.putCtx u).tdesWf := by
  cases u with
  | tdes c x => exact State.tdesWf_iff.2 (forall_mem_set (State.tdesWf_iff.1 h) hu c)
  | unchanged | des | rc4 => exact h

theorem State.rc4Wf.putCtx (h : s.rc4Wf) : (s.putCtx u).rc4Wf := by
  cases u with
  | rc4 c x => exact State.rc4Wf_iff.2 (forall_mem_set (State.rc4Wf_iff.1 h) hu c)
  | unchanged | des | tdes => exact h
end PutCtx

@[simp] theorem State.putCtx_params (s : State) (u : CtxUpdate) : (s.putCtx u).params = s.params := by
  simp [State.params]

/-! ## BUF (R70) -/

/-- A store inside BUF keeps its canonical form, and its cells inside BUF. -/
theorem State.bufWf.write {s : State} (h : s.bufWf) {a : Nat} {B : Bytes} (hB : a + B.length ≤ s.bufSize) :
    State.bufWf { s with buf := s.buf.writeBytes a B } := by
  obtain ⟨hcanon, hinside⟩ := h
  refine ⟨Memory.wf_writeBytes a B hcanon, fun x hx => ?_⟩
  rcases Memory.mem_writeBytes hx with hold | ⟨-, hlt⟩
  · exact hinside x hold
  · exact hlt.trans_le hB

/-- What a command that succeeds stores keeps BUF well formed (R75, R76). -/
theorem State.bufWf.command {i : Instr} {s : State} {r : Word} {ws : List (Nat × Bytes)} {u : CtxUpdate}
    (hs : s.bufWf) (h : commandOut i s = .ok r ws u) : State.bufWf { s with buf := s.buf.writeAll ws } := by
  rcases (commandOut_ok h).1 with rfl | ⟨a, O, rfl, hO⟩
  · exact hs
  · exact hs.write hO

/-- BUF holds a whole number of words (R13). -/
theorem State.four_dvd_bufSize {s : State} (h : s.params.wf = true) : 4 ∣ s.bufSize := by
  obtain ⟨hlog, -⟩ := Params.wf_iff.1 h
  exact pow_dvd_pow 2 (show 2 ≤ s.bufLog2 from le_trans (by decide) hlog)

/-- A supported access that starts inside BUF ends inside it: a word is aligned, and BUF a whole number of words
(R72). -/
theorem windowAccess_inside {w : Width} {a n : Nat} (hw : WindowAccess w a) (ha : a < n) (hn : 4 ∣ n) :
    a + w.bytes ≤ n := by
  rcases hw with rfl | ⟨rfl, hal⟩
  · exact ha
  · show a + 4 ≤ n
    omega

/-! ## STATUS (R36, R350) -/

/-- The codes of R350. -/
theorem ErrCode.code_bounds (e : ErrCode) : 1 ≤ e.code.toNat ∧ e.code.toNat ≤ 10 := by
  cases e <;> decide

/-! ## The invariant -/

/-- The machine after reset meets the invariant: nothing is keyed, nothing latched and nothing written (R53). -/
theorem State.resetWith_inv {p : Params} (hp : p.wf = true) : (State.resetWith p).Inv where
  params := (congrArg Params.wf (State.resetWith_params p)).trans hp
  buf := ⟨Memory.wf_nil, nofun⟩
  latch := rfl
  status := rfl
  des := fun _ hx => List.eq_of_mem_replicate hx ▸ DesCtx.unkeyed_wf
  tdes := State.tdesWf_iff.2 fun _ hx => List.eq_of_mem_replicate hx ▸ TdesCtx.unkeyed_wf
  rc4 := State.rc4Wf_iff.2 fun _ hx => List.eq_of_mem_replicate hx ▸ Rc4Ctx.unkeyed_wf

/-- Settles O9. The recommended parameters are one legal choice (R13). -/
theorem resetMeetsInvariant : Obligations.ResetMeetsInvariant :=
  ⟨State.resetWith_inv (by decide), fun _ => State.resetWith_inv⟩

section Inv
variable {s t : State}

/-- The invariant says nothing of RESULT, the operand registers, or the agents and their turns. -/
theorem State.Inv.unobserved (h : s.Inv) (r : Word) (g : OpRegs) (n : Nat) (a : HostAgent) (q : List Turn) :
    State.Inv { s with result := r, regs := g, freeReads := n, host := a, schedule := q } :=
  ⟨h.params, h.buf, h.latch, h.status, h.des, h.tdes, h.rc4⟩

/-- Failing a command keeps the invariant (R146). -/
theorem State.Inv.fail (h : s.Inv) (e : ErrCode) : (s.fail e).Inv :=
  ⟨h.params, h.buf, rfl, e.code_bounds, h.des, h.tdes, h.rc4⟩

/-- A command that succeeds keeps the invariant (R147). -/
theorem State.Inv.succeed {i : Instr} {r : Word} {ws : List (Nat × Bytes)} {u : CtxUpdate} (h : s.Inv)
    (hok : commandOut i s = .ok r ws u) : (s.succeed r ws u).Inv := by
  have hu : u.wf := commandOut_ctxUpdate_wf h.des h.tdes h.rc4 hok
  exact {
    params := (congrArg Params.wf (s.putCtx_params u)).trans h.params
    buf := by simpa [State.bufWf, State.bufSize] using h.buf.command hok
    latch := rfl
    status := rfl
    des := h.des.putCtx hu
    tdes := h.tdes.putCtx hu
    rc4 := h.rc4.putCtx hu }

/-- Every command keeps the invariant, whether it succeeds or fails. -/
theorem exec_keeps_inv {i : Instr} (hs : s.Inv) (h : exec i s = .next t) : t.Inv := by
  rcases exec_next h with ⟨e, -, rfl⟩ | ⟨r, ws, u, hok, rfl⟩
  · exact hs.fail e
  · exact hs.succeed hok

/-- The core's turn keeps the invariant (R142, R144). -/
theorem coreTurn_keeps_inv (hs : s.Inv) (h : coreTurn s = .next t) : t.Inv := by
  rcases coreTurn_next h with ⟨i, -, -, hi⟩ | ⟨e, -, -, rfl⟩ | ⟨-, rfl⟩
  · exact exec_keeps_inv hs hi
  · exact hs.fail .illegalCmd
  · exact hs

/-- Issuing a command sets BUSY and fills the latch together, and leaves ERR and ERRCODE (R141, R31). -/
theorem State.Inv.issue (h : s.Inv) (w : Word) : (s.issue w).Inv :=
  ⟨h.params, h.buf, rfl, h.status, h.des, h.tdes, h.rc4⟩

/-- A store inside BUF keeps the invariant. -/
theorem State.Inv.write (h : s.Inv) {a : Nat} {B : Bytes} (hB : a + B.length ≤ s.bufSize) :
    State.Inv { s with buf := s.buf.writeBytes a B } :=
  ⟨h.params, h.buf.write hB, h.latch, h.status, h.des, h.tdes, h.rc4⟩

/-- A host write keeps the invariant: it issues a command, writes an operand register, or stores inside BUF. -/
theorem State.busWrite_keeps_inv {w : Width} {off : Nat} {v : Word} (hs : s.Inv)
    (h : s.busWrite w off v = .next t) : t.Inv := by
  rcases State.busWrite_next h with ⟨-, -, -, rfl⟩ | ⟨-, -, -, -, rfl⟩ | ⟨-, -, rfl⟩ | ⟨hbase, hok, hlt, -, rfl⟩
  · exact hs.issue v
  · rw [State.writeReg_eq]
    exact hs.unobserved ..
  · exact hs
  · have hw : WindowAccess w (off - Config.windowBase) :=
      bufAccessOk_window.1 (by rwa [Nat.add_sub_cancel' hbase])
    apply hs.write
    rw [laneBytes_length]
    exact windowAccess_inside hw hlt (State.four_dvd_bufSize hs.params)

/-- The host's turn keeps the invariant: of its statements only a write reaches what the invariant is about. -/
theorem hostTurn_keeps_inv (hs : s.Inv) (h : hostTurn s = .next t) : t.Inv := by
  rcases hostTurn_next h with ⟨-, rfl⟩ | ⟨w, addr, v, -, hw⟩ | ⟨w, addr, -, hr⟩ | ⟨n, target, -, rfl⟩
  · exact hs
  · obtain ⟨off, -, hoff⟩ := State.hostWrite_next hw
    have hadv : s.advanceHost.Inv := hs.unobserved ..
    exact State.busWrite_keeps_inv hadv hoff
  · rw [State.hostRead_state hr]
    exact hs.unobserved ..
  · exact hs.unobserved ..

/-- The reset input keeps the invariant: it gives the state after reset, for the same parameters (R390). -/
theorem State.Inv.resetCore (h : s.Inv) : s.resetCore.Inv :=
  (State.resetWith_inv h.params).unobserved ..
end Inv

/-- Settles O10, agent by agent: the core's perform step, the host's statement, and the reset input. -/
theorem stepKeepsInvariant : Obligations.StepKeepsInvariant := by
  intro s t hs h
  have taken {u : State} (hu : u = s ∨ ∃ rest, u = { s with schedule := rest }) : u.Inv := by
    rcases hu with rfl | ⟨rest, rfl⟩
    · exact hs
    · exact hs.unobserved ..
  refine step_induction (P := State.Inv) h (fun u hu => ?core) (fun u hu => ?host) ?reset
  case core => exact coreTurn_keeps_inv (taken hu)
  case host => exact hostTurn_keeps_inv (taken hu)
  case reset =>
    rintro rest - rfl
    exact State.Inv.resetCore (taken (.inr ⟨rest, rfl⟩))

end Sys2Proof.Machine
end
